-- ==== Sys2Proof/Word.lean ====
section
/-! DEFINITION. The word types of CORE. Three of them are containers: the widths TS_WIDTH, WC_WIDTH, FIELD_WIDTH themselves are fields
of a configuration (Config.lean), and every value is reduced to its width by the operations of Machine/Operands.lean. -/

namespace Sys2Proof

/-- A byte is 8 bits; bit 7 is its high bit (00_scope.md R8). -/
abbrev Byte := BitVec 8

/-- A 16-bit quantity: a CRC value, a register number or count of a request, a length `N2` (30_encoding.md R51, R57). -/
abbrev Half := BitVec 16

/-- A 32-bit quantity, as wide as a field on the wire: it holds the write counter (WC_WIDTH bits of it) and every measurement field
(FIELD_WIDTH bits of it), 00_scope.md R7, 10_state.md R18, R19. DESIGN CHOICE (log 11): a container as wide as the spec's own value. -/
abbrev Word32 := BitVec 32

/-- Eight bytes, as wide as the operand `T8` (30_encoding.md R57): it holds a clock reading in microseconds, TS_WIDTH bits of it
(00_scope.md R7, decision D11). DESIGN CHOICE (log 11): a container as wide as the spec's own value. -/
abbrev Time := BitVec 64

/-- The width of `rx_len` and `rx_expected`, 9 bits (10_state.md R11, R12, decision D27). -/
abbrev Len := BitVec 9

end Sys2Proof
end

