-- ==== Sys2Proof/Config.lean ====
section
/-! DEFINITION. The implementation parameters of 00_scope.md R7, as fields of a configuration, with the value this hardware takes.
The OPEN ones are free values: opaque constants with no body (log 10). -/

namespace Sys2Proof

/-- 00_scope.md R7, one field per row. -/
structure Config where
  /-- FRAME_MAX: maximum accumulated frame length, capacity of the frame buffer. -/
  frameMax : Nat
  /-- CRC_POLY: reflected generator polynomial. -/
  crcPoly : Half
  /-- CRC_INIT: initial CRC value. -/
  crcInit : Half
  /-- PROV_LEN: provisional expected length set in WAIT_FUNCTION. -/
  provLen : Len
  /-- LEN_OVERHEAD: expected length = byte-count + this. -/
  lenOverhead : Len
  /-- EXC_LEN: expected total length of an exception response; 5 in the spec, 7 in the source code (C3, D6). -/
  excLen : Len
  /-- TIMEOUT_US: start-of-frame timeout in microseconds. -/
  timeoutUs : Time
  /-- READ_REGS: registers in the one response shape the decoder accepts. -/
  readRegs : Nat
  /-- READ_FRAME_LEN = 5 + 4 * READ_REGS. -/
  readFrameLen : Nat
  /-- RING_N: ring capacity. -/
  ringN : Nat
  /-- WC_WIDTH: width of the write counter in bits. -/
  wcWidth : Nat
  /-- REQ_PERIOD_US: request period of the session driver. -/
  reqPeriodUs : Time
  /-- TS_WIDTH: width of a clock reading in bits (decision D11, kept as a parameter). -/
  tsWidth : Nat
  /-- FIELD_WIDTH: width of every measurement field of a record in bits. -/
  fieldWidth : Nat
  /-- OFF_VOLTAGE .. OFF_PF2: byte offsets of the fields in the frame (42_register_decoder.md R101). -/
  offVoltage : Nat
  offI1 : Nat
  offP1 : Nat
  offE1 : Nat
  offPf1 : Nat
  offSign1 : Nat
  offSign2 : Nat
  offFreq : Nat
  offI2 : Nat
  offP2 : Nat
  offE2 : Nat
  offPf2 : Nat
  /-- SLAVE_ADDR: address byte of the request; OPEN. -/
  slaveAddr : Byte
  /-- REQ_START_REG: starting register of the periodic request; OPEN. -/
  reqStartReg : Half
  /-- BAUD: OPEN, used by no rule. -/
  baud : Nat
deriving DecidableEq, Repr

/-- SLAVE_ADDR is OPEN (92_eei_decisions.md, open parameters): a free value. -/
opaque Config.freeSlaveAddr : Byte

/-- REQ_START_REG is OPEN (92_eei_decisions.md, open parameters): a free value. -/
opaque Config.freeReqStartReg : Half

/-- BAUD is OPEN (92_eei_decisions.md, open parameters): a free value no rule reads. -/
opaque Config.freeBaud : Nat

/-- The value this hardware takes for every parameter (00_scope.md R7; 42_register_decoder.md R101). -/
def Config.core : Config where
  frameMax := 256
  crcPoly := 0xA001
  crcInit := 0xFFFF
  provLen := 3
  lenOverhead := 5
  excLen := 5
  timeoutUs := 1000000
  readRegs := 14
  readFrameLen := 61
  ringN := 60
  wcWidth := 32
  reqPeriodUs := 1000000
  tsWidth := 64
  fieldWidth := 32
  offVoltage := 3
  offI1 := 7
  offP1 := 11
  offE1 := 15
  offPf1 := 19
  offSign1 := 27
  offSign2 := 28
  offFreq := 31
  offI2 := 39
  offP2 := 43
  offE2 := 47
  offPf2 := 51
  slaveAddr := Config.freeSlaveAddr
  reqStartReg := Config.freeReqStartReg
  baud := Config.freeBaud

/-- The source code's own constant for the exception length (90_conflicts.md C3; 41_frame_receiver.md R95). -/
def Config.sourceExcLen : Config := { Config.core with excLen := 7 }

/-- A device with a 32-bit microsecond clock (92_eei_decisions.md D11, 70_reset_and_hazards.md R170). -/
def Config.clock32 : Config := { Config.core with tsWidth := 32 }

/-- The constraints a configuration must meet for the rules to hold (00_scope.md R7, last paragraph), with the formula R7 gives
for READ_FRAME_LEN. -/
abbrev Config.ok (c : Config) : Prop :=
  5 ≤ c.excLen.toNat ∧ c.excLen.toNat ≤ c.frameMax ∧ 1 ≤ c.ringN ∧ c.readFrameLen ≤ c.frameMax ∧
    c.readFrameLen = 5 + 4 * c.readRegs

/-- The widths a configuration may take: each at most its container's (log 11). -/
abbrev Config.fits (c : Config) : Prop := c.tsWidth ≤ 64 ∧ c.wcWidth ≤ 32 ∧ c.fieldWidth ≤ 32

end Sys2Proof
end

