-- ==== Sys2Proof/Machine/Operands.lean ====
section
/-! DEFINITION. How values are assembled from bytes and taken apart again (20_memory.md R31, R60), and the arithmetic of the decoder
and of the clock (42_register_decoder.md R103, 00_scope.md R8). Byte order is decided here, once: big-endian. -/

namespace Sys2Proof

/-- `hi(c) = c[15:8]`, the byte first on the wire (00_scope.md R8). -/
def hi (c : Half) : Byte := c.extractLsb' 8 8

/-- `lo(c) = c[7:0]`, the byte second on the wire (00_scope.md R8). -/
def lo (c : Half) : Byte := c.extractLsb' 0 8

/-- Two bytes as one 16-bit value, the first more significant: `(a << 8) or b` (30_encoding.md R60). -/
def be16 (a b : Byte) : Half := (a.zeroExtend 16 <<< 8) ||| b.zeroExtend 16

/-- Four bytes as one 32-bit value, the first most significant (42_register_decoder.md R100). -/
def be32 (a b c d : Byte) : Word32 :=
  (a.zeroExtend 32 <<< 24) ||| (b.zeroExtend 32 <<< 16) ||| (c.zeroExtend 32 <<< 8) ||| d.zeroExtend 32

/-- Two 32-bit halves as one clock reading, the first more significant (`T8`, 30_encoding.md R57). -/
def be64 (h l : Word32) : Time := (h.zeroExtend 64 <<< 32) ||| l.zeroExtend 64

/-- The two bytes of a 16-bit value in wire order (20_memory.md R31). -/
def bytes16 (v : Half) : List Byte := [hi v, lo v]

/-- The four bytes of a 32-bit value in wire order (20_memory.md R31). -/
def bytes32 (v : Word32) : List Byte :=
  [v.extractLsb' 24 8, v.extractLsb' 16 8, v.extractLsb' 8 8, v.extractLsb' 0 8]

/-- `T8`: the eight bytes of a clock reading, big-endian (30_encoding.md R57). -/
def bytes64 (t : Time) : List Byte := bytes32 (t.extractLsb' 32 32) ++ bytes32 (t.extractLsb' 0 32)

/-- The low `w` bits of a value, in the same container: `v mod 2^w` (00_scope.md R8: arithmetic on a register of width `w`). -/
def lowBits {n : Nat} (w : Nat) (v : BitVec n) : BitVec n := (v.setWidth w).setWidth n

/-- A clock reading as a register of TS_WIDTH bits holds it (00_scope.md R7, R8; 10_state.md R13, R18, R22). -/
def clockBits (c : Config) (t : Time) : Time := lowBits c.tsWidth t

/-- A counter value as a register of WC_WIDTH bits holds it (00_scope.md R7; 10_state.md R16). -/
def counterBits (c : Config) (v : Word32) : Word32 := lowBits c.wcWidth v

/-- A measurement as a record field of FIELD_WIDTH bits holds it (00_scope.md R7; 10_state.md R18, R19). -/
def fieldBits (c : Config) (v : Word32) : Word32 := lowBits c.fieldWidth v

/-- `elapsed(now, t) = (now - t) mod 2^TS_WIDTH` (00_scope.md R8, 41_frame_receiver.md R88). -/
def elapsed (c : Config) (now t : Time) : Time := clockBits c (now - t)

/-- `neg32`: the 32-bit two's complement negation (00_scope.md R8). -/
def neg32 (v : Word32) : Word32 := -v

/-- `raw div 10`: unsigned, truncating (42_register_decoder.md R103). -/
def div10 (raw : Word32) : Word32 := raw / 10

/-- `(raw * 10) mod 2^32` (42_register_decoder.md R103). -/
def mul10 (raw : Word32) : Word32 := raw * 10

/-- `signed_power(raw, flag)`: the division first, on the magnitude, then the negation when the flag byte is nonzero
(42_register_decoder.md R103). -/
def signedPower (raw : Word32) (flag : Byte) : Word32 :=
  if flag ≠ 0 then neg32 (div10 raw) else div10 raw

end Sys2Proof
end

