-- ==== Sys2Proof/Machine/Flags.lean ====
section
/-! DEFINITION. The flag-like predicates of CORE. It keeps no status register (10_state.md R25); these are computed when needed. -/

namespace Sys2Proof

/-- `is_exc`: bit 7 of the function code (10_state.md R25). -/
def isExc (function : Byte) : Bool := function.getLsbD 7

/-- The pattern of the `RESP.READ14` row over function and third byte: 0x0338 (30_encoding.md R65). -/
def isRead14Head (function third : Byte) : Bool := function == 0x03 && third == 0x38

/-- A byte sequence whose length fits the 2-byte length `N2` (30_encoding.md R57). -/
def fitsN2 (bytes : List Byte) : Bool := decide (bytes.length < 65536)

/-- The start-of-frame timeout has passed: `elapsed(now, rx_start_ts) > TIMEOUT_US`, strictly (41_frame_receiver.md R88). -/
def timedOut (c : Config) (now start : Time) : Bool := decide (c.timeoutUs < elapsed c now start)

/-- A periodic request is due: `elapsed(now, last_send_ts) > REQ_PERIOD_US`, strictly (44_session_driver.md R127). -/
def requestDue (c : Config) (now last : Time) : Bool := decide (c.reqPeriodUs < elapsed c now last)

/-- The shape the decoder accepts: function 0x03 and length READ_FRAME_LEN (42_register_decoder.md R102). -/
def isDecodable (c : Config) (function : Byte) (len : Len) : Bool :=
  function == 0x03 && len.toNat == c.readFrameLen

end Sys2Proof
end

