-- ==== Sys2Proof/Syntax.lean ====
section
/-! DEFINITION. The operations and wire frames of CORE as syntax: one constructor of `Instr` per row of spec/opcode_table.json,
and the two kinds of data their operands carry (a Power Record, the payload of the decoded response). -/

namespace Sys2Proof

/-- Channel Measurement (10_state.md R19). -/
structure Channel where
  currentMa : Word32
  /-- two's complement -/
  puissanceActiveMw : Word32
  energyWh : Word32
  powerFactor : Word32
deriving DecidableEq, Repr

/-- Power Record (10_state.md R18): one complete meter reading, one ring slot. `ch0` is channel 1, `ch1` channel 2. -/
structure PowerRecord where
  index : Word32
  timestampUs : Time
  voltageMv : Word32
  frequency : Word32
  ch0 : Channel
  ch1 : Channel
deriving DecidableEq, Repr

/-- The 56 data bytes of the one response shape the decoder accepts, field by field (42_register_decoder.md R101). -/
structure Read14 where
  voltage : Word32
  current1 : Word32
  power1 : Word32
  energy1 : Word32
  powerFactor1 : Word32
  ignored23 : Word32
  sign1 : Byte
  sign2 : Byte
  ignored29 : Half
  frequency : Word32
  ignored35 : Word32
  current2 : Word32
  power2 : Word32
  energy2 : Word32
  powerFactor2 : Word32
  ignored55 : Word32
deriving DecidableEq, Repr

/-- The rows of spec/opcode_table.json. Port operations carry the operands of 30_encoding.md R57; internal operations the operands
of their own rules; wire frames the fields of 30_encoding.md R51 to R53 (received ones with the clock reading of the poll that
takes them, log 5). -/
inductive Instr where
  /-- `CRC16`, port code 0x1 (40_crc16.md R73). -/
  | crc16 (data : List Byte)
  /-- `CRC.APPEND`, port code 0x2 (40_crc16.md R76). -/
  | crcAppend (frame : List Byte)
  /-- `CRC.CHECK`, port code 0x3 (40_crc16.md R77). -/
  | crcCheck (frame : List Byte)
  /-- `RX.BYTE`, port code 0x4 (41_frame_receiver.md R81). -/
  | rxByte (b : Byte) (now : Time)
  /-- `RX.TIMEOUT`, port code 0x5 (41_frame_receiver.md R88). -/
  | rxTimeout (now : Time)
  /-- `RX.POLL`, port code 0x6 (41_frame_receiver.md R89). -/
  | rxPoll (now : Time) (avail : List Byte)
  /-- `RING.LATEST`, port code 0x7 (43_ring_buffer.md R117). -/
  | ringLatest
  /-- `CLIENT.INIT`, port code 0x8 (44_session_driver.md R126). -/
  | clientInit (now : Time)
  /-- `CLIENT.POLL`, port code 0x9 (44_session_driver.md R127). -/
  | clientPoll (now : Time) (avail : List Byte)
  /-- `EXC.REPORT`, internal (41_frame_receiver.md R87). -/
  | excReport
  /-- `DEC.FRAME`, internal (42_register_decoder.md R102): the frame is `buf[0:len]`. -/
  | decFrame (len : Len) (now : Time)
  /-- `UNPACK.BE32`, internal (42_register_decoder.md R100). -/
  | unpackBe32 (off : Byte)
  /-- `RING.WRITE`, internal (43_ring_buffer.md R116). -/
  | ringWrite (rec : PowerRecord)
  /-- `REQ.READ`, the request frame, transmitted (30_encoding.md R51); `crc` holds the two placeholder CRC bytes.
  `address` is SLAVE_ADDR in R51 and any byte here: DESIGN CHOICE (log 18). -/
  | reqRead (address : Byte) (reg : Half) (count : Half) (crc : Half)
  /-- `RESP.EXC`, an exception response, received (30_encoding.md R53). -/
  | respExc (address : Byte) (function : Byte) (code : Byte) (crc : Half) (now : Time)
  /-- `RESP.READ14`, the 61-byte response, received (42_register_decoder.md R101). -/
  | respRead14 (address : Byte) (payload : Read14) (crc : Half) (now : Time)
  /-- `RESP.OTHER`, any other non-exception response, received (30_encoding.md R52). -/
  | respOther (address : Byte) (function : Byte) (byteCount : Byte) (data : List Byte) (crc : Half) (now : Time)
deriving DecidableEq, Repr

/-- What can stand at CORE's inputs (30_encoding.md R54, R56; log 1). -/
inductive Input where
  /-- A transaction at the operation port: its bytes (30_encoding.md R57). -/
  | transaction (bytes : List Byte)
  /-- Bytes that arrive on the serial line and are taken by the poll whose clock reading is `now` (log 5). -/
  | arrival (frame : List Byte) (now : Time)
  /-- A request frame the session driver transmits (30_encoding.md R51, R56; log 6). -/
  | request (frame : List Byte)
deriving DecidableEq, Repr

end Sys2Proof
end

