-- ==== Sys2Proof/WellFormed.lean ====
section
/-! DEFINITION. Which instructions are well formed: exactly those whose operands fit the spec's encoding of the row. -/

namespace Sys2Proof

/-- Well-formedness, one line per constructor. The operands of the port operations are bounded by their encoding (R57); an offset of
the unpacker is at most FRAME_MAX-4 (42_register_decoder.md R100); a length at most FRAME_MAX; a received frame meets the pattern
of its own row and of no row before it (30_encoding.md R65), and its data has byte_count bytes (R52). -/
def Instr.wf (i : Instr) : Bool :=
  match i with
  | .crc16 data => fitsN2 data
  | .crcAppend frame => fitsN2 frame
  | .crcCheck frame => fitsN2 frame
  | .rxByte _ _ => true
  | .rxTimeout _ => true
  | .rxPoll _ avail => fitsN2 avail
  | .ringLatest => true
  | .clientInit _ => true
  | .clientPoll _ avail => fitsN2 avail
  | .excReport => true
  | .decFrame len _ => decide (len.toNat ≤ Config.core.frameMax)
  | .unpackBe32 off => decide (off.toNat + 4 ≤ Config.core.frameMax)
  | .ringWrite _ => true
  | .reqRead _ _ _ _ => true
  | .respExc _ function _ _ _ => isExc function
  | .respRead14 _ _ _ _ => true
  | .respOther _ function byteCount data _ _ =>
      !isExc function && !isRead14Head function byteCount && data.length == byteCount.toNat

/-- The internal operations have no encoding at the port or on the wire (30_encoding.md R55). -/
def Instr.isInternal (i : Instr) : Bool :=
  match i with
  | .crc16 _ => false
  | .crcAppend _ => false
  | .crcCheck _ => false
  | .rxByte _ _ => false
  | .rxTimeout _ => false
  | .rxPoll _ _ => false
  | .ringLatest => false
  | .clientInit _ => false
  | .clientPoll _ _ => false
  | .excReport => true
  | .decFrame _ _ => true
  | .unpackBe32 _ => true
  | .ringWrite _ => true
  | .reqRead _ _ _ _ => false
  | .respExc _ _ _ _ _ => false
  | .respRead14 _ _ _ _ => false
  | .respOther _ _ _ _ _ _ => false

end Sys2Proof
end

