-- ==== Sys2Proof/Decode.lean ====
section
/-! DEFINITION. The decoder, total on every input, rejecting by name; after it the encoder, written from the same tables
(30_encoding.md R50 to R53, R57, R65); then the opcode table's own words. -/

namespace Sys2Proof

/-- Why an input is no instruction. -/
inductive Reject where
  /-- A transaction of no bytes: there is no operation code. -/
  | empty
  /-- A first byte with any of bits 7:4 set (30_encoding.md R62). -/
  | reservedBits
  /-- Operation code 0x0 or 0xA to 0xF (30_encoding.md R62). -/
  | reservedCode
  /-- The bytes end before the operands do (malformed operand, 30_encoding.md R58). -/
  | truncated
  /-- Bytes stand after the last operand (malformed operand, 30_encoding.md R58). -/
  | trailing
  /-- A request frame whose function is not 0x03 (30_encoding.md R51). -/
  | notARequest
deriving DecidableEq, Repr

/-- What a parser answers: a value and the bytes after it, or a reason. -/
abbrev Parsed (α : Type) := Except Reject (α × List Byte)

/-- Parse on: the value and the rest go to `f`, a reason stops. -/
def andThen {α β : Type} (r : Parsed α) (f : α → List Byte → Parsed β) : Parsed β :=
  match r with
  | .ok (a, rest) => f a rest
  | .error e => .error e

/-- One byte. -/
def parse8 (bytes : List Byte) : Parsed Byte :=
  match bytes with
  | a :: rest => .ok (a, rest)
  | _ => .error .truncated

/-- Two bytes, big-endian (`N2`, a register, a count, a CRC). -/
def parse16 (bytes : List Byte) : Parsed Half :=
  match bytes with
  | a :: b :: rest => .ok (be16 a b, rest)
  | _ => .error .truncated

/-- Four bytes, big-endian. -/
def parse32 (bytes : List Byte) : Parsed Word32 :=
  match bytes with
  | a :: b :: c :: d :: rest => .ok (be32 a b c d, rest)
  | _ => .error .truncated

/-- `T8`: eight bytes, big-endian (30_encoding.md R57). -/
def parse64 (bytes : List Byte) : Parsed Time :=
  andThen (parse32 bytes) fun h rest =>
  andThen (parse32 rest) fun l rest =>
  .ok (be64 h l, rest)

/-- Exactly `n` bytes. -/
def parseBytes (n : Nat) (bytes : List Byte) : Parsed (List Byte) :=
  match n, bytes with
  | 0, rest => .ok ([], rest)
  | n + 1, a :: rest =>
    andThen (parseBytes n rest) fun l rest => .ok (a :: l, rest)
  | _ + 1, [] => .error .truncated

/-- `N2` and that many bytes (30_encoding.md R57). -/
def parseCounted (bytes : List Byte) : Parsed (List Byte) :=
  andThen (parse16 bytes) fun n rest =>
  parseBytes n.toNat rest

/-- The operands of the port operation with code `code` (30_encoding.md R55, R57). -/
def parseOperands (code : Nat) (bytes : List Byte) : Parsed Instr :=
  match code with
  | 0x1 =>
    andThen (parseCounted bytes) fun data rest =>
    .ok (.crc16 data, rest)
  | 0x2 =>
    andThen (parseCounted bytes) fun frame rest =>
    .ok (.crcAppend frame, rest)
  | 0x3 =>
    andThen (parseCounted bytes) fun frame rest =>
    .ok (.crcCheck frame, rest)
  | 0x4 =>
    andThen (parse8 bytes) fun b rest =>
    andThen (parse64 rest) fun now rest =>
    .ok (.rxByte b now, rest)
  | 0x5 =>
    andThen (parse64 bytes) fun now rest =>
    .ok (.rxTimeout now, rest)
  | 0x6 =>
    andThen (parse64 bytes) fun now rest =>
    andThen (parseCounted rest) fun avail rest =>
    .ok (.rxPoll now avail, rest)
  | 0x7 => .ok (.ringLatest, bytes)
  | 0x8 =>
    andThen (parse64 bytes) fun now rest =>
    .ok (.clientInit now, rest)
  | 0x9 =>
    andThen (parse64 bytes) fun now rest =>
    andThen (parseCounted rest) fun avail rest =>
    .ok (.clientPoll now avail, rest)
  | _ => .error .reservedCode

/-- A port operation at the front of a byte string: bits 7:4 of the first byte are 0, bits 3:0 the code (30_encoding.md R57, R62). -/
def parseTransaction (bytes : List Byte) : Parsed Instr :=
  match bytes with
  | [] => .error .empty
  | op :: rest => if op.extractLsb' 4 4 ≠ 0 then .error .reservedBits else parseOperands (op.extractLsb' 0 4).toNat rest

/-- The 56 data bytes of the decoded shape, fields in frame order (42_register_decoder.md R101). -/
def parseRead14 (bytes : List Byte) : Parsed Read14 :=
  andThen (parse32 bytes) fun voltage rest =>
  andThen (parse32 rest) fun current1 rest =>
  andThen (parse32 rest) fun power1 rest =>
  andThen (parse32 rest) fun energy1 rest =>
  andThen (parse32 rest) fun powerFactor1 rest =>
  andThen (parse32 rest) fun ignored23 rest =>
  andThen (parse8 rest) fun sign1 rest =>
  andThen (parse8 rest) fun sign2 rest =>
  andThen (parse16 rest) fun ignored29 rest =>
  andThen (parse32 rest) fun frequency rest =>
  andThen (parse32 rest) fun ignored35 rest =>
  andThen (parse32 rest) fun current2 rest =>
  andThen (parse32 rest) fun power2 rest =>
  andThen (parse32 rest) fun energy2 rest =>
  andThen (parse32 rest) fun powerFactor2 rest =>
  andThen (parse32 rest) fun ignored55 rest =>
  .ok ({ voltage, current1, power1, energy1, powerFactor1, ignored23, sign1, sign2, ignored29, frequency, ignored35,
            current2, power2, energy2, powerFactor2, ignored55 }, rest)

/-- A received frame at the front of a byte string, classified by its first three bytes in the priority order of the table
(30_encoding.md R65): exception response, the decoded shape, any other response. -/
def parseReceived (now : Time) (bytes : List Byte) : Parsed Instr :=
  andThen (parse8 bytes) fun address rest =>
  andThen (parse8 rest) fun function rest =>
  andThen (parse8 rest) fun third rest =>
  if isExc function then
    andThen (parse16 rest) fun crc rest =>
    .ok (.respExc address function third crc now, rest)
  else if isRead14Head function third then
    andThen (parseRead14 rest) fun payload rest =>
    andThen (parse16 rest) fun crc rest =>
    .ok (.respRead14 address payload crc now, rest)
  else
    andThen (parseBytes third.toNat rest) fun data rest =>
    andThen (parse16 rest) fun crc rest =>
    .ok (.respOther address function third data crc now, rest)

/-- A request frame at the front of a byte string (30_encoding.md R51). Its address is SLAVE_ADDR there; any other is read too:
DESIGN CHOICE (log 18). -/
def parseRequest (bytes : List Byte) : Parsed Instr :=
  andThen (parse8 bytes) fun address rest =>
  andThen (parse8 rest) fun function rest =>
  andThen (parse16 rest) fun reg rest =>
  andThen (parse16 rest) fun count rest =>
  andThen (parse16 rest) fun crc rest =>
  if function = 0x03 then .ok (.reqRead address reg count crc, rest) else .error .notARequest

/-- The instruction at the front of an input, and the bytes after it. -/
def parseInput (x : Input) : Parsed Instr :=
  match x with
  | .transaction bytes => parseTransaction bytes
  | .arrival frame now => parseReceived now frame
  | .request frame => parseRequest frame

/-- Nothing may stand after the last operand. -/
def complete (r : Parsed Instr) : Except Reject Instr :=
  match r with
  | .ok (i, []) => .ok i
  | .ok (_, _ :: _) => .error .trailing
  | .error e => .error e

/-- THE DECODER: total, and the whole input is the instruction. -/
def decode (x : Input) : Except Reject Instr := complete (parseInput x)

/-- Which internal operation a completed frame that passed the CRC check selects: the `INTERNAL` rows `EXC.REPORT` (bit 7 of the
function set) and `DEC.FRAME` (clear) (30_encoding.md R55, R61, R65). -/
def selectInternal (function : Byte) (len : Len) (now : Time) : Instr :=
  if isExc function then .excReport else .decFrame len now

/-- The offsets `DEC.FRAME` unpacks, in the order of 42_register_decoder.md R102: one `UNPACK.BE32` each. -/
def unpackOffsets (c : Config) : List Nat :=
  [c.offVoltage, c.offFreq, c.offI1, c.offP1, c.offE1, c.offPf1, c.offI2, c.offP2, c.offE2, c.offPf2]

/-- What the `UNPACK.BE32` and `RING.WRITE` rows are selected by: function 0x03 and third byte 0x38 (30_encoding.md R65), on which
`DEC.FRAME` unpacks every decoded field and writes the record `rec` it assembled. -/
def selectFromDecoder (c : Config) (function third : Byte) (rec : PowerRecord) : List Instr :=
  if isRead14Head function third then
    (unpackOffsets c).map (fun off => .unpackBe32 (BitVec.ofNat 8 off)) ++ [.ringWrite rec]
  else []

/-! ### The encoder -/

/-- `N2` and the bytes (30_encoding.md R57). -/
def counted (bytes : List Byte) : List Byte := bytes16 (BitVec.ofNat 16 bytes.length) ++ bytes

/-- The 56 data bytes of the decoded shape (42_register_decoder.md R101). -/
def read14Bytes (p : Read14) : List Byte :=
  bytes32 p.voltage ++ bytes32 p.current1 ++ bytes32 p.power1 ++ bytes32 p.energy1 ++ bytes32 p.powerFactor1 ++
    bytes32 p.ignored23 ++ [p.sign1, p.sign2] ++ bytes16 p.ignored29 ++ bytes32 p.frequency ++ bytes32 p.ignored35 ++
    bytes32 p.current2 ++ bytes32 p.power2 ++ bytes32 p.energy2 ++ bytes32 p.powerFactor2 ++ bytes32 p.ignored55

/-- The request frame of 30_encoding.md R51, `crc` in its last two bytes. -/
def reqReadBytes (address : Byte) (reg count crc : Half) : List Byte :=
  [address, 0x03] ++ bytes16 reg ++ bytes16 count ++ bytes16 crc

/-- The exception response of 30_encoding.md R53. -/
def respExcBytes (address function code : Byte) (crc : Half) : List Byte :=
  [address, function, code] ++ bytes16 crc

/-- The decoded response of 42_register_decoder.md R101. -/
def respRead14Bytes (address : Byte) (p : Read14) (crc : Half) : List Byte :=
  [address, 0x03, 0x38] ++ read14Bytes p ++ bytes16 crc

/-- The success response of 30_encoding.md R52. -/
def respOtherBytes (address function byteCount : Byte) (data : List Byte) (crc : Half) : List Byte :=
  [address, function, byteCount] ++ data ++ bytes16 crc

/-- THE ENCODER: the input an instruction stands for, none for an internal operation (30_encoding.md R55: no code). -/
def encode (i : Instr) : Option Input :=
  match i with
  | .crc16 data => some (.transaction (0x01 :: counted data))
  | .crcAppend frame => some (.transaction (0x02 :: counted frame))
  | .crcCheck frame => some (.transaction (0x03 :: counted frame))
  | .rxByte b now => some (.transaction (0x04 :: b :: bytes64 now))
  | .rxTimeout now => some (.transaction (0x05 :: bytes64 now))
  | .rxPoll now avail => some (.transaction (0x06 :: (bytes64 now ++ counted avail)))
  | .ringLatest => some (.transaction [0x07])
  | .clientInit now => some (.transaction (0x08 :: bytes64 now))
  | .clientPoll now avail => some (.transaction (0x09 :: (bytes64 now ++ counted avail)))
  | .excReport => none
  | .decFrame _ _ => none
  | .unpackBe32 _ => none
  | .ringWrite _ => none
  | .reqRead address reg count crc => some (.request (reqReadBytes address reg count crc))
  | .respExc address function code crc now => some (.arrival (respExcBytes address function code crc) now)
  | .respRead14 address payload crc now => some (.arrival (respRead14Bytes address payload crc) now)
  | .respOther address function byteCount data crc now =>
      some (.arrival (respOtherBytes address function byteCount data crc) now)

/-- `RX.FRAME <bytes> @<t0> +<d>`: one `RX.BYTE` per byte, `d` microseconds apart (30_encoding.md R64). -/
def expandRxFrame (bytes : List Byte) (t0 d : Time) : List Instr :=
  match bytes with
  | [] => []
  | b :: rest => .rxByte b t0 :: expandRxFrame rest (t0 + d) d

/-! ### The opcode table's words -/

/-- Drop from an input the bytes its parser leaves over. -/
def trim (x : Input) : Input :=
  match parseInput x with
  | .error _ => x
  | .ok (_, rest) =>
    match x with
    | .transaction bytes => .transaction (bytes.take (bytes.length - rest.length))
    | .arrival frame now => .arrival (frame.take (frame.length - rest.length)) now
    | .request frame => .request (frame.take (frame.length - rest.length))

/-- The bytes of a word, bit 0 the least significant bit of the first byte. -/
def tableBytes (n w : Nat) : List Byte :=
  match n with
  | 0 => []
  | n + 1 => BitVec.ofNat 8 w :: tableBytes n (w / 256)

/-- The input whose bits are `w`, every further bit 0. A row of 24 bits is a wire frame's first three bytes as one big-endian value
(30_encoding.md R65): function 0x03 with a third byte other than 0x38 is taken as the transmitted `REQ.READ`, anything else as a
received frame (DESIGN CHOICE, log 12). Every other width is a transaction's bytes. -/
def tableInput (nbits w : Nat) : Input :=
  if nbits = 24 then
    let address : Byte := BitVec.ofNat 8 (w / 65536)
    let function : Byte := BitVec.ofNat 8 (w / 256)
    let third : Byte := BitVec.ofNat 8 w
    if function == 0x03 && third != 0x38 then
      trim (.request ([address, function, third] ++ List.replicate 5 0))
    else
      trim (.arrival ([address, function, third] ++ List.replicate 257 0) 0)
  else
    trim (.transaction (tableBytes ((nbits + 7) / 8) w ++ List.replicate 10 0))

/-- What the decoder reads from an instruction whose bits are `w`. -/
def decodeTableWord (nbits w : Nat) : Option Instr :=
  match decode (tableInput nbits w) with
  | .ok i => some i
  | .error _ => none

end Sys2Proof
end

