-- ==== Sys2Proof/Machine/State.lean ====
section
/-! DEFINITION. The state of CORE and of the environment the spec gives it, as plain data (10_state.md R10 to R29), with its value
after reset, and the reasons a step could stop. -/

namespace Sys2Proof.Machine

/-- The five receiver states, in the spec's order (10_state.md R10). -/
inductive RxState where
  | waitSof
  | waitFunction
  | waitDataSize
  | waitData
  | waitCrc
deriving DecidableEq, Repr

/-- Result tags with their info (30_encoding.md R58). -/
inductive Tag where
  /-- `RES_NONE` -/
  | none
  /-- `RES_FRAME_DECODED(index)` -/
  | frameDecoded (index : Word32)
  /-- `RES_FRAME_IGNORED` -/
  | frameIgnored
  /-- `RES_EXCEPTION(addr, code)` -/
  | exception (addr code : Byte)
  /-- `RES_CRC_ERROR` -/
  | crcError
  /-- `RES_TIMEOUT` -/
  | timeout
  /-- `RES_STALL` -/
  | stall
  /-- `RES_REFUSED` -/
  | refused
deriving DecidableEq, Repr

/-- Log records (60_exceptions.md R137). -/
inductive LogRecord where
  /-- `LOG_CRC_MISMATCH` -/
  | crcMismatch
  /-- `LOG_EXCEPTION(addr, code)` -/
  | exception (addr code : Byte)
deriving DecidableEq, Repr

/-- The result of an operation (30_encoding.md R57, last column). -/
inductive Result where
  /-- `CRC16`: `crc[15:0]`. -/
  | crc (value : Half)
  /-- `CRC.APPEND`: the frame with its last two bytes replaced. -/
  | frame (bytes : List Byte)
  /-- `CRC.CHECK`: the bit `match`. -/
  | matched (bit : Bool)
  /-- `RX.BYTE`, `RX.TIMEOUT`, `EXC.REPORT`, `DEC.FRAME` and every refused transaction: one tag. -/
  | tag (t : Tag)
  /-- `RX.POLL`: bytes consumed, and the tags other than `RES_NONE` in order. -/
  | poll (consumed : Nat) (events : List Tag)
  /-- `RING.LATEST`: one Power Record. -/
  | record (rec : PowerRecord)
  /-- `CLIENT.INIT`: the bytes transmitted. -/
  | sent (bytes : List Byte)
  /-- `CLIENT.POLL`: the bytes transmitted (8 or none), then the result of `RX.POLL`. -/
  | clientPoll (sent : List Byte) (consumed : Nat) (events : List Tag)
  /-- `UNPACK.BE32`: 32 bits. -/
  | word (value : Word32)
deriving DecidableEq, Repr

/-- A byte memory: (address, byte) pairs, addresses rising, no entry equal to what an unlisted address reads as. -/
abbrev Memory := List Host.Cell

/-- The ring: (slot, record) pairs in the same canonical form. -/
abbrev Ring := List (Nat × PowerRecord)

/-- All the state (INVENTORY.md, "State"). -/
structure State where
  /-- `rx_state`, 10_state.md R10 -/
  rxState : RxState
  /-- `rx_len`, 10_state.md R11 -/
  rxLen : Len
  /-- `rx_expected`, 10_state.md R12 -/
  rxExpected : Len
  /-- `rx_start_ts`, 10_state.md R13 -/
  rxStartTs : Time
  /-- `buf[0 .. FRAME_MAX-1]`, 10_state.md R14 -/
  buf : Memory
  /-- `wc`, 10_state.md R16 -/
  wc : Word32
  /-- `ring[0 .. RING_N-1]`, 10_state.md R17 -/
  ring : Ring
  /-- `last_send_ts` (environment), 10_state.md R22 -/
  lastSendTs : Time
  /-- bytes the serial hardware holds, oldest first (environment), 10_state.md R27 (a) -/
  upstream : List Byte
  /-- the log, oldest first (environment), 10_state.md R27 (b) -/
  log : List LogRecord
  /-- the serial byte output, oldest first, 30_encoding.md R56 -/
  tx : List Byte
  /-- the result interface: every result so far, oldest first, 30_encoding.md R56 -/
  results : List Result
  /-- the inputs waiting, in the order they are taken, 30_encoding.md R54 -/
  pending : List Input
deriving DecidableEq, Repr

/-- Why the machine stops with a fault: there is no such reason. 60_exceptions.md R135: "No operation of CORE faults, halts or
leaves CORE in a state from which the next operation is not defined". Every abnormal event is a result tag of a next state. -/
inductive Fault where
deriving DecidableEq, Repr

/-- Why an instruction has no meaning. -/
inductive Refusal where
  /-- Raised by an arm of `exec` whose instruction has no meaning yet; safe: the machine stops where the hardware goes on.
  No arm raises it. -/
  | notModelled (mnemonic : String)
deriving DecidableEq, Repr

/-- 10_state.md R18: the all-zero record a slot holds before its first write (R17: "zero-initialized"). -/
def zeroRecord : PowerRecord where
  index := 0
  timestampUs := 0
  voltageMv := 0
  frequency := 0
  ch0 := { currentMa := 0, puissanceActiveMw := 0, energyWh := 0, powerFactor := 0 }
  ch1 := { currentMa := 0, puissanceActiveMw := 0, energyWh := 0, powerFactor := 0 }

/-- What a byte of `buf` that nothing has written reads as. The spec leaves it unspecified (10_state.md R14, U6):
DESIGN CHOICE 0, unsafe (log 9). -/
def unwrittenByte : Byte := 0

/-- The state after reset (10_state.md R29, 70_reset_and_hazards.md R156). `rxExpected` and `rxStartTs` are unspecified there:
DESIGN CHOICE 0, unsafe (log 8). Nothing is pending, held upstream, transmitted or answered yet (log 1, 3, 7). -/
def State.reset : State where
  rxState := .waitSof
  rxLen := 0
  rxExpected := 0
  rxStartTs := 0
  buf := []
  wc := 0
  ring := []
  lastSendTs := 0
  upstream := []
  log := []
  tx := []
  results := []
  pending := []

end Sys2Proof.Machine
end

