-- ==== Sys2Proof/Machine/Ops.lean ====
section
/-! DEFINITION. The named operations over the two stores and the registers: every read and write goes through these. -/

namespace Sys2Proof.Machine

/-! ### The generic store: (key, value) pairs, keys rising, no value equal to the default -/

/-- The value at key `a`, the default `d` where nothing is listed. -/
def Cells.read {α : Type} (d : α) (m : List (Nat × α)) (a : Nat) : α :=
  match m with
  | [] => d
  | (k, v) :: rest => if a = k then v else Cells.read d rest a

/-- Put `v` at the front of `m`, unless it is the default. -/
def Cells.put {α : Type} [DecidableEq α] (d : α) (a : Nat) (v : α) (m : List (Nat × α)) : List (Nat × α) :=
  if v = d then m else (a, v) :: m

/-- Write `v` at key `a`, keeping the canonical form. -/
def Cells.write {α : Type} [DecidableEq α] (d : α) (m : List (Nat × α)) (a : Nat) (v : α) : List (Nat × α) :=
  match m with
  | [] => Cells.put d a v []
  | (k, w) :: rest =>
    if a < k then Cells.put d a v ((k, w) :: rest)
    else if a = k then Cells.put d a v rest
    else (k, w) :: Cells.write d rest a v

/-- The canonical form: keys strictly rising, no value equal to the default. -/
def Cells.wf {α : Type} [DecidableEq α] (d : α) (m : List (Nat × α)) : Bool :=
  match m with
  | [] => true
  | (k, v) :: rest => decide (v ≠ d) && rest.all (fun c => decide (k < c.1)) && Cells.wf d rest

/-- Every key is below `n`. -/
def Cells.below {α : Type} (n : Nat) (m : List (Nat × α)) : Bool := m.all (fun c => decide (c.1 < n))

/-! ### The frame buffer (20_memory.md R30: byte offsets) -/

/-- `buf[a]`. -/
def Memory.read (m : Memory) (a : Nat) : Byte := Cells.read unwrittenByte m a

/-- `MemWrite(buf, a, 1, v)` (00_scope.md R8). -/
def Memory.write (m : Memory) (a : Nat) (v : Byte) : Memory := Cells.write unwrittenByte m a v

/-- The frame buffer's canonical form. -/
def Memory.wf (m : Memory) : Bool := Cells.wf unwrittenByte m

/-- `buf[from : from+n]`, the bytes in rising order of offset (00_scope.md R8). -/
def Memory.slice (m : Memory) (start n : Nat) : List Byte :=
  match n with
  | 0 => []
  | n + 1 => Memory.read m start :: Memory.slice m (start + 1) n

/-! ### The ring (20_memory.md R30: slot numbers) -/

/-- `ring[slot]`. -/
def Ring.read (r : Ring) (slot : Nat) : PowerRecord := Cells.read zeroRecord r slot

/-- `ring[slot] <- rec`, every field replaced (43_ring_buffer.md R116). -/
def Ring.write (r : Ring) (slot : Nat) (rec : PowerRecord) : Ring := Cells.write zeroRecord r slot rec

/-- The ring's canonical form. -/
def Ring.wf (r : Ring) : Bool := Cells.wf zeroRecord r

/-! ### Registers -/

/-- `rx_state <- v` -/
def State.setRxState (s : State) (v : RxState) : State := { s with rxState := v }
/-- `rx_len <- v` -/
def State.setRxLen (s : State) (v : Len) : State := { s with rxLen := v }
/-- `rx_expected <- v` -/
def State.setRxExpected (s : State) (v : Len) : State := { s with rxExpected := v }
/-- `rx_start_ts <- v` -/
def State.setRxStartTs (s : State) (v : Time) : State := { s with rxStartTs := v }
/-- `buf <- v` -/
def State.setBuf (s : State) (v : Memory) : State := { s with buf := v }
/-- `wc <- v` -/
def State.setWc (s : State) (v : Word32) : State := { s with wc := v }
/-- `ring <- v` -/
def State.setRing (s : State) (v : Ring) : State := { s with ring := v }
/-- `last_send_ts <- v` -/
def State.setLastSendTs (s : State) (v : Time) : State := { s with lastSendTs := v }
/-- The serial hardware's buffer becomes `v`. -/
def State.setUpstream (s : State) (v : List Byte) : State := { s with upstream := v }
/-- The inputs waiting become `v`. -/
def State.setPending (s : State) (v : List Input) : State := { s with pending := v }

/-- `log <RECORD>(info)`: append to the log output (00_scope.md R8, 60_exceptions.md R137). -/
def State.appendLog (s : State) (r : LogRecord) : State := { s with log := s.log ++ [r] }
/-- Transmit bytes on the serial output (30_encoding.md R56; the duration is not modelled, 44_session_driver.md R128). -/
def State.transmit (s : State) (bytes : List Byte) : State := { s with tx := s.tx ++ bytes }
/-- Answer a result on the result interface (30_encoding.md R56, R58). -/
def State.answer (s : State) (r : Result) : State := { s with results := s.results ++ [r] }

/-! ### Taking an abnormal event, and ending any frame -/

/-- "reset frame length to zero and return to `WAIT_SOF`" (41_frame_receiver.md R86, R88). This is all that taking an abnormal event
does to the state (60_exceptions.md R136, R138: no saved state, no mode, no vector), and all that returning from one needs (R139: after
any event the receiver is in `WAIT_SOF`); a completed frame ends the same way. -/
def State.endFrame (s : State) : State := (s.setRxLen 0).setRxState .waitSof

/-! ### The serial hardware's buffer as `RX.BYTE` uses it (log 7) -/

/-- The buffer when byte `b` is offered: `b` is its head, or has just arrived. -/
def offered (b : Byte) (u : List Byte) : List Byte := if u.head? = some b then u else u ++ [b]

/-- The buffer after the offered byte `b` is consumed. -/
def afterConsumed (b : Byte) (u : List Byte) : List Byte := if u.head? = some b then u.tail else u

/-! ### Numeric codes (30_encoding.md R58, 10_state.md R10) -/

/-- The 3-bit code of a result tag (30_encoding.md R58). -/
def Tag.code (t : Tag) : BitVec 3 :=
  match t with
  | .none => 0
  | .frameDecoded _ => 1
  | .frameIgnored => 2
  | .exception _ _ => 3
  | .crcError => 4
  | .timeout => 5
  | .stall => 6
  | .refused => 7

/-- The 3-bit code of a receiver state; 5, 6, 7 are no state (10_state.md R10). -/
def RxState.code (r : RxState) : BitVec 3 :=
  match r with
  | .waitSof => 0
  | .waitFunction => 1
  | .waitDataSize => 2
  | .waitData => 3
  | .waitCrc => 4

end Sys2Proof.Machine
end

