-- ==== Sys2Proof/Machine/Crc.lean ====
section
/-! DEFINITION. The CRC16 Engine (40_crc16.md): tables, step, function, its two uses, and the meanings of `CRC16`, `CRC.APPEND`,
`CRC.CHECK`. -/

namespace Sys2Proof.Machine

/-- One repetition of the generating rule: shift right, xor the polynomial when the bit shifted out was 1 (40_crc16.md R71). -/
def t16Shift (poly r : Half) : Half := if r.getLsbD 0 then (r >>> 1) ^^^ poly else r >>> 1

/-- `n` repetitions. -/
def t16Shifts (poly : Half) (n : Nat) (r : Half) : Half :=
  match n with
  | 0 => r
  | n + 1 => t16Shifts poly n (t16Shift poly r)

/-- `T16(i)`: eight repetitions from `r = i` (40_crc16.md R71). -/
def t16 (c : Config) (i : Byte) : Half := t16Shifts c.crcPoly 8 (i.zeroExtend 16)

/-- `TABLE_HI[i] = T16(i)[7:0]` (40_crc16.md R71; a constant, 10_state.md R21). -/
def tableHi (c : Config) (i : Byte) : Byte := (t16 c i).extractLsb' 0 8

/-- `TABLE_LO[i] = T16(i)[15:8]` (40_crc16.md R71; a constant, 10_state.md R21). -/
def tableLo (c : Config) (i : Byte) : Byte := (t16 c i).extractLsb' 8 8

/-- `crc_step`: one input byte takes `(crc_hi, crc_lo)` to the next pair (40_crc16.md R72). -/
def crcStep (c : Config) (p : Byte × Byte) (b : Byte) : Byte × Byte :=
  let idx := p.1 ^^^ b
  (p.2 ^^^ tableHi c idx, tableLo c idx)

/-- The pair after the bytes of `data` in order, from the seeds (40_crc16.md R73). -/
def crcPair (c : Config) (data : List Byte) : Byte × Byte := data.foldl (crcStep c) (hi c.crcInit, lo c.crcInit)

/-- `crc16(data) = (final_high << 8) | final_low` (40_crc16.md R73). -/
def crc16 (c : Config) (data : List Byte) : Half := be16 (crcPair c data).1 (crcPair c data).2

/-- The frame with its last two bytes replaced by the CRC of the bytes before them (40_crc16.md R76). -/
def crcAppend (c : Config) (frame : List Byte) : List Byte :=
  let body := frame.take (frame.length - 2)
  body ++ bytes16 (crc16 c body)

/-- The received CRC: the last two bytes, "high byte then low byte" (40_crc16.md R77). -/
def receivedCrc (frame : List Byte) : Half :=
  be16 (frame.getD (frame.length - 2) 0) (frame.getD (frame.length - 1) 0)

/-- `match = (computed = received)` (40_crc16.md R77). The receiver performs exactly this check (R86). Only a frame of fewer than two
bytes, which no reachable state presents, makes the subtractions stop at 0 (log 16). -/
def crcMatches (c : Config) (frame : List Byte) : Bool :=
  crc16 c (frame.take (frame.length - 2)) == receivedCrc frame

/-- `CRC16` on the configuration `c` (40_crc16.md R73). State written: none. -/
def crc16On (c : Config) (data : List Byte) (s : State) : Host.Outcome State Fault Refusal :=
  .next (s.answer (.crc (crc16 c data)))

/-- `CRC16`. -/
def execCrc16 (data : List Byte) (s : State) : Host.Outcome State Fault Refusal := crc16On Config.core data s

/-- `CRC.APPEND` on the configuration `c` (40_crc16.md R76). State written: none; fewer than two bytes answer `RES_REFUSED`. -/
def crcAppendOn (c : Config) (frame : List Byte) (s : State) : Host.Outcome State Fault Refusal :=
  if frame.length < 2 then .next (s.answer (.tag .refused))
  else .next (s.answer (.frame (crcAppend c frame)))

/-- `CRC.APPEND`. -/
def execCrcAppend (frame : List Byte) (s : State) : Host.Outcome State Fault Refusal := crcAppendOn Config.core frame s

/-- `CRC.CHECK` on the configuration `c` (40_crc16.md R77). State written: none; fewer than two bytes answer `RES_REFUSED`. -/
def crcCheckOn (c : Config) (frame : List Byte) (s : State) : Host.Outcome State Fault Refusal :=
  if frame.length < 2 then .next (s.answer (.tag .refused))
  else .next (s.answer (.matched (crcMatches c frame)))

/-- `CRC.CHECK`. -/
def execCrcCheck (frame : List Byte) (s : State) : Host.Outcome State Fault Refusal := crcCheckOn Config.core frame s

end Sys2Proof.Machine
end

