-- ==== Sys2Proof/Machine/Ring.lean ====
section
/-! DEFINITION. The Measurement Ring Buffer (43_ring_buffer.md): the write of the decoder, the read of the latest record, and the
meanings of `RING.WRITE`, `RING.LATEST`. -/

namespace Sys2Proof.Machine

/-- The slot the next write goes to: `wc mod RING_N` (43_ring_buffer.md R116). -/
def writeSlot (c : Config) (wc : Word32) : Nat := wc.toNat % c.ringN

/-- The slot of the latest record: `((wc - 1) mod 2^WC_WIDTH) mod RING_N`, the subtraction in the counter's own arithmetic
(43_ring_buffer.md R117, where WC_WIDTH is 32). -/
def latestSlot (c : Config) (wc : Word32) : Nat := (counterBits c (wc - 1)).toNat % c.ringN

/-- `ring[wc mod RING_N] <- rec ; wc <- (wc + 1) mod 2^WC_WIDTH` (43_ring_buffer.md R116, where WC_WIDTH is 32). -/
def ringWrite (c : Config) (rec : PowerRecord) (s : State) : State :=
  (s.setRing (s.ring.write (writeSlot c s.wc) rec)).setWc (counterBits c (s.wc + 1))

/-- `ring[((wc - 1) mod 2^WC_WIDTH) mod RING_N]` (43_ring_buffer.md R117). -/
def ringLatest (c : Config) (s : State) : PowerRecord := s.ring.read (latestSlot c s.wc)

/-- `RING.WRITE` on the configuration `c`, internal: no result is returned (43_ring_buffer.md R116). -/
def ringWriteOn (c : Config) (rec : PowerRecord) (s : State) : Host.Outcome State Fault Refusal :=
  .next (ringWrite c rec s)

/-- `RING.WRITE`. -/
def execRingWrite (rec : PowerRecord) (s : State) : Host.Outcome State Fault Refusal := ringWriteOn Config.core rec s

/-- `RING.LATEST` on the configuration `c` (43_ring_buffer.md R117). State written: none. -/
def ringLatestOn (c : Config) (s : State) : Host.Outcome State Fault Refusal :=
  .next (s.answer (.record (ringLatest c s)))

/-- `RING.LATEST`. -/
def execRingLatest (s : State) : Host.Outcome State Fault Refusal := ringLatestOn Config.core s

end Sys2Proof.Machine
end

