-- ==== Sys2Proof/Machine/Decoder.lean ====
section
/-! DEFINITION. The Register Decoder and its big-endian unpacker (42_register_decoder.md), and the meanings of `UNPACK.BE32`,
`DEC.FRAME`. -/

namespace Sys2Proof.Machine

/-- `BE32(buf, off) = MemRead(buf, off, 4)` (42_register_decoder.md R100). -/
def unpackBe32 (buf : Memory) (off : Nat) : Word32 :=
  be32 (buf.read off) (buf.read (off + 1)) (buf.read (off + 2)) (buf.read (off + 3))

/-- One channel's four fields (42_register_decoder.md R102, R103), each in FIELD_WIDTH bits. -/
def decodeChannel (c : Config) (buf : Memory) (offI offP offE offPf offSign : Nat) : Channel where
  currentMa := fieldBits c (div10 (unpackBe32 buf offI))
  puissanceActiveMw := fieldBits c (signedPower (unpackBe32 buf offP) (buf.read offSign))
  energyWh := fieldBits c (div10 (unpackBe32 buf offE))
  powerFactor := fieldBits c (unpackBe32 buf offPf)

/-- The record of a decoded frame: index `wc`, timestamp `now` (42_register_decoder.md R102, R104). -/
def decodeRecord (c : Config) (buf : Memory) (wc : Word32) (now : Time) : PowerRecord where
  index := wc
  timestampUs := clockBits c now
  voltageMv := fieldBits c (div10 (unpackBe32 buf c.offVoltage))
  frequency := fieldBits c (mul10 (unpackBe32 buf c.offFreq))
  ch0 := decodeChannel c buf c.offI1 c.offP1 c.offE1 c.offPf1 c.offSign1
  ch1 := decodeChannel c buf c.offI2 c.offP2 c.offE2 c.offPf2 c.offSign2

/-- `DEC.FRAME` on the frame `buf[0:len]` (42_register_decoder.md R102): a frame of another shape is ignored, changing nothing. -/
def decFrame (c : Config) (len : Len) (now : Time) (s : State) : State × Tag :=
  if isDecodable c (s.buf.read 1) len then
    (ringWrite c (decodeRecord c s.buf s.wc now) s, .frameDecoded s.wc)
  else (s, .frameIgnored)

/-- `UNPACK.BE32`, internal (42_register_decoder.md R100). State written: none. -/
def execUnpackBe32 (off : Byte) (s : State) : Host.Outcome State Fault Refusal :=
  .next (s.answer (.word (unpackBe32 s.buf off.toNat)))

/-- `DEC.FRAME` on the configuration `c`, internal (42_register_decoder.md R102). -/
def decFrameOn (c : Config) (len : Len) (now : Time) (s : State) : Host.Outcome State Fault Refusal :=
  .next ((decFrame c len now s).1.answer (.tag (decFrame c len now s).2))

/-- `DEC.FRAME`. -/
def execDecFrame (len : Len) (now : Time) (s : State) : Host.Outcome State Fault Refusal := decFrameOn Config.core len now s

end Sys2Proof.Machine
end

