-- ==== Sys2Proof/Machine/Receiver.lean ====
section
/-! DEFINITION. The Frame Receiver (41_frame_receiver.md): the per-byte step, the exception report, the timeout, the poll, and the
meanings of `RX.BYTE`, `EXC.REPORT`, `RX.TIMEOUT`, `RX.POLL`. -/

namespace Sys2Proof.Machine

/-- `EXC.REPORT`: log and return the address and the exception code (41_frame_receiver.md R87). -/
def excReport (s : State) : State × Tag :=
  (s.appendLog (.exception (s.buf.read 0) (s.buf.read 2)), .exception (s.buf.read 0) (s.buf.read 2))

/-- State `WAIT_SOF`: the first byte of a frame (41_frame_receiver.md R82). -/
def rxWaitSof (c : Config) (now : Time) (s : State) : State × Tag :=
  ((s.setRxStartTs (clockBits c now)).setRxState .waitFunction, .none)

/-- State `WAIT_FUNCTION`: the function code (41_frame_receiver.md R83). -/
def rxWaitFunction (c : Config) (b : Byte) (s : State) : State × Tag :=
  ((s.setRxExpected (if isExc b then c.excLen else c.provLen)).setRxState .waitDataSize, .none)

/-- State `WAIT_DATA_SIZE`: the byte-count, or the exception code of an exception frame (41_frame_receiver.md R84). -/
def rxWaitDataSize (c : Config) (b : Byte) (s : State) : State × Tag :=
  ((if isExc (s.buf.read 1) then s else s.setRxExpected (b.zeroExtend 9 + c.lenOverhead)).setRxState .waitData, .none)

/-- State `WAIT_DATA` (41_frame_receiver.md R85). -/
def rxWaitData (s : State) : State × Tag :=
  (if s.rxExpected - 2 ≤ s.rxLen then s.setRxState .waitCrc else s, .none)

/-- What a completed frame leads to, before the receiver returns to `WAIT_SOF` (41_frame_receiver.md R86; the order of
30_encoding.md R61). -/
def classify (c : Config) (now : Time) (s : State) : State × Tag :=
  if crcMatches c (s.buf.slice 0 s.rxLen.toNat) then
    if isExc (s.buf.read 1) then excReport s else decFrame c s.rxLen now s
  else (s.appendLog .crcMismatch, .crcError)

/-- State `WAIT_CRC` (41_frame_receiver.md R86). -/
def rxWaitCrc (c : Config) (now : Time) (s : State) : State × Tag :=
  if s.rxLen ≠ s.rxExpected then (s, .none)
  else ((classify c now s).1.endFrame, (classify c now s).2)

/-- Store the byte and count it: the part of `RX.BYTE` common to all states, after the guard (41_frame_receiver.md R81). -/
def rxStore (b : Byte) (s : State) : State := (s.setBuf (s.buf.write s.rxLen.toNat b)).setRxLen (s.rxLen + 1)

/-- The receiver's step on one byte: the guard, the store, the state's action on the new length (41_frame_receiver.md R81). -/
def rxStep (c : Config) (b : Byte) (now : Time) (s : State) : State × Tag :=
  if s.rxLen.toNat = c.frameMax then (s, .stall)
  else
    match s.rxState with
    | .waitSof => rxWaitSof c now (rxStore b s)
    | .waitFunction => rxWaitFunction c b (rxStore b s)
    | .waitDataSize => rxWaitDataSize c b (rxStore b s)
    | .waitData => rxWaitData (rxStore b s)
    | .waitCrc => rxWaitCrc c now (rxStore b s)

/-- `RX.BYTE` with the serial hardware's buffer: a consumed byte leaves it, a stalled one stays (41_frame_receiver.md R81; log 7). -/
def rxByte (c : Config) (b : Byte) (now : Time) (s : State) : State × Tag :=
  let r := rxStep c b now s
  (r.1.setUpstream (if r.2 = .stall then offered b s.upstream else afterConsumed b s.upstream), r.2)

/-- `RX.TIMEOUT` (41_frame_receiver.md R88). -/
def rxTimeout (c : Config) (now : Time) (s : State) : State × Tag :=
  if s.rxState ≠ .waitSof ∧ timedOut c now s.rxStartTs = true then (s.endFrame, .timeout) else (s, .none)

/-- The tags a poll reports: every one but `RES_NONE` (41_frame_receiver.md R89). -/
def event (t : Tag) : List Tag := if t = .none then [] else [t]

/-- What draining bytes comes to. -/
structure Drained where
  state : State
  consumed : Nat
  events : List Tag
deriving DecidableEq, Repr

/-- The loop of `RX.POLL` over the bytes available: it breaks on a stall (the byte not consumed) and after a CRC mismatch (the byte
consumed) (41_frame_receiver.md R89). -/
def drain (c : Config) (now : Time) (avail : List Byte) (s : State) : Drained :=
  match avail with
  | [] => { state := s, consumed := 0, events := [] }
  | b :: rest =>
    let r := rxStep c b now s
    if r.2 = .stall then { state := r.1, consumed := 0, events := [] }
    else if r.2 = .crcError then { state := r.1, consumed := 1, events := [.crcError] }
    else
      let d := drain c now rest r.1
      { state := d.state, consumed := d.consumed + 1, events := event r.2 ++ d.events }

/-- `RX.POLL`: the timeout check, then the drain; the bytes not consumed stay upstream (41_frame_receiver.md R89). -/
def rxPoll (c : Config) (now : Time) (avail : List Byte) (s : State) : Drained :=
  let t := rxTimeout c now s
  let d := drain c now avail t.1
  { state := d.state.setUpstream (avail.drop d.consumed), consumed := d.consumed, events := event t.2 ++ d.events }

/-- `RX.BYTE` on the configuration `c` (41_frame_receiver.md R81). -/
def rxByteOn (c : Config) (b : Byte) (now : Time) (s : State) : Host.Outcome State Fault Refusal :=
  .next ((rxByte c b now s).1.answer (.tag (rxByte c b now s).2))

/-- `RX.BYTE`. -/
def execRxByte (b : Byte) (now : Time) (s : State) : Host.Outcome State Fault Refusal := rxByteOn Config.core b now s

/-- `EXC.REPORT`, internal (41_frame_receiver.md R87). -/
def execExcReport (s : State) : Host.Outcome State Fault Refusal :=
  .next ((excReport s).1.answer (.tag (excReport s).2))

/-- `RX.TIMEOUT` on the configuration `c` (41_frame_receiver.md R88). -/
def rxTimeoutOn (c : Config) (now : Time) (s : State) : Host.Outcome State Fault Refusal :=
  .next ((rxTimeout c now s).1.answer (.tag (rxTimeout c now s).2))

/-- `RX.TIMEOUT`. -/
def execRxTimeout (now : Time) (s : State) : Host.Outcome State Fault Refusal := rxTimeoutOn Config.core now s

/-- `RX.POLL` on the configuration `c` (41_frame_receiver.md R89). -/
def rxPollOn (c : Config) (now : Time) (avail : List Byte) (s : State) : Host.Outcome State Fault Refusal :=
  let d := rxPoll c now avail s
  .next (d.state.answer (.poll d.consumed d.events))

/-- `RX.POLL`. -/
def execRxPoll (now : Time) (avail : List Byte) (s : State) : Host.Outcome State Fault Refusal :=
  rxPollOn Config.core now avail s

end Sys2Proof.Machine
end

