-- ==== Sys2Proof/Machine/Driver.lean ====
section
/-! DEFINITION. The Client Session Driver (44_session_driver.md), the environment agent that drives CORE, and the meanings of
`CLIENT.INIT`, `CLIENT.POLL`. -/

namespace Sys2Proof.Machine

/-- A request frame as transmitted: `CRC.APPEND` of the frame with placeholder CRC bytes (44_session_driver.md R125). -/
def requestFrame (c : Config) (reg count : Half) : List Byte :=
  crcAppend c (reqReadBytes c.slaveAddr reg count 0)

/-- `REQ_PROBE`: 4 registers at address 0 (44_session_driver.md R125). -/
def probeFrame (c : Config) : List Byte := requestFrame c 0x0000 0x0004

/-- `REQ_PERIODIC`: READ_REGS registers from REQ_START_REG (44_session_driver.md R125). -/
def periodicFrame (c : Config) : List Byte := requestFrame c c.reqStartReg (BitVec.ofNat 16 c.readRegs)

/-- `CLIENT.INIT`: transmit the probe; `last_send_ts` is not written (44_session_driver.md R126). -/
def clientInit (c : Config) (s : State) : State := s.transmit (probeFrame c)

/-- The sending half of `CLIENT.POLL`: when a request is due, transmit it and record the send time (44_session_driver.md R127). -/
def sendIfDue (c : Config) (now : Time) (s : State) : State × List Byte :=
  if requestDue c now s.lastSendTs then ((s.transmit (periodicFrame c)).setLastSendTs (clockBits c now), periodicFrame c) else (s, [])

/-- `CLIENT.INIT` on the configuration `c` (44_session_driver.md R126): the result is the 8 bytes transmitted; the clock reading is
not used. -/
def clientInitOn (c : Config) (_now : Time) (s : State) : Host.Outcome State Fault Refusal :=
  .next ((clientInit c s).answer (.sent (probeFrame c)))

/-- `CLIENT.INIT`. -/
def execClientInit (now : Time) (s : State) : Host.Outcome State Fault Refusal := clientInitOn Config.core now s

/-- `CLIENT.POLL` on the configuration `c` (44_session_driver.md R127). -/
def clientPollOn (c : Config) (now : Time) (avail : List Byte) (s : State) : Host.Outcome State Fault Refusal :=
  let p := sendIfDue c now s
  let d := rxPoll c now avail p.1
  .next (d.state.answer (.clientPoll p.2 d.consumed d.events))

/-- `CLIENT.POLL`. -/
def execClientPoll (now : Time) (avail : List Byte) (s : State) : Host.Outcome State Fault Refusal :=
  clientPollOn Config.core now avail s

end Sys2Proof.Machine
end

