-- ==== Sys2Proof/Machine/Wire.lean ====
section
/-! DEFINITION. The wire frames of 30_encoding.md R50 to R53 as events: a received frame reaches CORE through the serial hardware's
buffer and one poll (log 5); the request frame is transmitted (log 6). Also what an input that is no instruction comes to. -/

namespace Sys2Proof.Machine

/-- Bytes arrive behind those the serial hardware holds, and a poll takes them (10_state.md R27, 41_frame_receiver.md R89,
44_session_driver.md R129; log 5). -/
def receive (c : Config) (frame : List Byte) (now : Time) (s : State) : State :=
  let d := rxPoll c now (s.upstream ++ frame) s
  d.state.answer (.poll d.consumed d.events)

/-- `REQ.READ` on the configuration `c`: the session driver transmits the frame, its placeholder CRC bytes overwritten by the CRC
engine (30_encoding.md R51; log 6). A frame to an address that is not SLAVE_ADDR is transmitted all the same: DESIGN CHOICE (log 18). -/
def reqReadOn (c : Config) (address : Byte) (reg count crc : Half) (s : State) : Host.Outcome State Fault Refusal :=
  .next (s.transmit (crcAppend c (reqReadBytes address reg count crc)))

/-- `REQ.READ`. -/
def execReqRead (address : Byte) (reg count crc : Half) (s : State) : Host.Outcome State Fault Refusal :=
  reqReadOn Config.core address reg count crc s

/-- `RESP.EXC` is received on the configuration `c` (30_encoding.md R53). -/
def respExcOn (c : Config) (address function code : Byte) (crc : Half) (now : Time) (s : State) :
    Host.Outcome State Fault Refusal :=
  .next (receive c (respExcBytes address function code crc) now s)

/-- `RESP.EXC`. -/
def execRespExc (address function code : Byte) (crc : Half) (now : Time) (s : State) : Host.Outcome State Fault Refusal :=
  respExcOn Config.core address function code crc now s

/-- `RESP.READ14` is received on the configuration `c` (42_register_decoder.md R101). -/
def respRead14On (c : Config) (address : Byte) (payload : Read14) (crc : Half) (now : Time) (s : State) :
    Host.Outcome State Fault Refusal :=
  .next (receive c (respRead14Bytes address payload crc) now s)

/-- `RESP.READ14`. -/
def execRespRead14 (address : Byte) (payload : Read14) (crc : Half) (now : Time) (s : State) :
    Host.Outcome State Fault Refusal :=
  respRead14On Config.core address payload crc now s

/-- `RESP.OTHER` is received on the configuration `c` (30_encoding.md R52). -/
def respOtherOn (c : Config) (address function byteCount : Byte) (data : List Byte) (crc : Half) (now : Time) (s : State) :
    Host.Outcome State Fault Refusal :=
  .next (receive c (respOtherBytes address function byteCount data crc) now s)

/-- `RESP.OTHER`. -/
def execRespOther (address function byteCount : Byte) (data : List Byte) (crc : Half) (now : Time) (s : State) :
    Host.Outcome State Fault Refusal :=
  respOtherOn Config.core address function byteCount data crc now s

/-- An input the decoder rejects, on the configuration `c`. A transaction with a reserved code or a malformed operand answers
`RES_REFUSED` and changes no state (30_encoding.md R58, R62). Bytes on the line that are no whole frame are received all the same,
"an untrusted, byte-at-a-time serial stream" (30_encoding.md R59). A request that is no request frame is refused like a transaction
(log 13). -/
def undecodedOn (c : Config) (x : Input) (s : State) : Host.Outcome State Fault Refusal :=
  match x with
  | .transaction _ => .next (s.answer (.tag .refused))
  | .arrival frame now => .next (receive c frame now s)
  | .request _ => .next (s.answer (.tag .refused))

/-- An input the decoder rejects. -/
def undecoded (x : Input) (s : State) : Host.Outcome State Fault Refusal := undecodedOn Config.core x s

end Sys2Proof.Machine
end

