-- ==== Sys2Proof/Machine/Dispatch.lean ====
section
/-! DEFINITION. One arm per constructor of Instr. -/

namespace Sys2Proof.Machine

def exec (i : Instr) (s : State) : Host.Outcome State Fault Refusal :=
  match i with
  | .crc16 data => Sys2Proof.Machine.execCrc16 data s
  | .crcAppend frame => Sys2Proof.Machine.execCrcAppend frame s
  | .crcCheck frame => Sys2Proof.Machine.execCrcCheck frame s
  | .rxByte b now => Sys2Proof.Machine.execRxByte b now s
  | .rxTimeout now => Sys2Proof.Machine.execRxTimeout now s
  | .rxPoll now avail => Sys2Proof.Machine.execRxPoll now avail s
  | .ringLatest => Sys2Proof.Machine.execRingLatest s
  | .clientInit now => Sys2Proof.Machine.execClientInit now s
  | .clientPoll now avail => Sys2Proof.Machine.execClientPoll now avail s
  | .excReport => Sys2Proof.Machine.execExcReport s
  | .decFrame len now => Sys2Proof.Machine.execDecFrame len now s
  | .unpackBe32 off => Sys2Proof.Machine.execUnpackBe32 off s
  | .ringWrite rec => Sys2Proof.Machine.execRingWrite rec s
  | .reqRead address reg count crc => Sys2Proof.Machine.execReqRead address reg count crc s
  | .respExc address function code crc now => Sys2Proof.Machine.execRespExc address function code crc now s
  | .respRead14 address payload crc now => Sys2Proof.Machine.execRespRead14 address payload crc now s
  | .respOther address function byteCount data crc now => Sys2Proof.Machine.execRespOther address function byteCount data crc now s

end Sys2Proof.Machine
end

