-- ==== Sys2Proof/Machine/Step.lean ====
section
/-! DEFINITION. One step: the next input is taken whole and its operation runs, one at a time, in order (30_encoding.md R54,
60_exceptions.md R146). -/

namespace Sys2Proof.Machine

/-- Take the next input, decode it, run it. With nothing waiting CORE does nothing (70_reset_and_hazards.md R160; log 2). -/
def step (s : State) : Host.Outcome State Fault Refusal :=
  match s.pending with
  | [] => .next s
  | x :: rest =>
    match decode x with
    | .ok i => exec i (s.setPending rest)
    | .error _ => undecoded x (s.setPending rest)

/-- `s` with the instruction whose bits are `w` at the head of the inputs waiting (log 1). -/
def State.withFetchWord (s : State) (nbits w : Nat) : State := s.setPending (tableInput nbits w :: s.pending)

end Sys2Proof.Machine
end

