-- ==== Sys2Proof/Machine/Configured.lean ====
section
/-! DEFINITION. The same machine on any configuration: 00_scope.md R7 makes every parameter "a field of its configuration". `exec` and
`step`, whose types the host fixes, are these at `Config.core` (Laws/Configured.lean). -/

namespace Sys2Proof.Machine

/-- The meaning of an instruction on the configuration `c`. -/
def execOn (c : Config) (i : Instr) (s : State) : Host.Outcome State Fault Refusal :=
  match i with
  | .crc16 data => crc16On c data s
  | .crcAppend frame => crcAppendOn c frame s
  | .crcCheck frame => crcCheckOn c frame s
  | .rxByte b now => rxByteOn c b now s
  | .rxTimeout now => rxTimeoutOn c now s
  | .rxPoll now avail => rxPollOn c now avail s
  | .ringLatest => ringLatestOn c s
  | .clientInit now => clientInitOn c now s
  | .clientPoll now avail => clientPollOn c now avail s
  | .excReport => execExcReport s
  | .decFrame len now => decFrameOn c len now s
  | .unpackBe32 off => execUnpackBe32 off s
  | .ringWrite rec => ringWriteOn c rec s
  | .reqRead address reg count crc => reqReadOn c address reg count crc s
  | .respExc address function code crc now => respExcOn c address function code crc now s
  | .respRead14 address payload crc now => respRead14On c address payload crc now s
  | .respOther address function byteCount data crc now => respOtherOn c address function byteCount data crc now s

/-- One step on the configuration `c`: what `step` does, with `c` in place of `Config.core`. -/
def stepOn (c : Config) (s : State) : Host.Outcome State Fault Refusal :=
  match s.pending with
  | [] => .next s
  | x :: rest =>
    match decode x with
    | .ok i => execOn c i (s.setPending rest)
    | .error _ => undecodedOn c x (s.setPending rest)

end Sys2Proof.Machine
end

