-- ==== Sys2Proof/Safety.lean ====
section
/-! DEFINITION. The terms claims are stated in: the invariant of the machine, what of the state is live, the conventional CRC, the
listed tables, and running several operations. -/

namespace Sys2Proof.Machine

/-- The invariants of 10_state.md R28, clause by clause, and four clauses that follow from the rules they are derived from and
make the whole inductive (DEDUCED, log 17): in `WAIT_DATA_SIZE` the expected length is the one R83 set for the function byte stored; in
`WAIT_DATA` and `WAIT_CRC` it is the one R83 and R84 set for the bytes stored; the two stores are canonical and in range (R35). -/
structure Inv (c : Config) (s : State) : Prop where
  /-- `rx_state = WAIT_SOF` if and only if `rx_len = 0`. -/
  sof : s.rxState = .waitSof ↔ s.rxLen = 0
  /-- `rx_state = WAIT_FUNCTION` implies `rx_len = 1`. -/
  function : s.rxState = .waitFunction → s.rxLen = 1
  /-- `rx_state = WAIT_DATA_SIZE` implies `rx_len = 2` and `rx_expected` is `PROV_LEN` or `EXC_LEN`. -/
  dataSize : s.rxState = .waitDataSize → s.rxLen = 2 ∧ (s.rxExpected = c.provLen ∨ s.rxExpected = c.excLen)
  /-- which of the two, from the function byte stored (41_frame_receiver.md R83) -/
  dataSizeWhich : s.rxState = .waitDataSize → s.rxExpected = if isExc (s.buf.read 1) then c.excLen else c.provLen
  /-- `rx_state = WAIT_DATA` implies `rx_expected >= 5`, `rx_len = 3` or `3 < rx_len < rx_expected - 2`, `rx_len <= FRAME_MAX`. -/
  data : s.rxState = .waitData → 5 ≤ s.rxExpected.toNat ∧
    (s.rxLen.toNat = 3 ∨ (3 < s.rxLen.toNat ∧ s.rxLen.toNat < s.rxExpected.toNat - 2)) ∧ s.rxLen.toNat ≤ c.frameMax
  /-- `rx_state = WAIT_CRC` implies `max(4, rx_expected - 2) <= rx_len <= min(rx_expected - 1, FRAME_MAX)`. -/
  crc : s.rxState = .waitCrc → max 4 (s.rxExpected.toNat - 2) ≤ s.rxLen.toNat ∧
    s.rxLen.toNat ≤ min (s.rxExpected.toNat - 1) c.frameMax
  /-- the expected length the bytes stored announce (41_frame_receiver.md R83, R84) -/
  announced : s.rxState = .waitData ∨ s.rxState = .waitCrc →
    s.rxExpected = if isExc (s.buf.read 1) then c.excLen else (s.buf.read 2).zeroExtend 9 + c.lenOverhead
  /-- `0 <= rx_len <= FRAME_MAX` always. -/
  lenLe : s.rxLen.toNat ≤ c.frameMax
  /-- `rx_len = FRAME_MAX` implies `rx_state` is `WAIT_DATA` or `WAIT_CRC` and `rx_expected > FRAME_MAX`. -/
  full : s.rxLen.toNat = c.frameMax →
    (s.rxState = .waitData ∨ s.rxState = .waitCrc) ∧ c.frameMax < s.rxExpected.toNat
  /-- Every slot is all zero or holds a record whose own index selects it. -/
  slots : ∀ slot, slot < c.ringN →
    s.ring.read slot = zeroRecord ∨ (s.ring.read slot).index.toNat % c.ringN = slot
  /-- the frame buffer is canonical and within `0 .. FRAME_MAX-1` (20_memory.md R35) -/
  bufOk : s.buf.wf = true ∧ Cells.below c.frameMax s.buf = true
  /-- the ring is canonical and within `0 .. RING_N-1` (20_memory.md R35) -/
  ringOk : s.ring.wf = true ∧ Cells.below c.ringN s.ring = true

/-- Two states that differ at most in what 70_reset_and_hazards.md R171 calls stale: bytes of `buf` at offsets from `rx_len` up,
`rx_expected` before `WAIT_FUNCTION` writes it, `rx_start_ts` in `WAIT_SOF`. -/
structure SameLive (s t : State) : Prop where
  rxState : s.rxState = t.rxState
  rxLen : s.rxLen = t.rxLen
  rxExpected : s.rxState ≠ .waitSof → s.rxState ≠ .waitFunction → s.rxExpected = t.rxExpected
  rxStartTs : s.rxState ≠ .waitSof → s.rxStartTs = t.rxStartTs
  buf : ∀ a, a < s.rxLen.toNat → s.buf.read a = t.buf.read a
  wc : s.wc = t.wc
  ring : s.ring = t.ring
  lastSendTs : s.lastSendTs = t.lastSendTs
  upstream : s.upstream = t.upstream
  log : s.log = t.log
  tx : s.tx = t.tx
  results : s.results = t.results
  pending : s.pending = t.pending

/-- Run instructions one after another; none for a fault or a refusal. -/
def execAll (is : List Instr) (s : State) : Option State :=
  match is with
  | [] => some s
  | i :: rest =>
    match exec i s with
    | .next t => execAll rest t
    | .fault _ => none
    | .refused _ => none

/-- How many frames a result reports as decoded. -/
def decodedIn (r : Result) : Nat :=
  let isDecoded : Tag → Bool := fun t => match t with
    | .frameDecoded _ => true
    | _ => false
  match r with
  | .tag t => if isDecoded t then 1 else 0
  | .poll _ events => events.countP isDecoded
  | .clientPoll _ _ events => events.countP isDecoded
  | _ => 0

/-- One byte of the conventional CRC-16/MODBUS register: xor into the low 8 bits, then eight shifts right by one, each xoring
0xA001 when the bit shifted out was 1 (40_crc16.md R75). -/
def stdStep (r : Half) (b : Byte) : Half := t16Shifts 0xA001 8 (r ^^^ b.zeroExtend 16)

/-- `std(data)`, the conventional CRC-16/MODBUS value, from 0xFFFF (40_crc16.md R75). -/
def stdCrc (data : List Byte) : Half := data.foldl stdStep 0xFFFF

/-- The record a decoded response leads to, from the fields of its payload (42_register_decoder.md R101 to R104). -/
def recordOf (p : Read14) (wc : Word32) (now : Time) : PowerRecord where
  index := wc
  timestampUs := now
  voltageMv := p.voltage / 10
  frequency := p.frequency * 10
  ch0 :=
    { currentMa := p.current1 / 10
      puissanceActiveMw := if p.sign1 = 0 then p.power1 / 10 else -(p.power1 / 10)
      energyWh := p.energy1 / 10
      powerFactor := p.powerFactor1 }
  ch1 :=
    { currentMa := p.current2 / 10
      puissanceActiveMw := if p.sign2 = 0 then p.power2 / 10 else -(p.power2 / 10)
      energyWh := p.energy2 / 10
      powerFactor := p.powerFactor2 }

/-- The 4-byte big-endian value at `off`, as a number: the byte at the lower offset weighs more (20_memory.md R31, R60). -/
def wordAt (m : Memory) (off : Nat) : Word32 :=
  BitVec.ofNat 32 ((m.read off).toNat * 16777216 + (m.read (off + 1)).toNat * 65536 + (m.read (off + 2)).toNat * 256 +
    (m.read (off + 3)).toNat)

/-- The payload of the decoded shape in the frame buffer, at the offsets of 42_register_decoder.md R101. -/
def payloadAt (m : Memory) : Read14 where
  voltage := wordAt m 3
  current1 := wordAt m 7
  power1 := wordAt m 11
  energy1 := wordAt m 15
  powerFactor1 := wordAt m 19
  ignored23 := wordAt m 23
  sign1 := m.read 27
  sign2 := m.read 28
  ignored29 := be16 (m.read 29) (m.read 30)
  frequency := wordAt m 31
  ignored35 := wordAt m 35
  current2 := wordAt m 39
  power2 := wordAt m 43
  energy2 := wordAt m 47
  powerFactor2 := wordAt m 51
  ignored55 := wordAt m 55

/-- The trailing two bytes of the frame `m[0:n]` equal the CRC of the bytes before them (41_frame_receiver.md R86, R92). -/
def trailingCrcOk (c : Config) (m : Memory) (n : Nat) : Prop :=
  crc16 c (m.slice 0 (n - 2)) = be16 (m.read (n - 2)) (m.read (n - 1))

/-- The same of a frame given as a list of bytes. -/
def frameCrcOk (c : Config) (frame : List Byte) : Prop :=
  crc16 c (frame.take (frame.length - 2)) =
    be16 (frame.getD (frame.length - 2) 0) (frame.getD (frame.length - 1) 0)

/-- The listing of `TABLE_HI` in 40_crc16.md R71, sixteen entries a row. -/
def listedTableHi : List Byte :=
  [0x00, 0xC1, 0x81, 0x40, 0x01, 0xC0, 0x80, 0x41, 0x01, 0xC0, 0x80, 0x41, 0x00, 0xC1, 0x81, 0x40] ++
  [0x01, 0xC0, 0x80, 0x41, 0x00, 0xC1, 0x81, 0x40, 0x00, 0xC1, 0x81, 0x40, 0x01, 0xC0, 0x80, 0x41] ++
  [0x01, 0xC0, 0x80, 0x41, 0x00, 0xC1, 0x81, 0x40, 0x00, 0xC1, 0x81, 0x40, 0x01, 0xC0, 0x80, 0x41] ++
  [0x00, 0xC1, 0x81, 0x40, 0x01, 0xC0, 0x80, 0x41, 0x01, 0xC0, 0x80, 0x41, 0x00, 0xC1, 0x81, 0x40] ++
  [0x01, 0xC0, 0x80, 0x41, 0x00, 0xC1, 0x81, 0x40, 0x00, 0xC1, 0x81, 0x40, 0x01, 0xC0, 0x80, 0x41] ++
  [0x00, 0xC1, 0x81, 0x40, 0x01, 0xC0, 0x80, 0x41, 0x01, 0xC0, 0x80, 0x41, 0x00, 0xC1, 0x81, 0x40] ++
  [0x00, 0xC1, 0x81, 0x40, 0x01, 0xC0, 0x80, 0x41, 0x01, 0xC0, 0x80, 0x41, 0x00, 0xC1, 0x81, 0x40] ++
  [0x01, 0xC0, 0x80, 0x41, 0x00, 0xC1, 0x81, 0x40, 0x00, 0xC1, 0x81, 0x40, 0x01, 0xC0, 0x80, 0x41] ++
  [0x01, 0xC0, 0x80, 0x41, 0x00, 0xC1, 0x81, 0x40, 0x00, 0xC1, 0x81, 0x40, 0x01, 0xC0, 0x80, 0x41] ++
  [0x00, 0xC1, 0x81, 0x40, 0x01, 0xC0, 0x80, 0x41, 0x01, 0xC0, 0x80, 0x41, 0x00, 0xC1, 0x81, 0x40] ++
  [0x00, 0xC1, 0x81, 0x40, 0x01, 0xC0, 0x80, 0x41, 0x01, 0xC0, 0x80, 0x41, 0x00, 0xC1, 0x81, 0x40] ++
  [0x01, 0xC0, 0x80, 0x41, 0x00, 0xC1, 0x81, 0x40, 0x00, 0xC1, 0x81, 0x40, 0x01, 0xC0, 0x80, 0x41] ++
  [0x00, 0xC1, 0x81, 0x40, 0x01, 0xC0, 0x80, 0x41, 0x01, 0xC0, 0x80, 0x41, 0x00, 0xC1, 0x81, 0x40] ++
  [0x01, 0xC0, 0x80, 0x41, 0x00, 0xC1, 0x81, 0x40, 0x00, 0xC1, 0x81, 0x40, 0x01, 0xC0, 0x80, 0x41] ++
  [0x01, 0xC0, 0x80, 0x41, 0x00, 0xC1, 0x81, 0x40, 0x00, 0xC1, 0x81, 0x40, 0x01, 0xC0, 0x80, 0x41] ++
  [0x00, 0xC1, 0x81, 0x40, 0x01, 0xC0, 0x80, 0x41, 0x01, 0xC0, 0x80, 0x41, 0x00, 0xC1, 0x81, 0x40]

/-- The listing of `TABLE_LO` in 40_crc16.md R71, sixteen entries a row. -/
def listedTableLo : List Byte :=
  [0x00, 0xC0, 0xC1, 0x01, 0xC3, 0x03, 0x02, 0xC2, 0xC6, 0x06, 0x07, 0xC7, 0x05, 0xC5, 0xC4, 0x04] ++
  [0xCC, 0x0C, 0x0D, 0xCD, 0x0F, 0xCF, 0xCE, 0x0E, 0x0A, 0xCA, 0xCB, 0x0B, 0xC9, 0x09, 0x08, 0xC8] ++
  [0xD8, 0x18, 0x19, 0xD9, 0x1B, 0xDB, 0xDA, 0x1A, 0x1E, 0xDE, 0xDF, 0x1F, 0xDD, 0x1D, 0x1C, 0xDC] ++
  [0x14, 0xD4, 0xD5, 0x15, 0xD7, 0x17, 0x16, 0xD6, 0xD2, 0x12, 0x13, 0xD3, 0x11, 0xD1, 0xD0, 0x10] ++
  [0xF0, 0x30, 0x31, 0xF1, 0x33, 0xF3, 0xF2, 0x32, 0x36, 0xF6, 0xF7, 0x37, 0xF5, 0x35, 0x34, 0xF4] ++
  [0x3C, 0xFC, 0xFD, 0x3D, 0xFF, 0x3F, 0x3E, 0xFE, 0xFA, 0x3A, 0x3B, 0xFB, 0x39, 0xF9, 0xF8, 0x38] ++
  [0x28, 0xE8, 0xE9, 0x29, 0xEB, 0x2B, 0x2A, 0xEA, 0xEE, 0x2E, 0x2F, 0xEF, 0x2D, 0xED, 0xEC, 0x2C] ++
  [0xE4, 0x24, 0x25, 0xE5, 0x27, 0xE7, 0xE6, 0x26, 0x22, 0xE2, 0xE3, 0x23, 0xE1, 0x21, 0x20, 0xE0] ++
  [0xA0, 0x60, 0x61, 0xA1, 0x63, 0xA3, 0xA2, 0x62, 0x66, 0xA6, 0xA7, 0x67, 0xA5, 0x65, 0x64, 0xA4] ++
  [0x6C, 0xAC, 0xAD, 0x6D, 0xAF, 0x6F, 0x6E, 0xAE, 0xAA, 0x6A, 0x6B, 0xAB, 0x69, 0xA9, 0xA8, 0x68] ++
  [0x78, 0xB8, 0xB9, 0x79, 0xBB, 0x7B, 0x7A, 0xBA, 0xBE, 0x7E, 0x7F, 0xBF, 0x7D, 0xBD, 0xBC, 0x7C] ++
  [0xB4, 0x74, 0x75, 0xB5, 0x77, 0xB7, 0xB6, 0x76, 0x72, 0xB2, 0xB3, 0x73, 0xB1, 0x71, 0x70, 0xB0] ++
  [0x50, 0x90, 0x91, 0x51, 0x93, 0x53, 0x52, 0x92, 0x96, 0x56, 0x57, 0x97, 0x55, 0x95, 0x94, 0x54] ++
  [0x9C, 0x5C, 0x5D, 0x9D, 0x5F, 0x9F, 0x9E, 0x5E, 0x5A, 0x9A, 0x9B, 0x5B, 0x99, 0x59, 0x58, 0x98] ++
  [0x88, 0x48, 0x49, 0x89, 0x4B, 0x8B, 0x8A, 0x4A, 0x4E, 0x8E, 0x8F, 0x4F, 0x8D, 0x4D, 0x4C, 0x8C] ++
  [0x44, 0x84, 0x85, 0x45, 0x87, 0x47, 0x46, 0x86, 0x82, 0x42, 0x43, 0x83, 0x41, 0x81, 0x80, 0x40]

end Sys2Proof.Machine
end

