-- ==== Sys2Proof/Certificates/Slice0/Obligations.lean ====
section
/-! DEFINITION. The statements for the provers. Each docstring names the rule of spec/ it formalises; where a clause rests on a decision
of the spec (D<n>) or on a choice of this model (log <n>) the docstring says so. -/

open Sys2Proof Sys2Proof.Machine

/-! ### Running, encoding -/

/-- 30_encoding.md R54 (transactions one at a time, in order): a step takes the next input and runs exactly the instruction the decoder
reads from it. That the inputs wait in a list from whose head a step takes one, arrivals and requests among them, is the model's
choice, log 1; that with nothing pending a step changes nothing is log 2 (70_reset_and_hazards.md R160). What a step does with an input
that does not decode is stated in ReservedTransactionsAreRefused and ReceivedFramesAreTakenByAPoll. -/
def Obligations.StepRunsTheDecodedInstruction : Prop :=
  (∀ (s : State) (x : Input) (rest : List Input) (i : Instr), s.pending = x :: rest → decode x = .ok i →
    step s = exec i { s with pending := rest }) ∧
  (∀ s : State, s.pending = [] → step s = .next s)

/-- 30_encoding.md R58, R62 (a), decision D22: a transaction whose first byte is a reserved code, or has any of bits 7:4 set, and one
that is the encoding of no well-formed instruction (empty, too short, too long) returns `RES_REFUSED` and changes no state (the
transaction is taken from the port, log 1; which transactions are malformed is log 13). The model's choice, log 13: a request to
transmit that is no request frame is refused the same way. The decoder rejects exactly the inputs that encode no
well-formed instruction. -/
def Obligations.ReservedTransactionsAreRefused : Prop :=
  (∀ (s : State) (op : Byte) (operands : List Byte) (rest : List Input),
    s.pending = .transaction (op :: operands) :: rest → op = 0 ∨ 0x0A#8 ≤ op →
    step s = .next { s with pending := rest, results := s.results ++ [.tag .refused] }) ∧
  (∀ (s : State) (x : Input) (rest : List Input),
    s.pending = x :: rest → (∀ frame now, x ≠ .arrival frame now) →
    (∀ i : Instr, i.wf = true → encode i ≠ some x) →
    step s = .next { s with pending := rest, results := s.results ++ [.tag .refused] }) ∧
  (∀ x : Input, (∃ e, decode x = .error e) ↔ ∀ i : Instr, i.wf = true → encode i ≠ some x)

/-- 60_exceptions.md R135: no operation faults or halts; every step and every instruction answers a next state. -/
def Obligations.NothingFaultsOrHalts : Prop :=
  (∀ s : State, ∃ t, step s = .next t) ∧ (∀ (i : Instr) (s : State), ∃ t, exec i s = .next t)

/-- 30_encoding.md R51 to R53, R57, R65: decoding the encoding of a well-formed instruction gives it back, every operand at every
value the encoding admits. -/
def Obligations.DecodeOfEncodeIsTheInstruction : Prop :=
  ∀ (i : Instr) (x : Input), i.wf = true → encode i = some x → decode x = .ok i

/-- The other direction: an input that decodes is the encoding of what it decodes to, which is well formed; so each input has one
meaning (30_encoding.md R57, R65). It rests on log 13 (DEDUCED): bytes after the last operand make an input no instruction. -/
def Obligations.EncodeOfDecodeIsTheInput : Prop :=
  ∀ (x : Input) (i : Instr), decode x = .ok i → encode i = some x ∧ i.wf = true

/-- A few inputs written out byte by byte: `RX.BYTE`, `RX.TIMEOUT`, `RING.LATEST` from 95_test_vectors.md (V21, V33, V50), `CRC16` and
`CLIENT.INIT` from the operands of 30_encoding.md R57, a request and an exception response from R51, R53. -/
def Obligations.SpecWordsDecode : Prop :=
  decode (.transaction [0x04, 0x01, 0, 0, 0, 0, 0, 0, 0x03, 0xE8]) = .ok (.rxByte 0x01 1000) ∧
  decode (.transaction [0x05, 0, 0, 0, 0, 0, 0x0F, 0x46, 0x28]) = .ok (.rxTimeout 1001000) ∧
  decode (.transaction [0x07]) = .ok .ringLatest ∧
  decode (.transaction [0x08, 0, 0, 0, 0, 0, 0, 0, 0]) = .ok (.clientInit 0) ∧
  decode (.transaction [0x01, 0x00, 0x02, 0xAA, 0x55]) = .ok (.crc16 [0xAA, 0x55]) ∧
  decode (.request [0x01, 0x03, 0x00, 0x48, 0x00, 0x0E, 0x44, 0x18]) = .ok (.reqRead 0x01 0x0048 0x000E 0x4418) ∧
  decode (.arrival [0x01, 0x83, 0x02, 0xC0, 0xF1] 7) = .ok (.respExc 0x01 0x83 0x02 0xC0F1 7)

/-! ### CRC16 Engine -/

/-- 40_crc16.md R71: the tables the generating rule gives are the 512 bytes listed there. -/
def Obligations.CrcTablesEqualTheListing : Prop :=
  ∀ i : Byte, listedTableHi[i.toNat]? = some (tableHi Config.core i) ∧ listedTableLo[i.toNat]? = some (tableLo Config.core i)

/-- 40_crc16.md R73: `CRC16` takes the pair from (0xFF, 0xFF) through the bytes in order and returns `(crc_hi << 8) or crc_lo`; it
refuses nothing and writes no state; the empty sequence gives 0xFFFF, and the rule's own example is met. -/
def Obligations.Crc16ReturnsTheComposedPair : Prop :=
  (∀ (data : List Byte) (s : State),
    let p := data.foldl (crcStep Config.core) (0xFF, 0xFF)
    exec (.crc16 data) s =
      .next { s with results := s.results ++ [.crc ((p.1.zeroExtend 16 <<< 8) ||| p.2.zeroExtend 16)] }) ∧
  crc16 Config.core [] = 0xFFFF ∧ crc16 Config.core [0x01, 0x03, 0x00, 0x00, 0x00, 0x0A] = 0xC5CD

/-- 40_crc16.md R74: (a) the empty sequence, (b) the residue, (c) the check passes on an appended CRC, (d) a function; and the derived
step of appending the byte that equals the high byte. -/
def Obligations.CrcResidueAndProperties : Prop :=
  crc16 Config.core [] = 0xFFFF ∧
  (∀ P : List Byte, crc16 Config.core (P ++ [hi (crc16 Config.core P), lo (crc16 Config.core P)]) = 0) ∧
  (∀ P : List Byte, crcMatches Config.core (P ++ [hi (crc16 Config.core P), lo (crc16 Config.core P)]) = true) ∧
  (∀ P Q : List Byte, P = Q → crc16 Config.core P = crc16 Config.core Q) ∧
  (∀ h l b : Byte, h ^^^ b = 0 → crcStep Config.core (h, l) b = (l, 0))

/-- 40_crc16.md R75 (derived there; rests on decision D4): `crc16` is the byte-swap of the conventional CRC-16/MODBUS value. -/
def Obligations.Crc16IsTheByteSwapOfTheConventionalValue : Prop :=
  ∀ data : List Byte, crc16 Config.core data = be16 (lo (stdCrc data)) (hi (stdCrc data))

/-- 40_crc16.md R77 (derived there): the check matches exactly when the CRC over the whole frame is 0. -/
def Obligations.CheckMatchesExactlyOnZeroResidue : Prop :=
  ∀ frame : List Byte, 2 ≤ frame.length → (crcMatches Config.core frame = true ↔ crc16 Config.core frame = 0)

/-- 40_crc16.md R76: `CRC.APPEND` replaces the last two bytes by the CRC of the bytes before them, writing no state; fewer than two
bytes are refused (decision D23). -/
def Obligations.CrcAppendCompletes : Prop :=
  ∀ (frame : List Byte) (s : State),
    (2 ≤ frame.length → ∀ body a b, frame = body ++ [a, b] →
      exec (.crcAppend frame) s = .next { s with results := s.results ++
        [.frame (body ++ [hi (crc16 Config.core body), lo (crc16 Config.core body)])] }) ∧
    (frame.length < 2 → exec (.crcAppend frame) s = .next { s with results := s.results ++ [.tag .refused] })

/-- 40_crc16.md R77: `CRC.CHECK` compares the CRC of all but the last two bytes with the last two, high byte first, writing no state;
fewer than two bytes are refused (decision D23). -/
def Obligations.CrcCheckCompletes : Prop :=
  ∀ (frame : List Byte) (s : State),
    (2 ≤ frame.length → ∀ body a b, frame = body ++ [a, b] →
      exec (.crcCheck frame) s = .next { s with results := s.results ++
        [.matched (decide ((crc16 Config.core body).toNat = a.toNat * 256 + b.toNat))] }) ∧
    (frame.length < 2 → exec (.crcCheck frame) s = .next { s with results := s.results ++ [.tag .refused] })

/-! ### Frame Receiver -/

/-- 41_frame_receiver.md R81: with the buffer full `RX.BYTE` returns `RES_STALL`, consumes nothing and changes no state of CORE; the
byte stays in the serial hardware's buffer (decision D9; the model's bookkeeping of that buffer is log 7). -/
def Obligations.RxByteStallsOnAFullBuffer : Prop :=
  ∀ (b : Byte) (now : Time) (s : State), s.rxLen = 256 →
    exec (.rxByte b now) s =
      .next { s with upstream := offered b s.upstream, results := s.results ++ [.tag .stall] }

/-- 41_frame_receiver.md R81, R82 (decision D10): the first byte of a frame, of any value, is stored as the address and its clock
reading as the start of the frame. The serial hardware's buffer follows log 7. -/
def Obligations.RxByteInWaitSof : Prop :=
  ∀ (b : Byte) (now : Time) (s : State), s.rxState = .waitSof → s.rxLen ≠ 256 →
    exec (.rxByte b now) s =
      .next { s with
        buf := s.buf.write s.rxLen.toNat b, rxLen := s.rxLen + 1, rxStartTs := now, rxState := .waitFunction,
        upstream := afterConsumed b s.upstream, results := s.results ++ [.tag .none] }

/-- 41_frame_receiver.md R81, R83 (EXC_LEN = 5, decision D6): the function code; its bit 7 chooses the expected length. The serial
hardware's buffer follows log 7. -/
def Obligations.RxByteInWaitFunction : Prop :=
  ∀ (b : Byte) (now : Time) (s : State), s.rxState = .waitFunction → s.rxLen ≠ 256 →
    exec (.rxByte b now) s =
      .next { s with
        buf := s.buf.write s.rxLen.toNat b, rxLen := s.rxLen + 1, rxState := .waitDataSize,
        rxExpected := if 0x80#8 ≤ b then 5 else 3,
        upstream := afterConsumed b s.upstream, results := s.results ++ [.tag .none] }

/-- 41_frame_receiver.md R81, R84 (decisions D7, D19): the byte-count of a frame whose function byte has bit 7 clear sets the expected
length; the exception code of an exception frame does not. The serial hardware's buffer follows log 7. -/
def Obligations.RxByteInWaitDataSize : Prop :=
  ∀ (b : Byte) (now : Time) (s : State), s.rxState = .waitDataSize → s.rxLen ≠ 256 →
    exec (.rxByte b now) s =
      .next { s with
        buf := s.buf.write s.rxLen.toNat b, rxLen := s.rxLen + 1, rxState := .waitData,
        rxExpected :=
          if 0x80#8 ≤ (s.buf.write s.rxLen.toNat b).read 1 then s.rxExpected else BitVec.ofNat 9 (b.toNat + 5),
        upstream := afterConsumed b s.upstream, results := s.results ++ [.tag .none] }

/-- 41_frame_receiver.md R85: bytes accumulate until the accumulated length (this byte counted) is at least the expected length - 2.
The serial hardware's buffer follows log 7. -/
def Obligations.RxByteInWaitData : Prop :=
  ∀ (b : Byte) (now : Time) (s : State), s.rxState = .waitData → s.rxLen ≠ 256 →
    exec (.rxByte b now) s =
      .next { s with
        buf := s.buf.write s.rxLen.toNat b, rxLen := s.rxLen + 1,
        rxState := if s.rxExpected - 2 ≤ s.rxLen + 1 then .waitCrc else .waitData,
        upstream := afterConsumed b s.upstream, results := s.results ++ [.tag .none] }

/-- 41_frame_receiver.md R86, first line: in `WAIT_CRC`, while the accumulated length is not the expected one, the byte is stored and
counted and the receiver goes on waiting. It leaves the serial hardware's buffer as log 7 says. -/
def Obligations.RxByteInWaitCrcStillWaiting : Prop :=
  ∀ (b : Byte) (now : Time) (s : State), s.rxState = .waitCrc → s.rxLen ≠ 256 → s.rxLen + 1 ≠ s.rxExpected →
    exec (.rxByte b now) s =
      .next { s with
        buf := s.buf.write s.rxLen.toNat b, rxLen := s.rxLen + 1,
        upstream := afterConsumed b s.upstream, results := s.results ++ [.tag .none] }

/-- 41_frame_receiver.md R86, mismatch: a completed frame whose trailing two bytes are not the CRC of the bytes before them is
abandoned and logged; the receiver returns to `WAIT_SOF`; no record is written. The serial hardware's buffer follows log 7. -/
def Obligations.RxByteAbandonsACrcMismatch : Prop :=
  ∀ (b : Byte) (now : Time) (s : State), Inv Config.core s → s.rxState = .waitCrc → s.rxLen ≠ 256 →
    s.rxLen + 1 = s.rxExpected →
    ¬ trailingCrcOk Config.core (s.buf.write s.rxLen.toNat b) (s.rxLen.toNat + 1) →
    exec (.rxByte b now) s =
      .next { s with
        buf := s.buf.write s.rxLen.toNat b, rxLen := 0, rxState := .waitSof, log := s.log ++ [.crcMismatch],
        upstream := afterConsumed b s.upstream, results := s.results ++ [.tag .crcError] }

/-- 41_frame_receiver.md R86, R87 (EXC_LEN = 5, decision D6, 70_reset_and_hazards.md R167): a completed frame with a matching CRC and
function bit 7 set is reported and logged with its address and exception code; the decoder is not invoked. The serial hardware's
buffer follows log 7. -/
def Obligations.RxByteReportsAnException : Prop :=
  ∀ (b : Byte) (now : Time) (s : State), Inv Config.core s → s.rxState = .waitCrc → s.rxLen ≠ 256 →
    s.rxLen + 1 = s.rxExpected →
    trailingCrcOk Config.core (s.buf.write s.rxLen.toNat b) (s.rxLen.toNat + 1) → 0x80#8 ≤ s.buf.read 1 →
    exec (.rxByte b now) s =
      .next { s with
        buf := s.buf.write s.rxLen.toNat b, rxLen := 0, rxState := .waitSof,
        log := s.log ++ [.exception (s.buf.read 0) (s.buf.read 2)],
        upstream := afterConsumed b s.upstream,
        results := s.results ++ [.tag (.exception (s.buf.read 0) (s.buf.read 2))] }

/-- 41_frame_receiver.md R86 with 42_register_decoder.md R101 to R104 and 43_ring_buffer.md R116 (decisions D12, D13, D16): a completed
61-byte frame with a matching CRC and function 0x03 is decoded into slot `wc mod 60`, and `wc` advances. The serial hardware's buffer
follows log 7. -/
def Obligations.RxByteDecodesAMeasurement : Prop :=
  ∀ (b : Byte) (now : Time) (s : State), Inv Config.core s → s.rxState = .waitCrc → s.rxLen = 60 → s.rxExpected = 61 →
    trailingCrcOk Config.core (s.buf.write 60 b) 61 → s.buf.read 1 = 0x03 →
    exec (.rxByte b now) s =
      .next { s with
        buf := s.buf.write 60 b, rxLen := 0, rxState := .waitSof,
        ring := s.ring.write (s.wc.toNat % 60) (recordOf (payloadAt (s.buf.write 60 b)) s.wc now), wc := s.wc + 1,
        upstream := afterConsumed b s.upstream, results := s.results ++ [.tag (.frameDecoded s.wc)] }

/-- 41_frame_receiver.md R86 with 42_register_decoder.md R102, R105: any other completed frame with a matching CRC and bit 7 clear is
ignored, not logged. The serial hardware's buffer follows log 7. -/
def Obligations.RxByteIgnoresAnotherShape : Prop :=
  ∀ (b : Byte) (now : Time) (s : State), Inv Config.core s → s.rxState = .waitCrc → s.rxLen ≠ 256 →
    s.rxLen + 1 = s.rxExpected →
    trailingCrcOk Config.core (s.buf.write s.rxLen.toNat b) (s.rxLen.toNat + 1) → s.buf.read 1 < 0x80#8 →
    ¬ (s.buf.read 1 = 0x03 ∧ s.rxLen = 60) →
    exec (.rxByte b now) s =
      .next { s with
        buf := s.buf.write s.rxLen.toNat b, rxLen := 0, rxState := .waitSof,
        upstream := afterConsumed b s.upstream, results := s.results ++ [.tag .frameIgnored] }

/-- 41_frame_receiver.md R81, 20_memory.md R35, R36: the frame of `RX.BYTE` in memory, through the read of one byte and of one slot:
it stores one byte, at `rx_len`, unless the buffer is full, and writes at most the ring slot `wc mod 60`, and that only when it
reports a decoded frame; the driver's register, the transmitted bytes and the pending inputs stay. -/
def Obligations.RxByteMemoryFrame : Prop :=
  ∀ (b : Byte) (now : Time) (s t : State), s.buf.wf = true → s.ring.wf = true → exec (.rxByte b now) s = .next t →
    (∀ a, a ≠ s.rxLen.toNat → t.buf.read a = s.buf.read a) ∧
    t.buf.read s.rxLen.toNat = (if s.rxLen = 256 then s.buf.read 256 else b) ∧
    (∀ slot, slot ≠ s.wc.toNat % 60 → t.ring.read slot = s.ring.read slot) ∧
    ((∀ index, t.results ≠ s.results ++ [.tag (.frameDecoded index)]) → t.ring = s.ring ∧ t.wc = s.wc) ∧
    t.lastSendTs = s.lastSendTs ∧ t.tx = s.tx ∧ t.pending = s.pending

/-- 41_frame_receiver.md R92 (the guarantee): a frame the receiver accepts (decodes, ignores as a shape, or reports as an exception)
has the expected length, and its trailing two bytes are the CRC of the bytes before them; without bit 7 its length is byte_count + 5,
between 5 and 256, with it EXC_LEN (the last two are derived there). -/
def Obligations.AcceptedFramesHaveTheirLengthAndCrc : Prop :=
  ∀ (b : Byte) (now : Time) (s t : State) (tag : Tag), Inv Config.core s → exec (.rxByte b now) s = .next t →
    t.results = s.results ++ [.tag tag] →
    ((∃ index, tag = .frameDecoded index) ∨ tag = .frameIgnored ∨ ∃ addr code, tag = .exception addr code) →
    s.rxLen.toNat + 1 = s.rxExpected.toNat ∧
    trailingCrcOk Config.core t.buf s.rxExpected.toNat ∧
    (t.buf.read 1 < 0x80#8 → s.rxExpected.toNat = (t.buf.read 2).toNat + 5 ∧ s.rxExpected.toNat ≤ 256) ∧
    (0x80#8 ≤ t.buf.read 1 → s.rxExpected.toNat = 5)

/-- 41_frame_receiver.md R91 (derived there): every transition of `rx_state` by `RX.BYTE` and `RX.TIMEOUT`. -/
def Obligations.ReceiverTransitions : Prop :=
  ∀ (b : Byte) (now : Time) (s t : State), Inv Config.core s →
    (exec (.rxByte b now) s = .next t →
      (s.rxState = .waitSof → t.rxState = .waitFunction ∧ t.rxLen = 1) ∧
      (s.rxState = .waitFunction → t.rxState = .waitDataSize ∧ t.rxLen = 2) ∧
      (s.rxState = .waitDataSize → t.rxState = .waitData ∧ t.rxLen = 3) ∧
      (s.rxState = .waitData → s.rxLen = 256 → t.rxState = .waitData ∧ t.rxLen = 256) ∧
      (s.rxState = .waitData → s.rxLen ≠ 256 → t.rxLen.toNat = s.rxLen.toNat + 1 ∧
        t.rxState = if s.rxExpected.toNat - 2 ≤ s.rxLen.toNat + 1 then .waitCrc else .waitData) ∧
      (s.rxState = .waitCrc → s.rxLen = 256 → t.rxState = .waitCrc ∧ t.rxLen = 256) ∧
      (s.rxState = .waitCrc → s.rxLen ≠ 256 → s.rxLen.toNat + 1 ≠ s.rxExpected.toNat →
        t.rxState = .waitCrc ∧ t.rxLen.toNat = s.rxLen.toNat + 1) ∧
      (s.rxState = .waitCrc → s.rxLen ≠ 256 → s.rxLen.toNat + 1 = s.rxExpected.toNat →
        t.rxState = .waitSof ∧ t.rxLen = 0)) ∧
    (exec (.rxTimeout now) s = .next t →
      if s.rxState ≠ .waitSof ∧ 1000000 < (now - s.rxStartTs).toNat then t.rxState = .waitSof ∧ t.rxLen = 0
      else t.rxState = s.rxState ∧ t.rxLen = s.rxLen)

/-- 41_frame_receiver.md R87: `EXC.REPORT` logs and returns the address `buf[0]` and the code `buf[2]`, whatever EXC_LEN is, and
touches nothing else of the state. Run alone, in any state, it answers the tag on the result interface: log 4. -/
def Obligations.ExcReportCompletes : Prop :=
  ∀ s : State, exec .excReport s =
    .next { s with
      log := s.log ++ [.exception (s.buf.read 0) (s.buf.read 2)],
      results := s.results ++ [.tag (.exception (s.buf.read 0) (s.buf.read 2))] }

/-- 41_frame_receiver.md R88 (decisions D11, D28): `RX.TIMEOUT` resets a receiver that is not in `WAIT_SOF` when the time since the
frame's first byte, modulo 2^64, is strictly more than 1 000 000; otherwise it changes nothing. -/
def Obligations.RxTimeoutCompletes : Prop :=
  ∀ (now : Time) (s : State),
    (s.rxState ≠ .waitSof → 1000000 < (now - s.rxStartTs).toNat →
      exec (.rxTimeout now) s =
        .next { s with rxState := .waitSof, rxLen := 0, results := s.results ++ [.tag .timeout] }) ∧
    (s.rxState = .waitSof ∨ (now - s.rxStartTs).toNat ≤ 1000000 →
      exec (.rxTimeout now) s = .next { s with results := s.results ++ [.tag .none] })

/-- 41_frame_receiver.md R89 (decisions D9, D10): `RX.POLL` is `RX.TIMEOUT` and then `RX.BYTE` on the first `k` bytes, all with the one
clock reading; it reports `k` and the tags other than `RES_NONE` in order; it stops early only after a CRC mismatch or before a
byte that would stall; the bytes not consumed stay upstream. It adds no behaviour of its own. -/
def Obligations.PollIsTimeoutThenBytes : Prop :=
  ∀ (now : Time) (avail : List Byte) (s : State), ∃ (k : Nat) (tags : List Tag) (u : State),
    k ≤ avail.length ∧
    execAll (.rxTimeout now :: (avail.take k).map (fun b => .rxByte b now)) s = some u ∧
    u.results = s.results ++ tags.map .tag ∧
    exec (.rxPoll now avail) s =
      .next { u with
        upstream := avail.drop k
        results := s.results ++ [.poll k (tags.filter (fun t => decide (t ≠ .none)))] } ∧
    .stall ∉ tags ∧ .crcError ∉ tags.dropLast ∧
    (k < avail.length → tags.getLast? = some .crcError ∨ u.rxLen = 256)

/-- 41_frame_receiver.md R90 (the state at the stall is derived there): a byte-count of 252 to 255 announces a frame that never
completes. Whatever bytes follow, at whatever times, 256 bytes are stored, each answering `RES_NONE` (the byte-count and 253 after it
among them), and every further one answers `RES_STALL`; nothing is logged or decoded. -/
def Obligations.OversizeFramesNeverComplete : Prop :=
  ∀ (s : State) (b : Byte) (now : Time) (feed : List (Byte × Time)),
    Inv Config.core s → s.rxState = .waitDataSize → s.buf.read 1 < 0x80#8 → 252 ≤ b.toNat →
    ∃ (u : State) (tags : List Tag),
      execAll (.rxByte b now :: feed.map (fun p => .rxByte p.1 p.2)) s = some u ∧
      u.results = s.results ++ tags.map .tag ∧
      tags = List.replicate (min 254 (1 + feed.length)) .none ++ List.replicate (feed.length - 253) .stall ∧
      u.rxExpected.toNat = b.toNat + 5 ∧ u.rxLen.toNat = min 256 (3 + feed.length) ∧
      (u.rxState = .waitData ∨ u.rxState = .waitCrc) ∧
      (253 ≤ feed.length → u.rxState = if b.toNat ≤ 253 then .waitCrc else .waitData) ∧
      u.log = s.log ∧ u.wc = s.wc ∧ u.ring = s.ring

/-- 41_frame_receiver.md R95 (derived there): under the source code's EXC_LEN = 7 a real 5-byte exception response is not recognised as
complete; two more bytes complete it, reported only when both are 0x00, a CRC mismatch otherwise; or the timeout drops it unreported. -/
def Obligations.SourceExcLenMissesExceptionResponses : Prop :=
  ∀ (address function code x y : Byte) (now later : Time) (s : State),
    Inv Config.sourceExcLen s → s.rxState = .waitSof → 0x80#8 ≤ function →
    let crc := crc16 Config.sourceExcLen [address, function, code]
    let d := rxPoll Config.sourceExcLen now (respExcBytes address function code crc) s
    d.consumed = 5 ∧ d.events = [] ∧ d.state.rxState = .waitCrc ∧ d.state.rxLen = 5 ∧ d.state.rxExpected = 7 ∧
    d.state.log = s.log ∧
    (rxPoll Config.sourceExcLen now [x, y] d.state).events =
      (if x = 0 ∧ y = 0 then [.exception address code] else [.crcError]) ∧
    (1000000 < (later - now).toNat →
      rxTimeout Config.sourceExcLen later d.state = ({ d.state with rxState := .waitSof, rxLen := 0 }, .timeout))

/-! ### Whole frames on the wire -/

/-- The model's choice, log 5 (10_state.md R27, 44_session_driver.md R129): a received frame, whole and in its encoding, has exactly the
effect of the poll that finds it behind the bytes the serial hardware holds; and so has a step on any bytes that arrive, whole frame or
not (30_encoding.md R59, log 13), taken from the inputs waiting (log 1). -/
def Obligations.ReceivedFramesAreTakenByAPoll : Prop :=
  (∀ (i : Instr) (frame : List Byte) (now : Time) (s : State), encode i = some (.arrival frame now) →
    ∃ t, exec i s = .next t ∧ exec (.rxPoll now (s.upstream ++ frame)) s = .next t) ∧
  (∀ (s : State) (frame : List Byte) (now : Time) (rest : List Input), s.pending = .arrival frame now :: rest →
    ∃ t, step s = .next t ∧ exec (.rxPoll now (s.upstream ++ frame)) { s with pending := rest } = .next t)

/-- 30_encoding.md R52, R61 row 3, 42_register_decoder.md R101 to R104: from an idle receiver, a 61-byte response with the right CRC and
any payload writes the record of that payload's fields, and nothing else but the receiver's own registers changes. That the frame
arrives whole and one poll takes it, reporting 61 bytes, is the model's choice, log 5. -/
def Obligations.GoodMeasurementResponseIsDecoded : Prop :=
  ∀ (address : Byte) (p : Read14) (now : Time) (s : State),
    Inv Config.core s → s.rxState = .waitSof → s.upstream = [] →
    let crc := crc16 Config.core ([address, 0x03, 0x38] ++ read14Bytes p)
    ∃ t, exec (.respRead14 address p crc now) s = .next t ∧
      t = { s with
        buf := t.buf, rxExpected := 61, rxStartTs := now,
        ring := s.ring.write (s.wc.toNat % 60) (recordOf p s.wc now), wc := s.wc + 1,
        results := s.results ++ [.poll 61 [.frameDecoded s.wc]] } ∧
      ∀ a, t.buf.read a = ((respRead14Bytes address p crc)[a]?).getD (s.buf.read a)

/-- 30_encoding.md R53, R61 row 2, 41_frame_receiver.md R87 (EXC_LEN = 5, decision D6): from an idle receiver, an exception response
with the right CRC is logged and reported with its address and code; the ring and `wc` stay. That the frame arrives whole and one poll
takes it, reporting 5 bytes, is the model's choice, log 5. -/
def Obligations.GoodExceptionResponseIsReported : Prop :=
  ∀ (address function code : Byte) (now : Time) (s : State),
    Inv Config.core s → s.rxState = .waitSof → s.upstream = [] → 0x80#8 ≤ function →
    let crc := crc16 Config.core [address, function, code]
    ∃ t, exec (.respExc address function code crc now) s = .next t ∧
      t = { s with
        buf := t.buf, rxExpected := 5, rxStartTs := now, log := s.log ++ [.exception address code],
        results := s.results ++ [.poll 5 [.exception address code]] } ∧
      ∀ a, t.buf.read a = ((respExcBytes address function code crc)[a]?).getD (s.buf.read a)

/-- 30_encoding.md R52, R61 row 4, 42_register_decoder.md R102, R105: from an idle receiver, any other response of at most 256 bytes
with the right CRC is received and ignored: nothing but the receiver's own registers changes. That the frame arrives whole and one poll
takes it, reporting its bytes, is the model's choice, log 5. -/
def Obligations.GoodOtherResponseIsIgnored : Prop :=
  ∀ (address function byteCount : Byte) (data : List Byte) (now : Time) (s : State),
    Inv Config.core s → s.rxState = .waitSof → s.upstream = [] →
    data.length = byteCount.toNat → byteCount.toNat ≤ 251 → function < 0x80#8 → ¬ (function = 0x03 ∧ byteCount = 0x38) →
    let crc := crc16 Config.core ([address, function, byteCount] ++ data)
    ∃ t, exec (.respOther address function byteCount data crc now) s = .next t ∧
      t = { s with
        buf := t.buf, rxExpected := BitVec.ofNat 9 (byteCount.toNat + 5), rxStartTs := now,
        results := s.results ++ [.poll (byteCount.toNat + 5) [.frameIgnored]] } ∧
      ∀ a, t.buf.read a = ((respOtherBytes address function byteCount data crc)[a]?).getD (s.buf.read a)

/-- 41_frame_receiver.md R86, 60_exceptions.md R136, 30_encoding.md R61 row 1: from an idle receiver, any well-formed received frame of
at most 256 bytes whose trailing bytes are not its CRC is dropped and logged, whatever its kind; the ring and `wc` stay. That the frame
arrives whole and one poll takes it, reporting its bytes, is the model's choice, log 5. -/
def Obligations.CorruptedFrameIsDropped : Prop :=
  ∀ (i : Instr) (frame : List Byte) (now : Time) (s : State),
    Inv Config.core s → s.rxState = .waitSof → s.upstream = [] → i.wf = true →
    encode i = some (.arrival frame now) → frame.length ≤ 256 → ¬ frameCrcOk Config.core frame →
    ∃ t, exec i s = .next t ∧
      t = { s with
        buf := t.buf, rxExpected := BitVec.ofNat 9 frame.length, rxStartTs := now, log := s.log ++ [.crcMismatch],
        results := s.results ++ [.poll frame.length [.crcError]] }

/-- 41_frame_receiver.md R88, R89, R94 (decision D10): timeout recovery. Whatever partial frame the receiver holds, a poll more than one
second after its first byte drops it and decodes a good measurement response that is waiting. -/
def Obligations.TimeoutRecoveryDecodesTheNextFrame : Prop :=
  ∀ (address : Byte) (p : Read14) (now : Time) (s : State),
    Inv Config.core s → s.rxState ≠ .waitSof → 1000000 < (now - s.rxStartTs).toNat →
    let crc := crc16 Config.core ([address, 0x03, 0x38] ++ read14Bytes p)
    ∃ t, exec (.rxPoll now (respRead14Bytes address p crc)) s = .next t ∧
      t = { s with
        buf := t.buf, rxState := .waitSof, rxLen := 0, rxExpected := 61, rxStartTs := now, upstream := [],
        ring := s.ring.write (s.wc.toNat % 60) (recordOf p s.wc now), wc := s.wc + 1,
        results := s.results ++ [.poll 61 [.timeout, .frameDecoded s.wc]] }

/-! ### Register Decoder -/

/-- 42_register_decoder.md R100: `UNPACK.BE32` at an offset up to FRAME_MAX-4 returns the four bytes there as one unsigned value, the
first most significant, and writes no state. Run alone it answers the value on the result interface: log 4. -/
def Obligations.UnpackBe32Completes : Prop :=
  ∀ (off : Byte) (s : State), off.toNat ≤ 252 → ∃ v : Word32,
    exec (.unpackBe32 off) s = .next { s with results := s.results ++ [.word v] } ∧
    v.toNat = (s.buf.read off.toNat).toNat * 2 ^ 24 + (s.buf.read (off.toNat + 1)).toNat * 2 ^ 16 +
      (s.buf.read (off.toNat + 2)).toNat * 2 ^ 8 + (s.buf.read (off.toNat + 3)).toNat

/-- 42_register_decoder.md R102 to R104 (decisions D12, D13, D16): `DEC.FRAME` on a frame with function 0x03 and length 61 writes the
record of the fields at the offsets of R101; on any other it changes nothing. Run alone it answers its tag on the result
interface: log 4. -/
def Obligations.DecFrameCompletes : Prop :=
  ∀ (len : Len) (now : Time) (s : State),
    (s.buf.read 1 = 0x03 → len = 61 →
      exec (.decFrame len now) s =
        .next { s with
          ring := s.ring.write (s.wc.toNat % 60) (recordOf (payloadAt s.buf) s.wc now), wc := s.wc + 1,
          results := s.results ++ [.tag (.frameDecoded s.wc)] }) ∧
    (s.buf.read 1 ≠ 0x03 ∨ len ≠ 61 →
      exec (.decFrame len now) s = .next { s with results := s.results ++ [.tag .frameIgnored] })

/-- 42_register_decoder.md R103 (decision D12): the scaling as exact arithmetic. The quotient truncates; a nonzero flag of any value
negates the quotient, which never overflows; the frequency product wraps modulo 2^32 and is exact up to 429 496 729. -/
def Obligations.ScalingIsExactArithmetic : Prop :=
  ∀ (raw : Word32) (flag : Byte),
    (div10 raw).toNat = raw.toNat / 10 ∧
    (signedPower raw flag).toInt = (if flag = 0 then (raw.toNat / 10 : Int) else -(raw.toNat / 10 : Int)) ∧
    (mul10 raw).toNat = raw.toNat * 10 % 2 ^ 32 ∧
    (raw.toNat ≤ 429496729 → (mul10 raw).toNat = raw.toNat * 10)

/-! ### Measurement Ring Buffer -/

/-- 43_ring_buffer.md R116: `RING.WRITE` replaces the slot `wc mod 60` whole and then increments `wc` modulo 2^32; every other slot
and everything else stays; it never fails. -/
def Obligations.RingWriteCompletes : Prop :=
  ∀ (rec : PowerRecord) (s : State), s.ring.wf = true → ∃ t, exec (.ringWrite rec) s = .next t ∧
    t = { s with ring := t.ring, wc := t.wc } ∧
    t.wc.toNat = (s.wc.toNat + 1) % 2 ^ 32 ∧
    ∀ slot, t.ring.read slot = if slot = s.wc.toNat % 60 then rec else s.ring.read slot

/-- 43_ring_buffer.md R117 (decision D14): `RING.LATEST` returns a copy of the slot `((wc - 1) mod 2^32) mod 60`, and writes no state;
slot 15 when `wc` is 0. -/
def Obligations.RingLatestCompletes : Prop :=
  ∀ s : State, exec .ringLatest s =
    .next { s with results := s.results ++
      [.record (s.ring.read (if s.wc = 0 then 15 else (s.wc.toNat - 1) % 60))] }

/-- 43_ring_buffer.md R117, R118 (a): after any write, at every value of `wc` and across its wrap, the latest record is the one
written. -/
def Obligations.LatestAfterWriteIsTheRecordWritten : Prop :=
  ∀ (rec : PowerRecord) (s t : State), s.ring.wf = true → exec (.ringWrite rec) s = .next t →
    exec .ringLatest t = .next { t with results := t.results ++ [.record rec] }

/-- 43_ring_buffer.md R118 (b): after any number of writes from `wc = 0`, fewer than 2^32, the ring holds exactly the last sixty
records, each in the slot its number selects, and older ones are gone; a slot no write has reached holds what it held. -/
def Obligations.RingHoldsTheLastSixtyRecords : Prop :=
  ∀ (recs : List PowerRecord) (s : State), s.wc = 0 → s.ring.wf = true → recs.length < 2 ^ 32 →
    ∃ t, execAll (recs.map .ringWrite) s = some t ∧ t.wc.toNat = recs.length ∧
      (∀ (k : Nat) (rec : PowerRecord), recs[k]? = some rec → recs.length ≤ k + 60 → t.ring.read (k % 60) = rec) ∧
      ∀ slot, recs.length ≤ slot ∨ 60 ≤ slot → t.ring.read slot = s.ring.read slot

/-! ### Client Session Driver -/

/-- 44_session_driver.md R125, R126 (SLAVE_ADDR is OPEN: the statement holds for every value of the constant): `CLIENT.INIT` transmits
the probe, 4 registers at address 0, with its CRC; it does not touch `last_send_ts` (decision D18) or CORE. -/
def Obligations.ClientInitCompletes : Prop :=
  ∀ (now : Time) (s : State),
    let body := [Config.freeSlaveAddr, 0x03, 0x00, 0x00, 0x00, 0x04]
    let frame := body ++ [hi (crc16 Config.core body), lo (crc16 Config.core body)]
    exec (.clientInit now) s = .next { s with tx := s.tx ++ frame, results := s.results ++ [.sent frame] }

/-- 44_session_driver.md R127 (decision D28; SLAVE_ADDR, REQ_START_REG are OPEN): `CLIENT.POLL` transmits the periodic request and
records the send time exactly when more than 1 000 000 microseconds have passed since the last, and then does what `RX.POLL`
does. -/
def Obligations.ClientPollCompletes : Prop :=
  ∀ (now : Time) (avail : List Byte) (s : State),
    let body := [Config.freeSlaveAddr, 0x03, hi Config.freeReqStartReg, lo Config.freeReqStartReg, 0x00, 0x0E]
    let frame := body ++ [hi (crc16 Config.core body), lo (crc16 Config.core body)]
    let due := 1000000 < (now - s.lastSendTs).toNat
    let s' := if due then { s with tx := s.tx ++ frame, lastSendTs := now } else s
    ∃ (u : State) (k : Nat) (events : List Tag),
      exec (.rxPoll now avail) s' = .next u ∧ u.results = s.results ++ [.poll k events] ∧
      exec (.clientPoll now avail) s =
        .next { u with results := s.results ++ [.clientPoll (if due then frame else []) k events] }

/-- 44_session_driver.md R127 (property): however often the driver is polled within 1 000 000 microseconds of its last request, it
sends nothing. -/
def Obligations.AtMostOneRequestPerPeriod : Prop :=
  ∀ (polls : List (Time × List Byte)) (s : State),
    (∀ p ∈ polls, (p.1 - s.lastSendTs).toNat ≤ 1000000) →
    ∃ u, execAll (polls.map (fun p => .clientPoll p.1 p.2)) s = some u ∧ u.tx = s.tx ∧ u.lastSendTs = s.lastSendTs

/-- 30_encoding.md R51: the request frame goes out as 8 bytes, its placeholder CRC bytes overwritten by the CRC of the first six; nothing
else changes (as an event of its own: the model's choice, log 6; at an address that is not SLAVE_ADDR: log 18). -/
def Obligations.ReqReadCompletes : Prop :=
  ∀ (address : Byte) (reg count crc : Half) (s : State),
    let body := [address, 0x03, hi reg, lo reg, hi count, lo count]
    exec (.reqRead address reg count crc) s =
      .next { s with tx := s.tx ++ (body ++ [hi (crc16 Config.core body), lo (crc16 Config.core body)]) }

/-! ### The whole machine -/

/-- 10_state.md R29: the reset values the spec gives (`wc` is derived there, `last_send_ts` is decision D18, the log D21). -/
def Obligations.ResetMatchesTheSpec : Prop :=
  State.reset.rxState = .waitSof ∧ State.reset.rxLen = 0 ∧ State.reset.wc = 0 ∧
  (∀ slot, State.reset.ring.read slot = zeroRecord) ∧ State.reset.lastSendTs = 0 ∧ State.reset.log = [] ∧
  exec .ringLatest State.reset = .next { State.reset with results := [.record zeroRecord] }

/-- The invariants of 10_state.md R28, and four clauses beyond them (log 17, DEDUCED: which expected length 41_frame_receiver.md R83 set,
the length R83 and R84 announce, the canonical form of `buf` and of the ring), hold after reset. -/
def Obligations.ResetMeetsTheInvariant : Prop := Inv Config.core State.reset

/-- 10_state.md R28 (derived there), with the four clauses of log 17 (DEDUCED) beyond it (which expected length 41_frame_receiver.md R83
set, the length R83 and R84 announce, the canonical form of `buf` and of the ring): the invariants hold after every operation that can
be run, whatever stands at the inputs. -/
def Obligations.EveryStepKeepsTheInvariant : Prop :=
  ∀ s t : State, Inv Config.core s → step s = .next t → Inv Config.core t

/-- 43_ring_buffer.md R116, R118 (a), 10_state.md R16: in one step `wc` grows by exactly the number of frames the step reports as
decoded; if it reports none the ring is untouched. -/
def Obligations.WriteCounterCountsDecodedFrames : Prop :=
  ∀ s t : State, step s = .next t → ∃ new : List Result,
    t.results = s.results ++ new ∧ t.wc = s.wc + BitVec.ofNat 32 (new.map decodedIn).sum ∧
    ((new.map decodedIn).sum = 0 → t.ring = s.ring)

/-- 43_ring_buffer.md R117, R118 (a): once a record has been written, the latest slot holds the record whose index is `wc - 1`; every
step keeps this. -/
def Obligations.LatestIndexIsKept : Prop :=
  ∀ s t : State, Inv Config.core s → (s.ring.read ((s.wc - 1).toNat % 60)).index = s.wc - 1 → step s = .next t →
    (t.ring.read ((t.wc - 1).toNat % 60)).index = t.wc - 1

/-- 70_reset_and_hazards.md R171 (derived there): stale contents of `buf`, `rx_expected`, `rx_start_ts` cannot influence behaviour. Two
states that meet the invariant and differ in nothing else step to states that differ in nothing else, with the same results, log
and transmission. -/
def Obligations.StaleContentsCannotBeObserved : Prop :=
  ∀ s t s' : State, Inv Config.core s → Inv Config.core t → SameLive s t → step s = .next s' →
    ∃ t', step t = .next t' ∧ SameLive s' t'

/-- 60_exceptions.md R137: the log is append-only and no rule's outcome depends on it, for every instruction and for every step, also
one whose input does not decode. -/
def Obligations.TheLogIsAppendOnlyAndNeverRead : Prop :=
  (∀ (i : Instr) (s t : State) (other : List LogRecord), exec i s = .next t → ∃ new : List LogRecord,
    t.log = s.log ++ new ∧ exec i { s with log := other } = .next { t with log := other ++ new }) ∧
  (∀ (s t : State) (other : List LogRecord), step s = .next t → ∃ new : List LogRecord,
    t.log = s.log ++ new ∧ step { s with log := other } = .next { t with log := other ++ new })

/-! ### Every configuration -/

/-- 00_scope.md R7 (each parameter a field of a configuration): `exec` and `step` are the configured machine at the values R7 gives. -/
def Obligations.ConfiguredMachineAtTheSpecValues : Prop :=
  (∀ (i : Instr) (s : State), execOn Config.core i s = exec i s) ∧ (∀ s : State, stepOn Config.core s = step s)

/-- 41_frame_receiver.md R88, 70_reset_and_hazards.md R170 (decision D11, which keeps TS_WIDTH a parameter): on every configuration the
timeout compares the time since the frame's first byte, modulo the period 2^TS_WIDTH of its clock, so an interval longer than the
period is misread. The clock's container bounds TS_WIDTH by 64 (log 11). -/
def Obligations.TimeoutIsModuloTheClockPeriod : Prop :=
  ∀ (c : Config) (now : Time) (s : State), c.tsWidth ≤ 64 → s.rxState ≠ .waitSof →
    execOn c (.rxTimeout now) s =
      .next (if (c.timeoutUs.toNat : Int) < ((now.toNat : Int) - s.rxStartTs.toNat) % 2 ^ c.tsWidth then
          { s with rxState := .waitSof, rxLen := 0, results := s.results ++ [.tag .timeout] }
        else { s with results := s.results ++ [.tag .none] })

/-- 43_ring_buffer.md R116, R117, 00_scope.md R7: on every configuration, whatever RING_N and WC_WIDTH (at most its container's 32, log
11), the latest record after a write is the one written, and the counter stays within its width. -/
def Obligations.LatestAfterWriteOnEveryConfiguration : Prop :=
  ∀ (c : Config) (rec : PowerRecord) (s t : State), c.wcWidth ≤ 32 → s.wc.toNat < 2 ^ c.wcWidth → s.ring.wf = true →
    execOn c (.ringWrite rec) s = .next t →
    t.wc.toNat = (s.wc.toNat + 1) % 2 ^ c.wcWidth ∧
    execOn c .ringLatest t = .next { t with results := t.results ++ [.record rec] }

/-! ### The internal operations as the receiver and the decoder use them -/

/-- 41_frame_receiver.md R85: in `WAIT_DATA` the comparison is made after the byte of the step is stored, and nothing is reported; the
difference does not underflow from 5 up; with an expected length of 5 the fourth byte of the frame moves the state to `WAIT_CRC` and
the fifth completes the frame there, whatever the bytes. -/
def Obligations.WaitDataComparesAfterStoring : Prop :=
  (∀ (c : Config) (b : Byte) (now : Time) (s : State), s.rxState = .waitData → s.rxLen.toNat ≠ c.frameMax →
    let u := rxStore b s
    rxStep c b now s = (if u.rxExpected - 2 ≤ u.rxLen then { u with rxState := .waitCrc } else u, .none)) ∧
  (∀ expected : Len, 5 ≤ expected.toNat → (expected - 2).toNat = expected.toNat - 2) ∧
  (∀ (b b' : Byte) (now now' : Time) (s : State), s.rxState = .waitData → s.rxLen = 3 → s.rxExpected = 5 →
    let u := (rxStep Config.core b now s).1
    let v := rxStep Config.core b' now' u
    u.rxState = .waitCrc ∧ u.rxLen = 4 ∧ v.1.rxState = .waitSof ∧ v.1.rxLen = 0 ∧ v.2 ≠ .none)

/-- 42_register_decoder.md R100, as the decoder uses it on the frame buffer: `BE32(buf, off)` is the four bytes from `off`, the first
shifted left by 24, at any alignment; the corner cases and the example of the rule. That it writes no state is in UnpackBe32Completes.
The last clause is the model's choice, log 4 (DEDUCED) and log 12 (DESIGN CHOICE): `selectFromDecoder`, the list of internal rows that
function 0x03 and third byte 0x38 select (30_encoding.md R65), which no meaning calls, has the unpacker once for each decoded field's
offset. -/
def Obligations.UnpackerIsFourByteReads : Prop :=
  ∀ (m : Memory) (off : Nat), off ≤ Config.core.frameMax - 4 →
    let b := fun k => (m.read (off + k)).zeroExtend 32
    unpackBe32 m off = (b 0 <<< 24) ||| (b 1 <<< 16) ||| (b 2 <<< 8) ||| b 3 ∧
    (m.slice off 4 = [0x00, 0x00, 0x00, 0x00] → unpackBe32 m off = 0) ∧
    (m.slice off 4 = [0xFF, 0xFF, 0xFF, 0xFF] → (unpackBe32 m off).toNat = 4294967295) ∧
    (m.slice off 4 = [0x80, 0x00, 0x00, 0x00] → (unpackBe32 m off).toNat = 2147483648) ∧
    (m.slice off 4 = [0x00, 0x23, 0x1D, 0x32] → (unpackBe32 m off).toNat = 2301234) ∧
    (∀ rec : PowerRecord, (selectFromDecoder Config.core 0x03 0x38 rec).count (.unpackBe32 (BitVec.ofNat 8 off)) =
      if off ∈ [3, 31, 7, 11, 15, 19, 39, 43, 47, 51] then 1 else 0)
end

