-- ==== Sys2Proof/Laws/Cells.lean ====
section
/-! SUPPORT. The laws of the generic store: a write keeps the canonical form and the range of keys, a read after a write to the same
key gives the value written, a write leaves every other key alone; the frame buffer and the ring inherit them. -/

namespace Sys2Proof.Machine

section
variable {α : Type} {d : α}

/-- A key below every listed key reads as the default. -/
theorem Cells.read_of_lt {m : List (Nat × α)} {a : Nat} (h : ∀ c ∈ m, a < c.1) : Cells.read d m a = d := by
  induction m with
  | nil => rfl
  | cons c m ih =>
    obtain ⟨k, v⟩ := c
    have hk : a < k := h (k, v) (by simp)
    simp only [Cells.read, Nat.ne_of_lt hk, if_false]
    exact ih fun c hc => h c (by simp [hc])

end

variable {α : Type} [DecidableEq α] {d : α}

/-- The canonical form, one entry at a time. -/
theorem Cells.wf_cons {k : Nat} {v : α} {m : List (Nat × α)} :
    Cells.wf d ((k, v) :: m) = true ↔ v ≠ d ∧ (∀ c ∈ m, k < c.1) ∧ Cells.wf d m = true := by
  simp [Cells.wf, and_assoc]

/-- Reading after `put` in front of smaller-free entries. -/
theorem Cells.read_put {m : List (Nat × α)} {a b : Nat} {v : α} (h : ∀ c ∈ m, a < c.1) :
    Cells.read d (Cells.put d a v m) b = if b = a then v else Cells.read d m b := by
  unfold Cells.put
  split <;> rename_i hv
  · split <;> rename_i hb
    · rw [hb, Cells.read_of_lt h, hv]
    · rfl
  · rfl

/-- Reading after writing, in a canonical store. -/
theorem Cells.read_write {m : List (Nat × α)} (h : Cells.wf d m = true) (a b : Nat) (v : α) :
    Cells.read d (Cells.write d m a v) b = if b = a then v else Cells.read d m b := by
  induction m with
  | nil => exact Cells.read_put (by simp)
  | cons c m ih =>
    obtain ⟨k, w⟩ := c
    obtain ⟨_, hk, hm⟩ := Cells.wf_cons.1 h
    simp only [Cells.write]
    split <;> rename_i h1
    · refine Cells.read_put fun c hc => ?_
      rcases List.mem_cons.1 hc with rfl | hc
      · exact h1
      · exact Nat.lt_trans h1 (hk c hc)
    · split <;> rename_i h2
      · subst h2
        rw [Cells.read_put hk]
        simp only [Cells.read]
        split <;> rfl
      · simp only [Cells.read, ih hm]
        split <;> rename_i h3
        · rw [if_neg (by omega)]
        · rfl

/-- Every entry after `put` has the key put or is an old one. -/
theorem Cells.mem_put {m : List (Nat × α)} {a : Nat} {v : α} {c : Nat × α} (h : c ∈ Cells.put d a v m) :
    c.1 = a ∨ c ∈ m := by
  unfold Cells.put at h
  split at h
  · exact .inr h
  · rcases List.mem_cons.1 h with rfl | h
    · exact .inl rfl
    · exact .inr h

/-- Every entry of a written store has the key written or is an old one. -/
theorem Cells.mem_write {m : List (Nat × α)} {a : Nat} {v : α} {c : Nat × α} (h : c ∈ Cells.write d m a v) :
    c.1 = a ∨ c ∈ m := by
  induction m with
  | nil => exact Cells.mem_put h
  | cons e m ih =>
    obtain ⟨k, w⟩ := e
    simp only [Cells.write] at h
    split at h
    · exact Cells.mem_put h
    · split at h
      · exact (Cells.mem_put h).imp_right (List.mem_cons_of_mem _)
      · rcases List.mem_cons.1 h with rfl | h
        · simp
        · exact (ih h).imp_right (List.mem_cons_of_mem _)

/-- Putting an entry in front of larger keys keeps the canonical form. -/
theorem Cells.wf_put {m : List (Nat × α)} {a : Nat} {v : α} (hm : Cells.wf d m = true) (h : ∀ c ∈ m, a < c.1) :
    Cells.wf d (Cells.put d a v m) = true := by
  unfold Cells.put
  split
  · exact hm
  · rename_i hv; exact Cells.wf_cons.2 ⟨hv, h, hm⟩

/-- A write keeps the canonical form. -/
theorem Cells.wf_write {m : List (Nat × α)} (h : Cells.wf d m = true) (a : Nat) (v : α) :
    Cells.wf d (Cells.write d m a v) = true := by
  induction m with
  | nil => exact Cells.wf_put h (by simp)
  | cons c m ih =>
    obtain ⟨k, w⟩ := c
    obtain ⟨hw, hk, hm⟩ := Cells.wf_cons.1 h
    simp only [Cells.write]
    split <;> rename_i h1
    · refine Cells.wf_put h fun c hc => ?_
      rcases List.mem_cons.1 hc with rfl | hc
      · exact h1
      · exact Nat.lt_trans h1 (hk c hc)
    · split <;> rename_i h2
      · subst h2; exact Cells.wf_put hm hk
      · refine Cells.wf_cons.2 ⟨hw, fun c hc => ?_, ih hm⟩
        rcases Cells.mem_write hc with hc | hc
        · omega
        · exact hk c hc

/-- A write below `n` keeps every key below `n`. -/
theorem Cells.below_write {n : Nat} {m : List (Nat × α)} (h : Cells.below n m = true) {a : Nat} (ha : a < n) (v : α) :
    Cells.below n (Cells.write d m a v) = true := by
  simp only [Cells.below, List.all_eq_true, decide_eq_true_eq] at *
  intro c hc
  rcases Cells.mem_write hc with hc | hc
  · omega
  · exact h c hc

/-- What a store reads at a key it lists. -/
theorem Cells.read_of_mem {m : List (Nat × α)} (h : Cells.wf d m = true) {k : Nat} {v : α} (hc : (k, v) ∈ m) :
    Cells.read d m k = v := by
  induction m with
  | nil => simp at hc
  | cons e m ih =>
    obtain ⟨k', v'⟩ := e
    obtain ⟨_, hk, hm⟩ := Cells.wf_cons.1 h
    rcases List.mem_cons.1 hc with heq | hc
    · obtain ⟨rfl, rfl⟩ := Prod.mk.injEq .. ▸ heq
      simp [Cells.read]
    · simp only [Cells.read]
      rw [if_neg (by have := hk _ hc; simp at this; omega)]
      exact ih hm hc

/-- `buf[b]` after `buf[a] <- v`. -/
theorem Memory.read_write {m : Memory} (h : m.wf = true) (a b : Nat) (v : Byte) :
    (m.write a v).read b = if b = a then v else m.read b := Cells.read_write h a b v

/-- A write keeps the frame buffer canonical. -/
theorem Memory.wf_write {m : Memory} (h : m.wf = true) (a : Nat) (v : Byte) : (m.write a v).wf = true :=
  Cells.wf_write h a v

/-- `ring[b]` after `ring[a] <- rec`. -/
theorem Ring.read_write {r : Ring} (h : r.wf = true) (a b : Nat) (rec : PowerRecord) :
    (r.write a rec).read b = if b = a then rec else r.read b := Cells.read_write h a b rec

/-- A write keeps the ring canonical. -/
theorem Ring.wf_write {r : Ring} (h : r.wf = true) (a : Nat) (rec : PowerRecord) : (r.write a rec).wf = true :=
  Cells.wf_write h a rec

/-- Reading the key just written, whatever the store: no canonical form is needed unless the value is the default. -/
theorem Cells.read_write_same {m : List (Nat × α)} {a : Nat} {v : α} (hv : v ≠ d) :
    Cells.read d (Cells.write d m a v) a = v := by
  induction m with
  | nil => simp [Cells.write, Cells.put, hv, Cells.read]
  | cons c m ih =>
    obtain ⟨k, w⟩ := c
    simp only [Cells.write]
    split
    · simp [Cells.put, hv, Cells.read]
    · split
      · simp [Cells.put, hv, Cells.read]
      · rename_i h1 h2
        simp [Cells.read, h2, ih]

/-- The length of a slice. -/
@[simp] theorem Memory.length_slice (m : Memory) (start n : Nat) : (m.slice start n).length = n := by
  induction n generalizing start with
  | zero => rfl
  | succ n ih => simp [Memory.slice, ih]

/-- The bytes of a slice. -/
theorem Memory.getElem?_slice (m : Memory) (start n i : Nat) :
    (m.slice start n)[i]? = if i < n then some (m.read (start + i)) else none := by
  induction n generalizing start i with
  | zero => simp [Memory.slice]
  | succ n ih =>
    cases i with
    | zero => simp [Memory.slice]
    | succ i => simp [Memory.slice, ih, Nat.add_assoc, Nat.add_comm 1]

/-- A prefix of a slice is a slice. -/
theorem Memory.take_slice (m : Memory) (start n k : Nat) (h : k ≤ n) : (m.slice start n).take k = m.slice start k := by
  apply List.ext_getElem?
  intro i
  simp only [List.getElem?_take, Memory.getElem?_slice]
  split <;> [rw [if_pos (by omega)]; rfl]

/-- Two memories that agree on a range have the same slice of it. -/
theorem Memory.slice_congr {m m' : Memory} {start n : Nat}
    (h : ∀ a, start ≤ a → a < start + n → m.read a = m'.read a) : m.slice start n = m'.slice start n := by
  apply List.ext_getElem?
  intro i
  simp only [Memory.getElem?_slice]
  split
  · rw [h (start + i) (by omega) (by omega)]
  · rfl

end Sys2Proof.Machine
end

