-- ==== Sys2Proof/Laws/Configured.lean ====
section
/-! SUPPORT. The configured machine at the values of 00_scope.md R7 is the machine. -/

namespace Sys2Proof.Machine

theorem execOn_core (i : Instr) (s : State) : execOn Config.core i s = exec i s := by cases i <;> rfl

theorem stepOn_core (s : State) : stepOn Config.core s = step s := by
  simp only [stepOn, step, execOn_core]
  rfl

end Sys2Proof.Machine
end

