-- ==== Sys2Proof/Laws/Operands.lean ====
section
/-! SUPPORT. The byte-order laws: taking a value apart and putting it together are inverse. Then the laws of the widths: what reducing
a value to its width does, and that at the spec's own widths it does nothing. -/

namespace Sys2Proof

/-- Two bytes as a number. -/
theorem be16_toNat (a b : Byte) : (be16 a b).toNat = a.toNat * 2 ^ 8 + b.toNat := by
  have ha := a.isLt
  have hb := b.isLt
  have h : 2 ^ 8 * a.toNat + b.toNat = 2 ^ 8 * a.toNat ||| b.toNat := Nat.two_pow_add_eq_or_of_lt hb _
  simp only [be16, BitVec.toNat_or, BitVec.toNat_shiftLeft, BitVec.truncate_eq_setWidth, BitVec.toNat_setWidth,
    Nat.shiftLeft_eq]
  rw [Nat.mod_eq_of_lt (by omega : a.toNat < 2 ^ 16), Nat.mod_eq_of_lt (by omega : a.toNat * 2 ^ 8 < 2 ^ 16),
    Nat.mod_eq_of_lt (by omega : b.toNat < 2 ^ 16), Nat.mul_comm, ← h]

@[simp] theorem hi_be16 (a b : Byte) : hi (be16 a b) = a := by
  apply BitVec.eq_of_toNat_eq
  have ha := a.isLt
  have hb := b.isLt
  simp only [hi, BitVec.extractLsb'_toNat, be16_toNat, Nat.shiftRight_eq_div_pow]
  omega

@[simp] theorem lo_be16 (a b : Byte) : lo (be16 a b) = b := by
  apply BitVec.eq_of_toNat_eq
  have ha := a.isLt
  have hb := b.isLt
  simp only [lo, BitVec.extractLsb'_toNat, be16_toNat, Nat.shiftRight_eq_div_pow]
  omega

@[simp] theorem be16_hi_lo (v : Half) : be16 (hi v) (lo v) = v := by
  apply BitVec.eq_of_toNat_eq
  have hv := v.isLt
  simp only [be16_toNat, hi, lo, BitVec.extractLsb'_toNat, Nat.shiftRight_eq_div_pow]
  omega

theorem be16_inj {a b c d : Byte} (h : be16 a b = be16 c d) : a = c ∧ b = d :=
  ⟨by simpa using congrArg hi h, by simpa using congrArg lo h⟩

theorem be16_eq_zero {a b : Byte} : be16 a b = 0 ↔ a = 0 ∧ b = 0 :=
  ⟨fun h => be16_inj (h.trans (by decide : (0 : Half) = be16 0 0)), by rintro ⟨rfl, rfl⟩; decide⟩

/-- Or is addition when the second operand fits below the first. -/
theorem or_eq_add {a b n : Nat} (hb : b < 2 ^ n) : (a * 2 ^ n) ||| b = a * 2 ^ n + b := by
  rw [Nat.mul_comm]; exact (Nat.two_pow_add_eq_or_of_lt hb a).symm

/-- Four bytes as a number: each weighs 256 times the next (42_register_decoder.md R100). -/
theorem be32_toNat (a b c d : Byte) :
    (be32 a b c d).toNat = a.toNat * 2 ^ 24 + b.toNat * 2 ^ 16 + c.toNat * 2 ^ 8 + d.toNat := by
  have ha := a.isLt
  have hb := b.isLt
  have hc := c.isLt
  have hd := d.isLt
  simp only [be32, BitVec.toNat_or, BitVec.toNat_shiftLeft, BitVec.truncate_eq_setWidth, BitVec.toNat_setWidth,
    Nat.shiftLeft_eq]
  rw [Nat.mod_eq_of_lt (by omega : a.toNat < 2 ^ 32), Nat.mod_eq_of_lt (by omega : a.toNat * 2 ^ 24 < 2 ^ 32),
    Nat.mod_eq_of_lt (by omega : b.toNat < 2 ^ 32), Nat.mod_eq_of_lt (by omega : b.toNat * 2 ^ 16 < 2 ^ 32),
    Nat.mod_eq_of_lt (by omega : c.toNat < 2 ^ 32), Nat.mod_eq_of_lt (by omega : c.toNat * 2 ^ 8 < 2 ^ 32),
    Nat.mod_eq_of_lt (by omega : d.toNat < 2 ^ 32), or_eq_add (by omega : b.toNat * 2 ^ 16 < 2 ^ 24),
    show a.toNat * 2 ^ 24 + b.toNat * 2 ^ 16 = (a.toNat * 2 ^ 8 + b.toNat) * 2 ^ 16 by omega,
    or_eq_add (by omega : c.toNat * 2 ^ 8 < 2 ^ 16),
    show (a.toNat * 2 ^ 8 + b.toNat) * 2 ^ 16 + c.toNat * 2 ^ 8 = (a.toNat * 2 ^ 16 + b.toNat * 2 ^ 8 + c.toNat) * 2 ^ 8 by omega,
    or_eq_add (by omega : d.toNat < 2 ^ 8)]

/-- The four bytes of a 32-bit value put together again. -/
theorem be32_bytes (v : Word32) :
    be32 (v.extractLsb' 24 8) (v.extractLsb' 16 8) (v.extractLsb' 8 8) (v.extractLsb' 0 8) = v := by
  apply BitVec.eq_of_toNat_eq
  have := v.isLt
  simp only [be32_toNat, BitVec.extractLsb'_toNat, Nat.shiftRight_eq_div_pow]
  omega

/-- Two halves as a number. -/
theorem be64_toNat (h l : Word32) : (be64 h l).toNat = h.toNat * 2 ^ 32 + l.toNat := by
  have := h.isLt
  have hl := l.isLt
  simp only [be64, BitVec.toNat_or, BitVec.toNat_shiftLeft, BitVec.truncate_eq_setWidth, BitVec.toNat_setWidth,
    Nat.shiftLeft_eq]
  rw [Nat.mod_eq_of_lt (by omega : h.toNat < 2 ^ 64), Nat.mod_eq_of_lt (by omega : h.toNat * 2 ^ 32 < 2 ^ 64),
    Nat.mod_eq_of_lt (by omega : l.toNat < 2 ^ 64), or_eq_add hl]

/-- The two halves of a clock reading put together again. -/
theorem be64_halves (t : Time) : be64 (t.extractLsb' 32 32) (t.extractLsb' 0 32) = t := by
  apply BitVec.eq_of_toNat_eq
  have := t.isLt
  simp only [be64_toNat, BitVec.extractLsb'_toNat, Nat.shiftRight_eq_div_pow]
  omega

/-- Taking four bytes put together apart again gives them back. -/
theorem bytes32_be32 (a b c d : Byte) : bytes32 (be32 a b c d) = [a, b, c, d] := by
  have ha := a.isLt
  have hb := b.isLt
  have hc := c.isLt
  have hd := d.isLt
  simp only [bytes32, List.cons.injEq, and_true]
  refine ⟨?_, ?_, ?_, ?_⟩ <;> apply BitVec.eq_of_toNat_eq <;>
    simp only [be32_toNat, BitVec.extractLsb'_toNat, Nat.shiftRight_eq_div_pow] <;> omega

/-- The halves of a clock reading put together, taken apart. -/
theorem bytes64_be64 (h l : Word32) : bytes64 (be64 h l) = bytes32 h ++ bytes32 l := by
  have hl := l.isLt
  have e1 : (be64 h l).extractLsb' 32 32 = h := by
    apply BitVec.eq_of_toNat_eq
    have := h.isLt
    simp only [be64_toNat, BitVec.extractLsb'_toNat, Nat.shiftRight_eq_div_pow]
    omega
  have e2 : (be64 h l).extractLsb' 0 32 = l := by
    apply BitVec.eq_of_toNat_eq
    simp only [be64_toNat, BitVec.extractLsb'_toNat, Nat.shiftRight_eq_div_pow]
    omega
  rw [bytes64, e1, e2]

@[simp] theorem length_bytes16 (v : Half) : (bytes16 v).length = 2 := rfl
@[simp] theorem length_bytes32 (v : Word32) : (bytes32 v).length = 4 := rfl
@[simp] theorem length_bytes64 (t : Time) : (bytes64 t).length = 8 := rfl

/-! ### Widths -/

theorem toNat_lowBits {n : Nat} (w : Nat) (v : BitVec n) : (lowBits w v).toNat = v.toNat % 2 ^ w := by
  simp only [lowBits, BitVec.toNat_setWidth]
  exact Nat.mod_eq_of_lt (Nat.lt_of_le_of_lt (Nat.mod_le _ _) v.isLt)

/-- A value that fits its width is kept. -/
theorem lowBits_of_lt {n w : Nat} {v : BitVec n} (h : v.toNat < 2 ^ w) : lowBits w v = v :=
  BitVec.eq_of_toNat_eq (by rw [toNat_lowBits, Nat.mod_eq_of_lt h])

/-- Reducing before a subtraction changes nothing after it. -/
theorem lowBits_lowBits_sub {n w : Nat} (h : w ≤ n) (v u : BitVec n) :
    lowBits w (lowBits w v - u) = lowBits w (v - u) := by
  apply BitVec.eq_of_toNat_eq
  have hd : 2 ^ w ∣ 2 ^ n := Nat.pow_dvd_pow 2 h
  rw [toNat_lowBits, toNat_lowBits, BitVec.toNat_sub, BitVec.toNat_sub, toNat_lowBits, Nat.mod_mod_of_dvd _ hd,
    Nat.mod_mod_of_dvd _ hd, Nat.add_mod, Nat.mod_mod, ← Nat.add_mod]

@[simp] theorem clockBits_core (t : Time) : clockBits Config.core t = t := lowBits_of_lt t.isLt
@[simp] theorem counterBits_core (v : Word32) : counterBits Config.core v = v := lowBits_of_lt v.isLt
@[simp] theorem fieldBits_core (v : Word32) : fieldBits Config.core v = v := lowBits_of_lt v.isLt
@[simp] theorem elapsed_core (now t : Time) : elapsed Config.core now t = now - t := clockBits_core _
@[simp] theorem clockBits_sourceExcLen (t : Time) : clockBits Config.sourceExcLen t = t := lowBits_of_lt t.isLt
@[simp] theorem elapsed_sourceExcLen (now t : Time) : elapsed Config.sourceExcLen now t = now - t := clockBits_sourceExcLen _

/-- Elapsed time as a number: the difference of the two readings modulo the period of the clock (70_reset_and_hazards.md R170). -/
theorem toNat_elapsed {c : Config} (h : c.tsWidth ≤ 64) (now t : Time) :
    ((elapsed c now t).toNat : Int) = ((now.toNat : Int) - t.toNat) % 2 ^ c.tsWidth := by
  have hd : (2 : Int) ^ c.tsWidth ∣ 2 ^ 64 := pow_dvd_pow 2 h
  have ht := t.isLt
  rw [elapsed, clockBits, toNat_lowBits, BitVec.toNat_sub, Nat.mod_mod_of_dvd _ (Nat.pow_dvd_pow 2 h)]
  push_cast [Nat.le_of_lt ht]
  rw [show (18446744073709551616 : Int) - t.toNat + now.toNat = (now.toNat - t.toNat) + 2 ^ 64 by ring, Int.add_emod,
    Int.emod_eq_zero_of_dvd hd, add_zero, Int.emod_emod]

end Sys2Proof
end

