-- ==== Sys2Proof/Laws/Crc.lean ====
section
/-! SUPPORT. The laws of the CRC16 Engine: how the pair grows by one byte, and what the zero index does. -/

namespace Sys2Proof.Machine

/-- The pair after one more byte. -/
theorem crcPair_append (c : Config) (P : List Byte) (b : Byte) :
    crcPair c (P ++ [b]) = crcStep c (crcPair c P) b := by
  simp [crcPair, List.foldl_append]

/-- The two bytes of the CRC are the pair. -/
theorem hi_crc16 (c : Config) (P : List Byte) : hi (crc16 c P) = (crcPair c P).1 := by simp [crc16]
theorem lo_crc16 (c : Config) (P : List Byte) : lo (crc16 c P) = (crcPair c P).2 := by simp [crc16]

/-- Shifting zero gives zero: the polynomial never enters. -/
theorem t16Shifts_zero (poly : Half) (n : Nat) : t16Shifts poly n 0#16 = 0#16 := by
  induction n with
  | zero => rfl
  | succ n ih => simpa [t16Shifts, t16Shift] using ih

/-- `TABLE_HI[0] = 0`, whatever the polynomial. -/
theorem tableHi_zero (c : Config) : tableHi c 0#8 = 0#8 := by simp [tableHi, t16, t16Shifts_zero]
/-- `TABLE_LO[0] = 0`, whatever the polynomial. -/
theorem tableLo_zero (c : Config) : tableLo c 0#8 = 0#8 := by simp [tableLo, t16, t16Shifts_zero]

/-- The only zero entry of `TABLE_LO` is entry 0 (it is a permutation, 40_crc16.md R71). -/
theorem tableLo_eq_zero : ∀ i : Byte, tableLo Config.core i = 0#8 → i = 0#8 := by decide

/-- The frame before its last two bytes. -/
theorem take_body (body : List Byte) (a b : Byte) :
    (body ++ [a, b]).take ((body ++ [a, b]).length - 2) = body := by simp

/-- The last two bytes of a frame, as the receiver reads them. -/
theorem receivedCrc_append (body : List Byte) (a b : Byte) : receivedCrc (body ++ [a, b]) = be16 a b := by
  simp [receivedCrc, List.getD]

/-- The check on a frame split before its last two bytes. -/
theorem crcMatches_append (c : Config) (body : List Byte) (a b : Byte) :
    crcMatches c (body ++ [a, b]) = (crc16 c body == be16 a b) := by
  rw [crcMatches, take_body, receivedCrc_append]

/-- The frame with its CRC, split before its last two bytes. -/
theorem crcAppend_append (c : Config) (body : List Byte) (a b : Byte) :
    crcAppend c (body ++ [a, b]) = body ++ [hi (crc16 c body), lo (crc16 c body)] := by
  simp only [crcAppend, take_body, bytes16]

/-- A frame of at least two bytes splits before its last two. -/
theorem exists_body {frame : List Byte} (h : 2 ≤ frame.length) : ∃ body a b, frame = body ++ [a, b] := by
  rcases frame.eq_nil_or_concat with rfl | ⟨l, b, rfl⟩
  · simp at h
  rcases l.eq_nil_or_concat with rfl | ⟨body, a, rfl⟩
  · simp at h
  · exact ⟨body, a, b, by simp⟩

/-- The check of the receiver on a slice of the frame buffer. -/
theorem crcMatches_slice (c : Config) (m : Memory) {n : Nat} (h : 2 ≤ n) :
    crcMatches c (m.slice 0 n) = (crc16 c (m.slice 0 (n - 2)) == be16 (m.read (n - 2)) (m.read (n - 1))) := by
  simp only [crcMatches, receivedCrc, Memory.length_slice, Memory.take_slice m 0 n (n - 2) (by omega),
    List.getD_eq_getElem?_getD, Memory.getElem?_slice]
  rw [if_pos (by omega), if_pos (by omega)]
  simp

end Sys2Proof.Machine
end

