-- ==== Sys2Proof/Laws/Decode.lean ====
section
/-! SUPPORT. The laws of the parsers: each reads back what the encoder writes, and what it reads is what stood there. -/

namespace Sys2Proof

@[simp] theorem andThen_ok {α β : Type} (a : α) (rest : List Byte) (f : α → List Byte → Parsed β) :
    andThen (.ok (a, rest)) f = f a rest := rfl

@[simp] theorem andThen_error {α β : Type} (e : Reject) (f : α → List Byte → Parsed β) :
    andThen (.error e) f = .error e := rfl

/-- A parse that went on succeeded first. -/
theorem andThen_eq_ok {α β : Type} {r : Parsed α} {f : α → List Byte → Parsed β} {p : β × List Byte} :
    andThen r f = .ok p ↔ ∃ a rest, r = .ok (a, rest) ∧ f a rest = .ok p := by
  rcases r with e | ⟨a, rest⟩
  · simp
  · constructor
    · exact fun h => ⟨a, rest, rfl, h⟩
    · rintro ⟨_, _, h, h'⟩; cases h; exact h'

/-! ### Reading back what the encoder writes -/

@[simp] theorem parse8_cons (b : Byte) (rest : List Byte) : parse8 (b :: rest) = .ok (b, rest) := rfl

@[simp] theorem parse16_bytes16 (v : Half) (rest : List Byte) : parse16 (bytes16 v ++ rest) = .ok (v, rest) := by
  simp [bytes16, parse16]

@[simp] theorem parse32_bytes32 (v : Word32) (rest : List Byte) : parse32 (bytes32 v ++ rest) = .ok (v, rest) := by
  simp only [bytes32, List.cons_append, parse32, be32_bytes, List.nil_append]

@[simp] theorem parse64_bytes64 (t : Time) (rest : List Byte) : parse64 (bytes64 t ++ rest) = .ok (t, rest) := by
  simp only [bytes64, parse64, List.append_assoc, parse32_bytes32, andThen_ok, be64_halves]

@[simp] theorem parseBytes_append (l rest : List Byte) : parseBytes l.length (l ++ rest) = .ok (l, rest) := by
  induction l with
  | nil => cases rest <;> rfl
  | cons a l ih => simp only [List.length_cons, List.cons_append, parseBytes, ih, andThen_ok]

theorem parseCounted_counted {l : List Byte} (h : fitsN2 l = true) (rest : List Byte) :
    parseCounted (counted l ++ rest) = .ok (l, rest) := by
  have h' : l.length < 65536 := by simpa [fitsN2] using h
  simp only [counted, List.append_assoc, parseCounted, parse16_bytes16, andThen_ok, BitVec.toNat_ofNat]
  rw [Nat.mod_eq_of_lt (by omega), parseBytes_append]

/-! ### What is read is what stood there -/

theorem parse8_eq_ok {bytes : List Byte} {p : Byte × List Byte} : parse8 bytes = .ok p ↔ bytes = p.1 :: p.2 := by
  obtain ⟨b, rest⟩ := p
  constructor
  · intro h; unfold parse8 at h; split at h <;> simp_all
  · rintro rfl; rfl

theorem parse16_eq_ok {bytes : List Byte} {p : Half × List Byte} : parse16 bytes = .ok p ↔ bytes = bytes16 p.1 ++ p.2 := by
  obtain ⟨v, rest⟩ := p
  constructor
  · intro h; unfold parse16 at h; split at h
    · simp only [Except.ok.injEq, Prod.mk.injEq] at h
      obtain ⟨rfl, rfl⟩ := h
      simp [bytes16]
    · simp at h
  · rintro rfl; simp

theorem parse32_eq_ok {bytes : List Byte} {p : Word32 × List Byte} :
    parse32 bytes = .ok p ↔ bytes = bytes32 p.1 ++ p.2 := by
  obtain ⟨v, rest⟩ := p
  constructor
  · intro h; unfold parse32 at h; split at h
    · simp only [Except.ok.injEq, Prod.mk.injEq] at h
      obtain ⟨rfl, rfl⟩ := h
      simp [bytes32_be32]
    · simp at h
  · rintro rfl; simp

theorem parse64_eq_ok {bytes : List Byte} {p : Time × List Byte} :
    parse64 bytes = .ok p ↔ bytes = bytes64 p.1 ++ p.2 := by
  obtain ⟨t, rest⟩ := p
  constructor
  · intro h
    simp only [parse64, andThen_eq_ok, parse32_eq_ok, Except.ok.injEq, Prod.mk.injEq] at h
    obtain ⟨h, r, rfl, l, r', rfl, rfl, rfl⟩ := h
    simp [bytes64_be64]
  · rintro rfl; simp

theorem parseBytes_eq_ok {n : Nat} {bytes : List Byte} {p : List Byte × List Byte} :
    parseBytes n bytes = .ok p ↔ bytes = p.1 ++ p.2 ∧ p.1.length = n := by
  constructor
  · intro h
    induction n generalizing bytes p with
    | zero =>
      have : parseBytes 0 bytes = .ok ([], bytes) := by cases bytes <;> rfl
      rw [this] at h; cases h; simp
    | succ n ih =>
      cases bytes with
      | nil => simp [parseBytes] at h
      | cons a bytes =>
        simp only [parseBytes, andThen_eq_ok, Except.ok.injEq] at h
        obtain ⟨l, r, h1, rfl⟩ := h
        have := ih h1
        simp_all
  · rintro ⟨rfl, rfl⟩; simp

theorem parseCounted_eq_ok {bytes : List Byte} {p : List Byte × List Byte} :
    parseCounted bytes = .ok p ↔ bytes = counted p.1 ++ p.2 ∧ fitsN2 p.1 = true := by
  constructor
  · intro h
    simp only [parseCounted, andThen_eq_ok, parse16_eq_ok, parseBytes_eq_ok] at h
    obtain ⟨n, r, rfl, rfl, hl⟩ := h
    have := n.isLt
    refine ⟨?_, by simp [fitsN2]; omega⟩
    simp [counted, hl]
  · rintro ⟨rfl, h⟩; rw [parseCounted_counted h]

/-! ### Whole inputs -/

/-- An input is decoded exactly when its parser reads it to the end. -/
theorem decode_eq_ok {x : Input} {i : Instr} : decode x = .ok i ↔ parseInput x = .ok (i, []) := by
  unfold decode complete
  split <;> simp_all

end Sys2Proof
end

