-- ==== Sys2Proof/Laws/Decoder.lean ====
section
/-! SUPPORT. The laws of the Register Decoder: the unpacker, the scaling and the record in the terms of Safety.lean, and the payload
read back from the frame buffer. -/

namespace Sys2Proof.Machine

/-- The unpacker's value as the number its bytes weigh. -/
theorem unpackBe32_eq_wordAt (m : Memory) (off : Nat) : unpackBe32 m off = wordAt m off := by
  apply BitVec.eq_of_toNat_eq
  have h1 := (m.read off).isLt
  have h2 := (m.read (off + 1)).isLt
  have h3 := (m.read (off + 2)).isLt
  have h4 := (m.read (off + 3)).isLt
  simp only [unpackBe32, wordAt, be32_toNat, BitVec.toNat_ofNat]
  omega

/-- The signed power by its flag. -/
theorem signedPower_eq (raw : Word32) (flag : Byte) :
    signedPower raw flag = if flag = 0 then raw / 10 else -(raw / 10) := by
  unfold signedPower div10 neg32
  by_cases h : flag = 0 <;> simp [h]

/-- The record of a frame is the record of its payload. -/
theorem decodeRecord_eq_recordOf (m : Memory) (wc : Word32) (now : Time) :
    decodeRecord Config.core m wc now = recordOf (payloadAt m) wc now := by
  simp only [decodeRecord, decodeChannel, unpackBe32_eq_wordAt, signedPower_eq, clockBits_core, fieldBits_core]; rfl

/-- A word stored in wire order reads back. -/
theorem wordAt_of_bytes {m : Memory} {off : Nat} {v : Word32} (h0 : m.read off = v.extractLsb' 24 8)
    (h1 : m.read (off + 1) = v.extractLsb' 16 8) (h2 : m.read (off + 2) = v.extractLsb' 8 8)
    (h3 : m.read (off + 3) = v.extractLsb' 0 8) : wordAt m off = v := by
  rw [← unpackBe32_eq_wordAt, unpackBe32, h0, h1, h2, h3, be32_bytes]

/-- The decoded response has 56 data bytes. -/
@[simp] theorem length_read14Bytes (p : Read14) : (read14Bytes p).length = 56 := rfl

/-- The decoded response has 61 bytes. -/
@[simp] theorem length_respRead14Bytes (a : Byte) (p : Read14) (crc : Half) : (respRead14Bytes a p crc).length = 61 := by
  simp [respRead14Bytes, bytes16]

/-- The payload of a decoded response stored at offset 0 reads back, field by field (42_register_decoder.md R101). -/
theorem payloadAt_of_slice {m : Memory} {a : Byte} {p : Read14} {crc : Half}
    (h : m.slice 0 61 = respRead14Bytes a p crc) : payloadAt m = p := by
  cases p
  simp only [respRead14Bytes, read14Bytes, bytes32, bytes16, List.cons_append, List.nil_append] at h
  simp only [Memory.slice, Nat.reduceAdd, List.cons.injEq] at h
  obtain ⟨-, -, -, a0, a1, a2, a3, b0, b1, b2, b3, c0, c1, c2, c3, d0, d1, d2, d3, h⟩ := h
  obtain ⟨e0, e1, e2, e3, f0, f1, f2, f3, g0, g1, g2, g3, i0, i1, i2, i3, j0, j1, j2, j3, h⟩ := h
  obtain ⟨k0, k1, k2, k3, l0, l1, l2, l3, m0, m1, m2, m3, n0, n1, n2, n3, o0, o1, o2, o3, -⟩ := h
  simp only [payloadAt, Read14.mk.injEq]
  exact ⟨wordAt_of_bytes a0 a1 a2 a3, wordAt_of_bytes b0 b1 b2 b3, wordAt_of_bytes c0 c1 c2 c3,
    wordAt_of_bytes d0 d1 d2 d3, wordAt_of_bytes e0 e1 e2 e3, wordAt_of_bytes f0 f1 f2 f3, g0, g1,
    by rw [g2, g3]; exact be16_hi_lo _, wordAt_of_bytes i0 i1 i2 i3, wordAt_of_bytes j0 j1 j2 j3,
    wordAt_of_bytes k0 k1 k2 k3, wordAt_of_bytes l0 l1 l2 l3, wordAt_of_bytes m0 m1 m2 m3, wordAt_of_bytes n0 n1 n2 n3,
    wordAt_of_bytes o0 o1 o2 o3⟩

end Sys2Proof.Machine
end

