-- ==== Sys2Proof/Laws/State.lean ====
section
/-! SUPPORT. One lemma per field per update of State, each true by rfl, so that no proof unfolds a record update. -/

namespace Sys2Proof.Machine

section setRxState
variable (s : State) (v : RxState)
@[simp] theorem State.setRxState_rxState : (s.setRxState v).rxState = v := rfl
@[simp] theorem State.setRxState_rxLen : (s.setRxState v).rxLen = s.rxLen := rfl
@[simp] theorem State.setRxState_rxExpected : (s.setRxState v).rxExpected = s.rxExpected := rfl
@[simp] theorem State.setRxState_rxStartTs : (s.setRxState v).rxStartTs = s.rxStartTs := rfl
@[simp] theorem State.setRxState_buf : (s.setRxState v).buf = s.buf := rfl
@[simp] theorem State.setRxState_wc : (s.setRxState v).wc = s.wc := rfl
@[simp] theorem State.setRxState_ring : (s.setRxState v).ring = s.ring := rfl
@[simp] theorem State.setRxState_lastSendTs : (s.setRxState v).lastSendTs = s.lastSendTs := rfl
@[simp] theorem State.setRxState_upstream : (s.setRxState v).upstream = s.upstream := rfl
@[simp] theorem State.setRxState_log : (s.setRxState v).log = s.log := rfl
@[simp] theorem State.setRxState_tx : (s.setRxState v).tx = s.tx := rfl
@[simp] theorem State.setRxState_results : (s.setRxState v).results = s.results := rfl
@[simp] theorem State.setRxState_pending : (s.setRxState v).pending = s.pending := rfl
end setRxState

section setRxLen
variable (s : State) (v : Len)
@[simp] theorem State.setRxLen_rxState : (s.setRxLen v).rxState = s.rxState := rfl
@[simp] theorem State.setRxLen_rxLen : (s.setRxLen v).rxLen = v := rfl
@[simp] theorem State.setRxLen_rxExpected : (s.setRxLen v).rxExpected = s.rxExpected := rfl
@[simp] theorem State.setRxLen_rxStartTs : (s.setRxLen v).rxStartTs = s.rxStartTs := rfl
@[simp] theorem State.setRxLen_buf : (s.setRxLen v).buf = s.buf := rfl
@[simp] theorem State.setRxLen_wc : (s.setRxLen v).wc = s.wc := rfl
@[simp] theorem State.setRxLen_ring : (s.setRxLen v).ring = s.ring := rfl
@[simp] theorem State.setRxLen_lastSendTs : (s.setRxLen v).lastSendTs = s.lastSendTs := rfl
@[simp] theorem State.setRxLen_upstream : (s.setRxLen v).upstream = s.upstream := rfl
@[simp] theorem State.setRxLen_log : (s.setRxLen v).log = s.log := rfl
@[simp] theorem State.setRxLen_tx : (s.setRxLen v).tx = s.tx := rfl
@[simp] theorem State.setRxLen_results : (s.setRxLen v).results = s.results := rfl
@[simp] theorem State.setRxLen_pending : (s.setRxLen v).pending = s.pending := rfl
end setRxLen

section setRxExpected
variable (s : State) (v : Len)
@[simp] theorem State.setRxExpected_rxState : (s.setRxExpected v).rxState = s.rxState := rfl
@[simp] theorem State.setRxExpected_rxLen : (s.setRxExpected v).rxLen = s.rxLen := rfl
@[simp] theorem State.setRxExpected_rxExpected : (s.setRxExpected v).rxExpected = v := rfl
@[simp] theorem State.setRxExpected_rxStartTs : (s.setRxExpected v).rxStartTs = s.rxStartTs := rfl
@[simp] theorem State.setRxExpected_buf : (s.setRxExpected v).buf = s.buf := rfl
@[simp] theorem State.setRxExpected_wc : (s.setRxExpected v).wc = s.wc := rfl
@[simp] theorem State.setRxExpected_ring : (s.setRxExpected v).ring = s.ring := rfl
@[simp] theorem State.setRxExpected_lastSendTs : (s.setRxExpected v).lastSendTs = s.lastSendTs := rfl
@[simp] theorem State.setRxExpected_upstream : (s.setRxExpected v).upstream = s.upstream := rfl
@[simp] theorem State.setRxExpected_log : (s.setRxExpected v).log = s.log := rfl
@[simp] theorem State.setRxExpected_tx : (s.setRxExpected v).tx = s.tx := rfl
@[simp] theorem State.setRxExpected_results : (s.setRxExpected v).results = s.results := rfl
@[simp] theorem State.setRxExpected_pending : (s.setRxExpected v).pending = s.pending := rfl
end setRxExpected

section setRxStartTs
variable (s : State) (v : Time)
@[simp] theorem State.setRxStartTs_rxState : (s.setRxStartTs v).rxState = s.rxState := rfl
@[simp] theorem State.setRxStartTs_rxLen : (s.setRxStartTs v).rxLen = s.rxLen := rfl
@[simp] theorem State.setRxStartTs_rxExpected : (s.setRxStartTs v).rxExpected = s.rxExpected := rfl
@[simp] theorem State.setRxStartTs_rxStartTs : (s.setRxStartTs v).rxStartTs = v := rfl
@[simp] theorem State.setRxStartTs_buf : (s.setRxStartTs v).buf = s.buf := rfl
@[simp] theorem State.setRxStartTs_wc : (s.setRxStartTs v).wc = s.wc := rfl
@[simp] theorem State.setRxStartTs_ring : (s.setRxStartTs v).ring = s.ring := rfl
@[simp] theorem State.setRxStartTs_lastSendTs : (s.setRxStartTs v).lastSendTs = s.lastSendTs := rfl
@[simp] theorem State.setRxStartTs_upstream : (s.setRxStartTs v).upstream = s.upstream := rfl
@[simp] theorem State.setRxStartTs_log : (s.setRxStartTs v).log = s.log := rfl
@[simp] theorem State.setRxStartTs_tx : (s.setRxStartTs v).tx = s.tx := rfl
@[simp] theorem State.setRxStartTs_results : (s.setRxStartTs v).results = s.results := rfl
@[simp] theorem State.setRxStartTs_pending : (s.setRxStartTs v).pending = s.pending := rfl
end setRxStartTs

section setBuf
variable (s : State) (v : Memory)
@[simp] theorem State.setBuf_rxState : (s.setBuf v).rxState = s.rxState := rfl
@[simp] theorem State.setBuf_rxLen : (s.setBuf v).rxLen = s.rxLen := rfl
@[simp] theorem State.setBuf_rxExpected : (s.setBuf v).rxExpected = s.rxExpected := rfl
@[simp] theorem State.setBuf_rxStartTs : (s.setBuf v).rxStartTs = s.rxStartTs := rfl
@[simp] theorem State.setBuf_buf : (s.setBuf v).buf = v := rfl
@[simp] theorem State.setBuf_wc : (s.setBuf v).wc = s.wc := rfl
@[simp] theorem State.setBuf_ring : (s.setBuf v).ring = s.ring := rfl
@[simp] theorem State.setBuf_lastSendTs : (s.setBuf v).lastSendTs = s.lastSendTs := rfl
@[simp] theorem State.setBuf_upstream : (s.setBuf v).upstream = s.upstream := rfl
@[simp] theorem State.setBuf_log : (s.setBuf v).log = s.log := rfl
@[simp] theorem State.setBuf_tx : (s.setBuf v).tx = s.tx := rfl
@[simp] theorem State.setBuf_results : (s.setBuf v).results = s.results := rfl
@[simp] theorem State.setBuf_pending : (s.setBuf v).pending = s.pending := rfl
end setBuf

section setWc
variable (s : State) (v : Word32)
@[simp] theorem State.setWc_rxState : (s.setWc v).rxState = s.rxState := rfl
@[simp] theorem State.setWc_rxLen : (s.setWc v).rxLen = s.rxLen := rfl
@[simp] theorem State.setWc_rxExpected : (s.setWc v).rxExpected = s.rxExpected := rfl
@[simp] theorem State.setWc_rxStartTs : (s.setWc v).rxStartTs = s.rxStartTs := rfl
@[simp] theorem State.setWc_buf : (s.setWc v).buf = s.buf := rfl
@[simp] theorem State.setWc_wc : (s.setWc v).wc = v := rfl
@[simp] theorem State.setWc_ring : (s.setWc v).ring = s.ring := rfl
@[simp] theorem State.setWc_lastSendTs : (s.setWc v).lastSendTs = s.lastSendTs := rfl
@[simp] theorem State.setWc_upstream : (s.setWc v).upstream = s.upstream := rfl
@[simp] theorem State.setWc_log : (s.setWc v).log = s.log := rfl
@[simp] theorem State.setWc_tx : (s.setWc v).tx = s.tx := rfl
@[simp] theorem State.setWc_results : (s.setWc v).results = s.results := rfl
@[simp] theorem State.setWc_pending : (s.setWc v).pending = s.pending := rfl
end setWc

section setRing
variable (s : State) (v : Ring)
@[simp] theorem State.setRing_rxState : (s.setRing v).rxState = s.rxState := rfl
@[simp] theorem State.setRing_rxLen : (s.setRing v).rxLen = s.rxLen := rfl
@[simp] theorem State.setRing_rxExpected : (s.setRing v).rxExpected = s.rxExpected := rfl
@[simp] theorem State.setRing_rxStartTs : (s.setRing v).rxStartTs = s.rxStartTs := rfl
@[simp] theorem State.setRing_buf : (s.setRing v).buf = s.buf := rfl
@[simp] theorem State.setRing_wc : (s.setRing v).wc = s.wc := rfl
@[simp] theorem State.setRing_ring : (s.setRing v).ring = v := rfl
@[simp] theorem State.setRing_lastSendTs : (s.setRing v).lastSendTs = s.lastSendTs := rfl
@[simp] theorem State.setRing_upstream : (s.setRing v).upstream = s.upstream := rfl
@[simp] theorem State.setRing_log : (s.setRing v).log = s.log := rfl
@[simp] theorem State.setRing_tx : (s.setRing v).tx = s.tx := rfl
@[simp] theorem State.setRing_results : (s.setRing v).results = s.results := rfl
@[simp] theorem State.setRing_pending : (s.setRing v).pending = s.pending := rfl
end setRing

section setLastSendTs
variable (s : State) (v : Time)
@[simp] theorem State.setLastSendTs_rxState : (s.setLastSendTs v).rxState = s.rxState := rfl
@[simp] theorem State.setLastSendTs_rxLen : (s.setLastSendTs v).rxLen = s.rxLen := rfl
@[simp] theorem State.setLastSendTs_rxExpected : (s.setLastSendTs v).rxExpected = s.rxExpected := rfl
@[simp] theorem State.setLastSendTs_rxStartTs : (s.setLastSendTs v).rxStartTs = s.rxStartTs := rfl
@[simp] theorem State.setLastSendTs_buf : (s.setLastSendTs v).buf = s.buf := rfl
@[simp] theorem State.setLastSendTs_wc : (s.setLastSendTs v).wc = s.wc := rfl
@[simp] theorem State.setLastSendTs_ring : (s.setLastSendTs v).ring = s.ring := rfl
@[simp] theorem State.setLastSendTs_lastSendTs : (s.setLastSendTs v).lastSendTs = v := rfl
@[simp] theorem State.setLastSendTs_upstream : (s.setLastSendTs v).upstream = s.upstream := rfl
@[simp] theorem State.setLastSendTs_log : (s.setLastSendTs v).log = s.log := rfl
@[simp] theorem State.setLastSendTs_tx : (s.setLastSendTs v).tx = s.tx := rfl
@[simp] theorem State.setLastSendTs_results : (s.setLastSendTs v).results = s.results := rfl
@[simp] theorem State.setLastSendTs_pending : (s.setLastSendTs v).pending = s.pending := rfl
end setLastSendTs

section setUpstream
variable (s : State) (v : List Byte)
@[simp] theorem State.setUpstream_rxState : (s.setUpstream v).rxState = s.rxState := rfl
@[simp] theorem State.setUpstream_rxLen : (s.setUpstream v).rxLen = s.rxLen := rfl
@[simp] theorem State.setUpstream_rxExpected : (s.setUpstream v).rxExpected = s.rxExpected := rfl
@[simp] theorem State.setUpstream_rxStartTs : (s.setUpstream v).rxStartTs = s.rxStartTs := rfl
@[simp] theorem State.setUpstream_buf : (s.setUpstream v).buf = s.buf := rfl
@[simp] theorem State.setUpstream_wc : (s.setUpstream v).wc = s.wc := rfl
@[simp] theorem State.setUpstream_ring : (s.setUpstream v).ring = s.ring := rfl
@[simp] theorem State.setUpstream_lastSendTs : (s.setUpstream v).lastSendTs = s.lastSendTs := rfl
@[simp] theorem State.setUpstream_upstream : (s.setUpstream v).upstream = v := rfl
@[simp] theorem State.setUpstream_log : (s.setUpstream v).log = s.log := rfl
@[simp] theorem State.setUpstream_tx : (s.setUpstream v).tx = s.tx := rfl
@[simp] theorem State.setUpstream_results : (s.setUpstream v).results = s.results := rfl
@[simp] theorem State.setUpstream_pending : (s.setUpstream v).pending = s.pending := rfl
end setUpstream

section setPending
variable (s : State) (v : List Input)
@[simp] theorem State.setPending_rxState : (s.setPending v).rxState = s.rxState := rfl
@[simp] theorem State.setPending_rxLen : (s.setPending v).rxLen = s.rxLen := rfl
@[simp] theorem State.setPending_rxExpected : (s.setPending v).rxExpected = s.rxExpected := rfl
@[simp] theorem State.setPending_rxStartTs : (s.setPending v).rxStartTs = s.rxStartTs := rfl
@[simp] theorem State.setPending_buf : (s.setPending v).buf = s.buf := rfl
@[simp] theorem State.setPending_wc : (s.setPending v).wc = s.wc := rfl
@[simp] theorem State.setPending_ring : (s.setPending v).ring = s.ring := rfl
@[simp] theorem State.setPending_lastSendTs : (s.setPending v).lastSendTs = s.lastSendTs := rfl
@[simp] theorem State.setPending_upstream : (s.setPending v).upstream = s.upstream := rfl
@[simp] theorem State.setPending_log : (s.setPending v).log = s.log := rfl
@[simp] theorem State.setPending_tx : (s.setPending v).tx = s.tx := rfl
@[simp] theorem State.setPending_results : (s.setPending v).results = s.results := rfl
@[simp] theorem State.setPending_pending : (s.setPending v).pending = v := rfl
end setPending

section appendLog
variable (s : State) (v : LogRecord)
@[simp] theorem State.appendLog_rxState : (s.appendLog v).rxState = s.rxState := rfl
@[simp] theorem State.appendLog_rxLen : (s.appendLog v).rxLen = s.rxLen := rfl
@[simp] theorem State.appendLog_rxExpected : (s.appendLog v).rxExpected = s.rxExpected := rfl
@[simp] theorem State.appendLog_rxStartTs : (s.appendLog v).rxStartTs = s.rxStartTs := rfl
@[simp] theorem State.appendLog_buf : (s.appendLog v).buf = s.buf := rfl
@[simp] theorem State.appendLog_wc : (s.appendLog v).wc = s.wc := rfl
@[simp] theorem State.appendLog_ring : (s.appendLog v).ring = s.ring := rfl
@[simp] theorem State.appendLog_lastSendTs : (s.appendLog v).lastSendTs = s.lastSendTs := rfl
@[simp] theorem State.appendLog_upstream : (s.appendLog v).upstream = s.upstream := rfl
@[simp] theorem State.appendLog_log : (s.appendLog v).log = s.log ++ [v] := rfl
@[simp] theorem State.appendLog_tx : (s.appendLog v).tx = s.tx := rfl
@[simp] theorem State.appendLog_results : (s.appendLog v).results = s.results := rfl
@[simp] theorem State.appendLog_pending : (s.appendLog v).pending = s.pending := rfl
end appendLog

section transmit
variable (s : State) (v : List Byte)
@[simp] theorem State.transmit_rxState : (s.transmit v).rxState = s.rxState := rfl
@[simp] theorem State.transmit_rxLen : (s.transmit v).rxLen = s.rxLen := rfl
@[simp] theorem State.transmit_rxExpected : (s.transmit v).rxExpected = s.rxExpected := rfl
@[simp] theorem State.transmit_rxStartTs : (s.transmit v).rxStartTs = s.rxStartTs := rfl
@[simp] theorem State.transmit_buf : (s.transmit v).buf = s.buf := rfl
@[simp] theorem State.transmit_wc : (s.transmit v).wc = s.wc := rfl
@[simp] theorem State.transmit_ring : (s.transmit v).ring = s.ring := rfl
@[simp] theorem State.transmit_lastSendTs : (s.transmit v).lastSendTs = s.lastSendTs := rfl
@[simp] theorem State.transmit_upstream : (s.transmit v).upstream = s.upstream := rfl
@[simp] theorem State.transmit_log : (s.transmit v).log = s.log := rfl
@[simp] theorem State.transmit_tx : (s.transmit v).tx = s.tx ++ v := rfl
@[simp] theorem State.transmit_results : (s.transmit v).results = s.results := rfl
@[simp] theorem State.transmit_pending : (s.transmit v).pending = s.pending := rfl
end transmit

section answer
variable (s : State) (v : Result)
@[simp] theorem State.answer_rxState : (s.answer v).rxState = s.rxState := rfl
@[simp] theorem State.answer_rxLen : (s.answer v).rxLen = s.rxLen := rfl
@[simp] theorem State.answer_rxExpected : (s.answer v).rxExpected = s.rxExpected := rfl
@[simp] theorem State.answer_rxStartTs : (s.answer v).rxStartTs = s.rxStartTs := rfl
@[simp] theorem State.answer_buf : (s.answer v).buf = s.buf := rfl
@[simp] theorem State.answer_wc : (s.answer v).wc = s.wc := rfl
@[simp] theorem State.answer_ring : (s.answer v).ring = s.ring := rfl
@[simp] theorem State.answer_lastSendTs : (s.answer v).lastSendTs = s.lastSendTs := rfl
@[simp] theorem State.answer_upstream : (s.answer v).upstream = s.upstream := rfl
@[simp] theorem State.answer_log : (s.answer v).log = s.log := rfl
@[simp] theorem State.answer_tx : (s.answer v).tx = s.tx := rfl
@[simp] theorem State.answer_results : (s.answer v).results = s.results ++ [v] := rfl
@[simp] theorem State.answer_pending : (s.answer v).pending = s.pending := rfl
end answer

section endFrame
variable (s : State)
@[simp] theorem State.endFrame_rxState : s.endFrame.rxState = .waitSof := rfl
@[simp] theorem State.endFrame_rxLen : s.endFrame.rxLen = 0 := rfl
@[simp] theorem State.endFrame_rxExpected : s.endFrame.rxExpected = s.rxExpected := rfl
@[simp] theorem State.endFrame_rxStartTs : s.endFrame.rxStartTs = s.rxStartTs := rfl
@[simp] theorem State.endFrame_buf : s.endFrame.buf = s.buf := rfl
@[simp] theorem State.endFrame_wc : s.endFrame.wc = s.wc := rfl
@[simp] theorem State.endFrame_ring : s.endFrame.ring = s.ring := rfl
@[simp] theorem State.endFrame_lastSendTs : s.endFrame.lastSendTs = s.lastSendTs := rfl
@[simp] theorem State.endFrame_upstream : s.endFrame.upstream = s.upstream := rfl
@[simp] theorem State.endFrame_log : s.endFrame.log = s.log := rfl
@[simp] theorem State.endFrame_tx : s.endFrame.tx = s.tx := rfl
@[simp] theorem State.endFrame_results : s.endFrame.results = s.results := rfl
@[simp] theorem State.endFrame_pending : s.endFrame.pending = s.pending := rfl
end endFrame

end Sys2Proof.Machine
end

