-- ==== Sys2Proof/Laws/Receiver.lean ====
section
/-! SUPPORT. Once per shared operation of the receiver: everything it can do. Later proofs cite these instead of unfolding. -/

namespace Sys2Proof.Machine

/-- What a completed frame leads to: a mismatch, an exception report, a decode, or nothing (30_encoding.md R61). -/
theorem classify_cases (c : Config) (now : Time) (s : State) :
    (crcMatches c (s.buf.slice 0 s.rxLen.toNat) = false ∧
      classify c now s = ({ s with log := s.log ++ [.crcMismatch] }, .crcError)) ∨
    (crcMatches c (s.buf.slice 0 s.rxLen.toNat) = true ∧ isExc (s.buf.read 1) = true ∧
      classify c now s = ({ s with log := s.log ++ [.exception (s.buf.read 0) (s.buf.read 2)] },
        .exception (s.buf.read 0) (s.buf.read 2))) ∨
    (crcMatches c (s.buf.slice 0 s.rxLen.toNat) = true ∧ isExc (s.buf.read 1) = false ∧
      isDecodable c (s.buf.read 1) s.rxLen = true ∧
      classify c now s = ({ s with
        ring := s.ring.write (writeSlot c s.wc) (decodeRecord c s.buf s.wc now), wc := counterBits c (s.wc + 1) },
        .frameDecoded s.wc)) ∨
    (crcMatches c (s.buf.slice 0 s.rxLen.toNat) = true ∧ isExc (s.buf.read 1) = false ∧
      isDecodable c (s.buf.read 1) s.rxLen = false ∧ classify c now s = (s, .frameIgnored)) := by
  cases h1 : crcMatches c (s.buf.slice 0 s.rxLen.toNat)
  · exact .inl ⟨rfl, by simp only [classify, h1]; rfl⟩
  cases h2 : isExc (s.buf.read 1)
  · cases h3 : isDecodable c (s.buf.read 1) s.rxLen
    · exact .inr (.inr (.inr ⟨rfl, rfl, rfl, by simp only [classify, decFrame, h1, h2, h3]; rfl⟩))
    · exact .inr (.inr (.inl ⟨rfl, rfl, rfl, by simp only [classify, decFrame, h1, h2, h3]; rfl⟩))
  · exact .inr (.inl ⟨rfl, rfl, by simp only [classify, h1, h2]; rfl⟩)

/-- Everything the receiver's step on one byte can do (41_frame_receiver.md R81 to R86, R91). -/
theorem rxStep_cases (c : Config) (b : Byte) (now : Time) (s : State) :
    (s.rxLen.toNat = c.frameMax ∧ rxStep c b now s = (s, .stall)) ∨
    (s.rxLen.toNat ≠ c.frameMax ∧
      ((s.rxState = .waitSof ∧ rxStep c b now s =
          ({ rxStore b s with rxStartTs := clockBits c now, rxState := .waitFunction }, .none)) ∨
       (s.rxState = .waitFunction ∧ rxStep c b now s =
          ({ rxStore b s with rxExpected := if isExc b then c.excLen else c.provLen, rxState := .waitDataSize }, .none)) ∨
       (s.rxState = .waitDataSize ∧ rxStep c b now s =
          ({ rxStore b s with
              rxExpected := if isExc ((rxStore b s).buf.read 1) then s.rxExpected else b.zeroExtend 9 + c.lenOverhead,
              rxState := .waitData }, .none)) ∨
       (s.rxState = .waitData ∧ rxStep c b now s =
          ({ rxStore b s with rxState := if s.rxExpected - 2 ≤ s.rxLen + 1 then .waitCrc else .waitData }, .none)) ∨
       (s.rxState = .waitCrc ∧ s.rxLen + 1 ≠ s.rxExpected ∧ rxStep c b now s = (rxStore b s, .none)) ∨
       (s.rxState = .waitCrc ∧ s.rxLen + 1 = s.rxExpected ∧ rxStep c b now s =
          ((classify c now (rxStore b s)).1.endFrame, (classify c now (rxStore b s)).2)))) := by
  by_cases hg : s.rxLen.toNat = c.frameMax
  · exact .inl ⟨hg, by simp [rxStep, hg]⟩
  refine .inr ⟨hg, ?_⟩
  rcases hs : s.rxState <;> simp only [rxStep, hg, hs, if_false, reduceCtorEq, false_and, true_and, false_or, or_false]
  · rfl
  · rfl
  · unfold rxWaitDataSize; split <;> simp <;> rfl
  · unfold rxWaitData
    rw [show (rxStore b s).rxExpected = s.rxExpected from rfl, show (rxStore b s).rxLen = s.rxLen + 1 from rfl]
    split <;> simp [rxStore, State.setRxState, State.setRxLen, State.setBuf, hs]
  · unfold rxWaitCrc
    rw [show (rxStore b s).rxExpected = s.rxExpected from rfl, show (rxStore b s).rxLen = s.rxLen + 1 from rfl]
    by_cases h : s.rxLen + 1 = s.rxExpected
    · exact .inr ⟨h, if_neg (not_not.2 h)⟩
    · exact .inl ⟨h, if_pos h⟩

/-- `classify` neither reads nor writes the serial hardware's buffer and the results. -/
theorem classify_env (c : Config) (now : Time) (s : State) (u : List Byte) (r : List Result) :
    classify c now { s with upstream := u, results := r } =
      ({ (classify c now s).1 with upstream := u, results := r }, (classify c now s).2) := by
  unfold classify decFrame
  cases crcMatches c (s.buf.slice 0 s.rxLen.toNat) <;> cases isExc (s.buf.read 1) <;>
    cases isDecodable c (s.buf.read 1) s.rxLen <;> rfl

/-- So does the action of `WAIT_DATA`. -/
theorem rxWaitData_env (s : State) (u : List Byte) (r : List Result) :
    rxWaitData { s with upstream := u, results := r } =
      ({ (rxWaitData s).1 with upstream := u, results := r }, (rxWaitData s).2) := by
  unfold rxWaitData
  by_cases h : s.rxExpected - 2 ≤ s.rxLen
  · rw [if_pos h, if_pos h]; rfl
  · rw [if_neg h, if_neg h]

/-- So does the action of `WAIT_CRC`. -/
theorem rxWaitCrc_env (c : Config) (now : Time) (s : State) (u : List Byte) (r : List Result) :
    rxWaitCrc c now { s with upstream := u, results := r } =
      ({ (rxWaitCrc c now s).1 with upstream := u, results := r }, (rxWaitCrc c now s).2) := by
  unfold rxWaitCrc
  by_cases h : s.rxLen = s.rxExpected
  · rw [if_neg (not_not.2 h), if_neg (not_not.2 h), classify_env]; rfl
  · rw [if_pos h, if_pos h]

/-- The receiver's step neither reads nor writes the serial hardware's buffer and the results. -/
theorem rxStep_env (c : Config) (b : Byte) (now : Time) (s : State) (u : List Byte) (r : List Result) :
    rxStep c b now { s with upstream := u, results := r } =
      ({ (rxStep c b now s).1 with upstream := u, results := r }, (rxStep c b now s).2) := by
  have hstore : rxStore b { s with upstream := u, results := r } =
      { rxStore b s with upstream := u, results := r } := rfl
  unfold rxStep
  by_cases hg : s.rxLen.toNat = c.frameMax
  · simp only [hg, if_true]
  simp only [hg, if_false, hstore]
  cases s.rxState
  · rfl
  · rfl
  · simp only [rxWaitDataSize]
    cases isExc ((rxStore b s).buf.read 1) <;> rfl
  · exact rxWaitData_env _ u r
  · exact rxWaitCrc_env c now _ u r

/-- What the receiver's step leaves alone in any case. -/
theorem rxStep_frame (c : Config) (b : Byte) (now : Time) (s : State) :
    (rxStep c b now s).1.lastSendTs = s.lastSendTs ∧ (rxStep c b now s).1.upstream = s.upstream ∧
    (rxStep c b now s).1.tx = s.tx ∧ (rxStep c b now s).1.results = s.results ∧
    (rxStep c b now s).1.pending = s.pending := by
  rcases rxStep_cases c b now s with ⟨_, h⟩ | ⟨_, ⟨_, h⟩ | ⟨_, h⟩ | ⟨_, h⟩ | ⟨_, h⟩ | ⟨_, _, h⟩ | ⟨_, _, h⟩⟩ <;> rw [h]
  any_goals exact ⟨rfl, rfl, rfl, rfl, rfl⟩
  rcases classify_cases c now (rxStore b s) with ⟨_, h⟩ | ⟨_, _, h⟩ | ⟨_, _, _, h⟩ | ⟨_, _, _, h⟩ <;> rw [h] <;>
    exact ⟨rfl, rfl, rfl, rfl, rfl⟩

/-- Everything the timeout check can do (41_frame_receiver.md R88). -/
theorem rxTimeout_cases (c : Config) (now : Time) (s : State) :
    (s.rxState ≠ .waitSof ∧ timedOut c now s.rxStartTs = true ∧
      rxTimeout c now s = ({ s with rxState := .waitSof, rxLen := 0 }, .timeout)) ∨
    ((s.rxState = .waitSof ∨ timedOut c now s.rxStartTs = false) ∧ rxTimeout c now s = (s, .none)) := by
  by_cases h : s.rxState ≠ .waitSof ∧ timedOut c now s.rxStartTs = true
  · exact .inl ⟨h.1, h.2, by simp only [rxTimeout, if_pos h]; rfl⟩
  · refine .inr ⟨?_, by simp only [rxTimeout, if_neg h]⟩
    by_cases h1 : s.rxState = .waitSof
    · exact .inl h1
    · exact .inr (by simpa [h1] using h)

/-- `event` of a tag. -/
@[simp] theorem event_none : event .none = [] := rfl
theorem event_of_ne {t : Tag} (h : t ≠ .none) : event t = [t] := by simp [event, h]

/-- The drain over no bytes. -/
@[simp] theorem drain_nil (c : Config) (now : Time) (s : State) :
    drain c now [] s = { state := s, consumed := 0, events := [] } := rfl

/-- The drain over one byte more that neither stalls nor ends in a CRC mismatch. -/
theorem drain_cons_go {c : Config} {now : Time} {b : Byte} {s : State} (rest : List Byte)
    (h1 : (rxStep c b now s).2 ≠ .stall) (h2 : (rxStep c b now s).2 ≠ .crcError) :
    drain c now (b :: rest) s =
      { state := (drain c now rest (rxStep c b now s).1).state
        consumed := (drain c now rest (rxStep c b now s).1).consumed + 1
        events := event (rxStep c b now s).2 ++ (drain c now rest (rxStep c b now s).1).events } := by
  simp [drain, h1, h2]

/-- The drain stops before a byte that stalls. -/
theorem drain_cons_stall {c : Config} {now : Time} {b : Byte} {s : State} (rest : List Byte)
    (h : (rxStep c b now s).2 = .stall) :
    drain c now (b :: rest) s = { state := (rxStep c b now s).1, consumed := 0, events := [] } := by
  simp [drain, h]

/-- The drain stops after a byte that ends in a CRC mismatch. -/
theorem drain_cons_crcError {c : Config} {now : Time} {b : Byte} {s : State} (rest : List Byte)
    (h : (rxStep c b now s).2 = .crcError) :
    drain c now (b :: rest) s = { state := (rxStep c b now s).1, consumed := 1, events := [.crcError] } := by
  simp [drain, h]

/-- A drain never takes more than there is. -/
theorem drain_consumed_le (c : Config) (now : Time) (avail : List Byte) (s : State) :
    (drain c now avail s).consumed ≤ avail.length := by
  induction avail generalizing s with
  | nil => simp
  | cons b rest ih =>
    by_cases h1 : (rxStep c b now s).2 = .stall
    · simp [drain_cons_stall rest h1]
    · by_cases h2 : (rxStep c b now s).2 = .crcError
      · simp [drain_cons_crcError rest h2]
      · simpa [drain_cons_go rest h1 h2] using ih _

/-- What holds of a state and is kept by the receiver's step is kept by a drain. -/
theorem drain_induction {c : Config} {now : Time} {P : State → Prop}
    (hstep : ∀ b s, P s → P (rxStep c b now s).1) (avail : List Byte) (s : State) (h : P s) :
    P (drain c now avail s).state := by
  induction avail generalizing s with
  | nil => simpa using h
  | cons b rest ih =>
    by_cases h1 : (rxStep c b now s).2 = .stall
    · simpa [drain_cons_stall rest h1] using hstep b s h
    · by_cases h2 : (rxStep c b now s).2 = .crcError
      · simpa [drain_cons_crcError rest h2] using hstep b s h
      · simpa [drain_cons_go rest h1 h2] using ih _ (hstep b s h)

/-- Draining on: a drain that took all its bytes and reported nothing goes on with what follows. -/
theorem drain_append {c : Config} {now : Time} {l₁ l₂ : List Byte} {s s' : State}
    (h : drain c now l₁ s = { state := s', consumed := l₁.length, events := [] }) :
    drain c now (l₁ ++ l₂) s =
      { drain c now l₂ s' with consumed := l₁.length + (drain c now l₂ s').consumed } := by
  induction l₁ generalizing s with
  | nil => simp only [drain_nil, Drained.mk.injEq] at h; simp [← h.1]
  | cons b l₁ ih =>
    by_cases h1 : (rxStep c b now s).2 = .stall
    · simp [drain_cons_stall _ h1] at h
    by_cases h2 : (rxStep c b now s).2 = .crcError
    · simp [drain_cons_crcError _ h2] at h
    rw [drain_cons_go _ h1 h2] at h
    simp only [Drained.mk.injEq, List.append_eq_nil_iff, List.length_cons, Nat.add_right_cancel_iff] at h
    obtain ⟨e1, e2, e3, e4⟩ := h
    have hd : drain c now l₁ (rxStep c b now s).1 = { state := s', consumed := l₁.length, events := [] } := by
      rw [← e1, ← e2, ← e4]
    rw [List.cons_append, drain_cons_go _ h1 h2, ih hd, e3]
    simp only [List.length_cons, List.nil_append, Drained.mk.injEq, true_and, and_true]; omega

/-- A poll of a receiver that waits for a first byte is a drain. -/
theorem rxPoll_of_waitSof {c : Config} {now : Time} {avail : List Byte} {s : State} (hs : s.rxState = .waitSof) :
    rxPoll c now avail s =
      { drain c now avail s with
        state := (drain c now avail s).state.setUpstream (avail.drop (drain c now avail s).consumed) } := by
  rcases rxTimeout_cases c now s with ⟨h, _⟩ | ⟨_, h⟩
  · exact absurd hs h
  · simp only [rxPoll, h, event_none, List.nil_append]

end Sys2Proof.Machine
end

