-- ==== Sys2Proof/Laws/Driver.lean ====
section
/-! SUPPORT. The laws of the session driver and of the poll: the request frame byte by byte, and what a poll leaves alone. -/

namespace Sys2Proof.Machine

/-- The request frame as transmitted: whatever stood in the CRC bytes, they are the CRC of the first six (30_encoding.md R51). -/
theorem crcAppend_reqReadBytes (c : Config) (a : Byte) (reg count crc : Half) :
    crcAppend c (reqReadBytes a reg count crc) =
      [a, 0x03, hi reg, lo reg, hi count, lo count] ++
        [hi (crc16 c [a, 0x03, hi reg, lo reg, hi count, lo count]),
          lo (crc16 c [a, 0x03, hi reg, lo reg, hi count, lo count])] :=
  crcAppend_append c [a, 0x03, hi reg, lo reg, hi count, lo count] (hi crc) (lo crc)

/-- What a poll leaves alone. -/
theorem rxPoll_frame (c : Config) (now : Time) (avail : List Byte) (s : State) :
    (rxPoll c now avail s).state.lastSendTs = s.lastSendTs ∧ (rxPoll c now avail s).state.tx = s.tx ∧
    (rxPoll c now avail s).state.results = s.results ∧ (rxPoll c now avail s).state.pending = s.pending := by
  have ht : (rxTimeout c now s).1.lastSendTs = s.lastSendTs ∧ (rxTimeout c now s).1.tx = s.tx ∧
      (rxTimeout c now s).1.results = s.results ∧ (rxTimeout c now s).1.pending = s.pending := by
    rcases rxTimeout_cases c now s with ⟨_, _, h⟩ | ⟨_, h⟩ <;> rw [h] <;> exact ⟨rfl, rfl, rfl, rfl⟩
  refine drain_induction (P := fun t => t.lastSendTs = s.lastSendTs ∧ t.tx = s.tx ∧ t.results = s.results ∧
    t.pending = s.pending) (fun b t h => ?_) avail _ ht
  obtain ⟨h1, _, h2, h3, h4⟩ := rxStep_frame c b now t
  rw [h1, h2, h3, h4]; exact h

end Sys2Proof.Machine
end

