-- ==== Sys2Proof/Laws/Exec.lean ====
section
/-! SUPPORT. One equation per instruction: `exec` in terms of the shared operation it stands for, so that no proof unfolds a meaning.
(`RX.BYTE` has its own in Laws/Invariant.lean, as a record update.) -/

namespace Sys2Proof.Machine

variable (s : State)

theorem exec_crc16 (data : List Byte) : exec (.crc16 data) s = .next (s.answer (.crc (crc16 Config.core data))) := rfl

theorem exec_crcAppend (frame : List Byte) : exec (.crcAppend frame) s =
    if frame.length < 2 then .next (s.answer (.tag .refused))
    else .next (s.answer (.frame (crcAppend Config.core frame))) := rfl

theorem exec_crcCheck (frame : List Byte) : exec (.crcCheck frame) s =
    if frame.length < 2 then .next (s.answer (.tag .refused))
    else .next (s.answer (.matched (crcMatches Config.core frame))) := rfl

theorem exec_rxTimeout (now : Time) : exec (.rxTimeout now) s =
    .next ((rxTimeout Config.core now s).1.answer (.tag (rxTimeout Config.core now s).2)) := rfl

theorem exec_rxPoll (now : Time) (avail : List Byte) : exec (.rxPoll now avail) s =
    .next ((rxPoll Config.core now avail s).state.answer
      (.poll (rxPoll Config.core now avail s).consumed (rxPoll Config.core now avail s).events)) := rfl

theorem exec_ringLatest : exec .ringLatest s = .next (s.answer (.record (ringLatest Config.core s))) := rfl

theorem exec_clientInit (now : Time) : exec (.clientInit now) s =
    .next ((clientInit Config.core s).answer (.sent (probeFrame Config.core))) := rfl

theorem exec_clientPoll (now : Time) (avail : List Byte) : exec (.clientPoll now avail) s =
    .next ((rxPoll Config.core now avail (sendIfDue Config.core now s).1).state.answer
      (.clientPoll (sendIfDue Config.core now s).2
        (rxPoll Config.core now avail (sendIfDue Config.core now s).1).consumed
        (rxPoll Config.core now avail (sendIfDue Config.core now s).1).events)) := rfl

theorem exec_excReport : exec .excReport s = .next ((excReport s).1.answer (.tag (excReport s).2)) := rfl

theorem exec_decFrame (len : Len) (now : Time) : exec (.decFrame len now) s =
    .next ((decFrame Config.core len now s).1.answer (.tag (decFrame Config.core len now s).2)) := rfl

theorem exec_unpackBe32 (off : Byte) : exec (.unpackBe32 off) s = .next (s.answer (.word (unpackBe32 s.buf off.toNat))) := rfl

theorem exec_ringWrite (rec : PowerRecord) : exec (.ringWrite rec) s = .next (ringWrite Config.core rec s) := rfl

theorem exec_reqRead (address : Byte) (reg count crc : Half) : exec (.reqRead address reg count crc) s =
    .next (s.transmit (crcAppend Config.core (reqReadBytes address reg count crc))) := rfl

theorem exec_respExc (address function code : Byte) (crc : Half) (now : Time) :
    exec (.respExc address function code crc now) s =
      .next (receive Config.core (respExcBytes address function code crc) now s) := rfl

theorem exec_respRead14 (address : Byte) (payload : Read14) (crc : Half) (now : Time) :
    exec (.respRead14 address payload crc now) s =
      .next (receive Config.core (respRead14Bytes address payload crc) now s) := rfl

theorem exec_respOther (address function byteCount : Byte) (data : List Byte) (crc : Half) (now : Time) :
    exec (.respOther address function byteCount data crc now) s =
      .next (receive Config.core (respOtherBytes address function byteCount data crc) now s) := rfl

/-- What a step is when something waits: exec of what the decoder reads, a poll of bytes that are no frame, a refusal. -/
theorem step_cons {x : Input} {rest : List Input} (h : s.pending = x :: rest) :
    step s = match decode x with
      | .ok i => exec i (s.setPending rest)
      | .error _ => undecoded x (s.setPending rest) := by
  cases s; cases h; rfl

theorem undecoded_transaction (bytes : List Byte) : undecoded (.transaction bytes) s = .next (s.answer (.tag .refused)) := rfl
theorem undecoded_request (frame : List Byte) : undecoded (.request frame) s = .next (s.answer (.tag .refused)) := rfl
theorem undecoded_arrival (frame : List Byte) (now : Time) :
    undecoded (.arrival frame now) s = .next (receive Config.core frame now s) := rfl

end Sys2Proof.Machine
end

