-- ==== Sys2Proof/Laws/Flags.lean ====
section
/-! SUPPORT. The laws of the flag-like predicates: each as the plain condition the spec states. -/

namespace Sys2Proof

/-- Bit 7 of the function code is set exactly from 0x80 up. -/
theorem isExc_iff (b : Byte) : isExc b = true ↔ 0x80#8 ≤ b := by revert b; decide +kernel

/-- The start-of-frame timeout, as numbers. -/
theorem timedOut_iff (now start : Time) :
    timedOut Config.core now start = true ↔ 1000000 < (now - start).toNat := by
  rw [timedOut, elapsed_core, decide_eq_true_iff, BitVec.lt_def]; rfl

/-- The same under the source code's EXC_LEN. -/
theorem timedOut_sourceExcLen_iff (now start : Time) :
    timedOut Config.sourceExcLen now start = true ↔ 1000000 < (now - start).toNat := by
  rw [timedOut, elapsed_sourceExcLen, decide_eq_true_iff, BitVec.lt_def]; rfl

/-- The request period, as numbers. -/
theorem requestDue_iff (now last : Time) :
    requestDue Config.core now last = true ↔ 1000000 < (now - last).toNat := by
  rw [requestDue, elapsed_core, decide_eq_true_iff, BitVec.lt_def]; rfl

/-- The shape the decoder accepts. -/
theorem isDecodable_iff (function : Byte) (len : Len) :
    isDecodable Config.core function len = true ↔ function = 0x03 ∧ len.toNat = 61 := by
  simp [isDecodable, Config.core]

/-- A byte-count as a 9-bit length: nothing is lost. -/
theorem zeroExtend_add_five (b : Byte) : b.zeroExtend 9 + 5 = BitVec.ofNat 9 (b.toNat + 5) := by
  revert b; decide +kernel

end Sys2Proof
end

