-- ==== Sys2Proof/Laws/Invariant.lean ====
section
/-! SUPPORT. How the shared operations of the receiver keep the invariant of Safety.lean, for the spec's configuration and for the source
code's; and `RX.BYTE` as its record update. -/

namespace Sys2Proof.Machine

/-- `RX.BYTE` is the receiver's step, the serial hardware's bookkeeping and the answer. -/
theorem exec_rxByte (b : Byte) (now : Time) (s : State) :
    exec (.rxByte b now) s = .next { (rxStep Config.core b now s).1 with
      upstream :=
        if (rxStep Config.core b now s).2 = .stall then offered b s.upstream else afterConsumed b s.upstream
      results := s.results ++ [.tag (rxStep Config.core b now s).2] } := by
  have h := (rxStep_frame Config.core b now s).2.2.2.1
  simp only [exec, execRxByte, rxByteOn, rxByte, State.answer, State.setUpstream, h]

/-- What the invariant needs of a configuration. -/
structure FitsReceiver (c : Config) : Prop where
  frameMax : c.frameMax = 256
  provLen : c.provLen = 3
  lenOverhead : c.lenOverhead = 5
  excLen_ge : 5 ≤ c.excLen.toNat
  excLen_le : c.excLen.toNat ≤ 256
  ringN : 1 ≤ c.ringN

theorem fitsReceiver_core : FitsReceiver Config.core := ⟨rfl, rfl, rfl, by decide, by decide, by decide⟩

theorem fitsReceiver_sourceExcLen : FitsReceiver Config.sourceExcLen := ⟨rfl, rfl, rfl, by decide, by decide, by decide⟩

variable {c : Config}

/-- The invariant reads only the receiver's registers, the frame buffer and the ring. -/
theorem Inv.congr {s t : State} (hi : Inv c s) (h1 : t.rxState = s.rxState) (h2 : t.rxLen = s.rxLen)
    (h3 : t.rxExpected = s.rxExpected) (h4 : t.buf = s.buf) (h5 : t.ring = s.ring) : Inv c t := by
  obtain ⟨a1, a2, a3, a4, a5, a6, a7, a8, a9, a10, a11, a12⟩ := hi
  constructor <;> simp only [h1, h2, h3, h4, h5] <;> assumption

/-- A receiver that has ended a frame meets the invariant if the two stores do. -/
theorem Inv.endFrame {s : State} (g : FitsReceiver c) (hb : s.buf.wf = true ∧ Cells.below c.frameMax s.buf = true)
    (hr : s.ring.wf = true ∧ Cells.below c.ringN s.ring = true)
    (hs : ∀ slot, slot < c.ringN → s.ring.read slot = zeroRecord ∨ (s.ring.read slot).index.toNat % c.ringN = slot) :
    Inv c s.endFrame where
  sof := by simp
  function := by simp
  dataSize := by simp
  dataSizeWhich := by simp
  data := by simp
  crc := by simp
  announced := by simp
  lenLe := by simp
  full := by simp [g.frameMax]
  slots := hs
  bufOk := hb
  ringOk := hr

/-- The receiver's step on one byte keeps the invariant (10_state.md R28). -/
theorem rxStep_inv (g : FitsReceiver c) (b : Byte) (now : Time) (s : State) (hi : Inv c s) : Inv c (rxStep c b now s).1 := by
  rcases rxStep_cases c b now s with ⟨_, h⟩ | ⟨hg, h1⟩
  · rw [h]; exact hi
  have gfm := g.frameMax
  have hlt : s.rxLen.toNat < 256 := by have := hi.lenLe; rw [g.frameMax] at *; omega
  have hlen : (s.rxLen + 1).toNat = s.rxLen.toNat + 1 := by
    rw [BitVec.toNat_add]; simp; omega
  have hbuf : (s.buf.write s.rxLen.toNat b).wf = true ∧ Cells.below c.frameMax (s.buf.write s.rxLen.toNat b) = true :=
    ⟨Memory.wf_write hi.bufOk.1 _ _, Cells.below_write hi.bufOk.2 (by rw [g.frameMax]; exact hlt) _⟩
  have hrd : ∀ a, (s.buf.write s.rxLen.toNat b).read a = if a = s.rxLen.toNat then b else s.buf.read a :=
    fun a => Memory.read_write hi.bufOk.1 _ _ _
  have hne0 : s.rxLen + 1 ≠ 0 := fun h => absurd (hlen.symm.trans (congrArg BitVec.toNat h)) (by simp)
  rcases h1 with ⟨hs, h⟩ | ⟨hs, h⟩ | ⟨hs, h⟩ | ⟨hs, h⟩ | ⟨hs, he, h⟩ | ⟨hs, he, h⟩ <;> rw [h]
  · have hl := hi.sof.1 hs
    have h1' : s.rxLen + 1 = 1 := by rw [hl]; rfl
    constructor <;> simp only [rxStore, State.setRxLen_rxLen, State.setRxLen_buf, State.setBuf_buf, h1',
          reduceCtorEq, false_iff, false_implies, true_implies, or_self] <;>
        try simp only [State.setRxLen_ring, State.setBuf_ring]
    · decide
    · rw [g.frameMax]; decide
    · rw [g.frameMax]; intro h; exact absurd h (by decide)
    · exact hi.slots
    · exact hbuf
    · exact hi.ringOk
  · have hl := hi.function hs
    have h1' : s.rxLen + 1 = 2 := by rw [hl]; rfl
    constructor <;> simp only [rxStore, State.setRxLen_rxLen, State.setRxLen_buf, State.setBuf_buf, h1',
          reduceCtorEq, false_iff, false_implies, true_implies, or_self] <;>
        try simp only [State.setRxLen_ring, State.setBuf_ring]
    · decide
    · refine ⟨trivial, ?_⟩; split <;> simp
    · exact (congrArg (fun x => if isExc x = true then c.excLen else c.provLen)
        (show (s.buf.write s.rxLen.toNat b).read 1 = b by rw [hrd, if_pos (by rw [hl]; decide)])).symm
    · rw [g.frameMax]; decide
    · rw [g.frameMax]; intro h; exact absurd h (by decide)
    · exact hi.slots
    · exact hbuf
    · exact hi.ringOk
  · obtain ⟨hl, _⟩ := hi.dataSize hs
    have hw := hi.dataSizeWhich hs
    have h1' : s.rxLen + 1 = 3 := by rw [hl]; rfl
    have r1 : (s.buf.write s.rxLen.toNat b).read 1 = s.buf.read 1 := by rw [hrd, if_neg (by rw [hl]; decide)]
    have r2 : (s.buf.write s.rxLen.toNat b).read 2 = b := by rw [hrd, if_pos (by rw [hl]; rfl)]
    have hb := b.isLt
    constructor <;> simp only [rxStore, State.setRxLen_rxLen, State.setRxLen_buf, State.setBuf_buf, h1',
          reduceCtorEq, false_iff, false_implies, true_implies, true_or, r1, r2] <;>
        try simp only [State.setRxLen_ring, State.setBuf_ring]
    · decide
    · refine ⟨?_, .inl (by decide), by rw [g.frameMax]; decide⟩
      split
      · rename_i hx; rw [hw, if_pos hx]; exact g.excLen_ge
      · rw [g.lenOverhead, zeroExtend_add_five, BitVec.toNat_ofNat]; omega
    · split
      · rename_i hx; rw [hw, if_pos hx]
      · rfl
    · rw [g.frameMax]; decide
    · rw [g.frameMax]; intro h; exact absurd h (by decide)
    · exact hi.slots
    · exact hbuf
    · exact hi.ringOk
  · obtain ⟨d1, d2, d3⟩ := hi.data hs
    have ha := hi.announced (.inl hs)
    have hexp : (s.rxExpected - 2).toNat = s.rxExpected.toNat - 2 := by
      rw [BitVec.toNat_sub]; have := s.rxExpected.isLt; simp; omega
    have r1 : (s.buf.write s.rxLen.toNat b).read 1 = s.buf.read 1 := by rw [hrd, if_neg (by omega)]
    have r2 : (s.buf.write s.rxLen.toNat b).read 2 = s.buf.read 2 := by rw [hrd, if_neg (by omega)]
    have hc : s.rxExpected - 2 ≤ s.rxLen + 1 ↔ s.rxExpected.toNat - 2 ≤ s.rxLen.toNat + 1 := by
      rw [BitVec.le_def, hexp, hlen]
    by_cases hx : s.rxExpected - 2 ≤ s.rxLen + 1
    · simp only [if_pos hx]; rw [hc] at hx
      constructor <;> simp only [rxStore, State.setRxLen_rxLen, State.setRxLen_buf, State.setBuf_buf, reduceCtorEq,
            false_iff, false_implies, true_implies, or_true, r1, r2, hlen, g.frameMax, State.setRxLen_rxExpected,
            State.setBuf_rxExpected] <;>
          try simp only [State.setRxLen_ring, State.setBuf_ring]
      · exact hne0
      · omega
      · exact ha
      · omega
      · intro h; exact ⟨trivial, by omega⟩
      · exact hi.slots
      · rw [← g.frameMax]; exact hbuf
      · exact hi.ringOk
    · simp only [if_neg hx]; rw [hc] at hx
      constructor <;> simp only [rxStore, State.setRxLen_rxLen, State.setRxLen_buf, State.setBuf_buf, reduceCtorEq,
            false_iff, false_implies, true_implies, true_or, r1, r2, hlen, g.frameMax, State.setRxLen_rxExpected,
            State.setBuf_rxExpected] <;>
          try simp only [State.setRxLen_ring, State.setBuf_ring]
      · exact hne0
      · omega
      · exact ha
      · omega
      · intro h; exact ⟨trivial, by omega⟩
      · exact hi.slots
      · rw [← g.frameMax]; exact hbuf
      · exact hi.ringOk
  · have d := hi.crc hs
    have ha := hi.announced (.inr hs)
    have r1 : (s.buf.write s.rxLen.toNat b).read 1 = s.buf.read 1 := by rw [hrd, if_neg (by omega)]
    have r2 : (s.buf.write s.rxLen.toNat b).read 2 = s.buf.read 2 := by rw [hrd, if_neg (by omega)]
    have he' : s.rxLen.toNat + 1 ≠ s.rxExpected.toNat := by
      intro h; exact he (BitVec.eq_of_toNat_eq (by rw [hlen, h]))
    constructor <;> simp only [rxStore, State.setRxLen_rxLen, State.setRxLen_buf, State.setBuf_buf, reduceCtorEq,
          false_iff, false_implies, true_implies, or_true, r1, r2, hlen, g.frameMax, State.setRxLen_rxExpected,
          State.setBuf_rxExpected, State.setRxLen_rxState, State.setBuf_rxState, hs] <;>
        try simp only [State.setRxLen_ring, State.setBuf_ring]
    · exact hne0
    · rw [g.frameMax] at d; omega
    · exact ha
    · omega
    · intro h; exact ⟨trivial, by rw [g.frameMax] at d; omega⟩
    · exact hi.slots
    · rw [← g.frameMax]; exact hbuf
    · exact hi.ringOk
  · rcases classify_cases c now (rxStore b s) with ⟨_, h⟩ | ⟨_, _, h⟩ | ⟨_, _, _, h⟩ | ⟨_, _, _, h⟩ <;> rw [h]
    · exact Inv.endFrame g hbuf hi.ringOk hi.slots
    · exact Inv.endFrame g hbuf hi.ringOk hi.slots
    · refine Inv.endFrame g hbuf
        ⟨Ring.wf_write hi.ringOk.1 _ _, Cells.below_write hi.ringOk.2 (Nat.mod_lt _ g.ringN) _⟩ ?_
      intro slot hslot
      show (Ring.read (Ring.write s.ring _ _) slot = _ ∨ (Ring.read (Ring.write s.ring _ _) slot).index.toNat % _ = _)
      rw [Ring.read_write hi.ringOk.1]
      split
      · rename_i h; right; rw [h]; rfl
      · exact hi.slots slot hslot
    · exact Inv.endFrame g hbuf hi.ringOk hi.slots

/-- The timeout check keeps it. -/
theorem rxTimeout_inv (g : FitsReceiver c) (now : Time) (s : State) (hi : Inv c s) : Inv c (rxTimeout c now s).1 := by
  rcases rxTimeout_cases c now s with ⟨_, _, h⟩ | ⟨_, h⟩ <;> rw [h]
  · exact Inv.endFrame g hi.bufOk hi.ringOk hi.slots
  · exact hi
/-- A poll keeps it. -/
theorem rxPoll_inv (g : FitsReceiver c) (now : Time) (avail : List Byte) (s : State) (hi : Inv c s) : Inv c (rxPoll c now avail s).state := by
  have := drain_induction (P := Inv c) (fun b s h => rxStep_inv g b now s h) avail _ (rxTimeout_inv g now s hi)
  exact this.congr rfl rfl rfl rfl rfl

end Sys2Proof.Machine
end

