-- ==== Sys2Proof/Laws/Frames.lean ====
section
/-! SUPPORT. A whole frame through the drain: header, data, and the last byte with its classification (41_frame_receiver.md R82 to R86). -/

namespace Sys2Proof.Machine

variable {c : Config}

/-- Data bytes that do not complete the frame are stored, one after another, and report nothing. -/
theorem drain_data (g : FitsReceiver c) (now : Time) (l : List Byte) (s : State) (hi : Inv c s)
    (hs : s.rxState = .waitData ∨ s.rxState = .waitCrc) (he : s.rxLen.toNat + l.length < s.rxExpected.toNat)
    (hm : s.rxLen.toNat + l.length ≤ 256) :
    ∃ t, drain c now l s = { state := t, consumed := l.length, events := [] } ∧ Inv c t ∧
      (t.rxState = .waitData ∨ t.rxState = .waitCrc) ∧ t.rxLen.toNat = s.rxLen.toNat + l.length ∧
      t = { s with rxState := t.rxState, rxLen := t.rxLen, buf := t.buf } ∧
      ∀ a, t.buf.read a =
        if s.rxLen.toNat ≤ a ∧ a < s.rxLen.toNat + l.length then l.getD (a - s.rxLen.toNat) 0 else s.buf.read a := by
  induction l generalizing s with
  | nil => exact ⟨s, rfl, hi, hs, by simp, rfl, fun a => by rw [if_neg (by simp)]⟩
  | cons b l ih =>
    simp only [List.length_cons] at he hm
    have hlen : (s.rxLen + 1).toNat = s.rxLen.toNat + 1 := by
      rw [BitVec.toNat_add]; simp; omega
    have key : (rxStep c b now s).2 = .none ∧
        ((rxStep c b now s).1.rxState = .waitData ∨ (rxStep c b now s).1.rxState = .waitCrc) ∧
        (rxStep c b now s).1 = { rxStore b s with rxState := (rxStep c b now s).1.rxState } := by
      rcases rxStep_cases c b now s with ⟨h0, h⟩ | ⟨_, ⟨h', h⟩ | ⟨h', h⟩ | ⟨h', h⟩ | ⟨h', h⟩ | ⟨h', _, h⟩ | ⟨h', h1, h⟩⟩
      · rw [g.frameMax] at h0; omega
      · simp [h'] at hs
      · simp [h'] at hs
      · simp [h'] at hs
      · rw [h]
        refine ⟨rfl, ?_, rfl⟩
        show (if _ then _ else _) = _ ∨ (if _ then _ else _) = _
        split <;> simp
      · rw [h]; exact ⟨rfl, hs, rfl⟩
      · rw [← h1, hlen] at he; omega
    obtain ⟨k1, k2, k3⟩ := key
    have kl : (rxStep c b now s).1.rxLen.toNat = s.rxLen.toNat + 1 := by rw [k3]; exact hlen
    have kb : (rxStep c b now s).1.buf = s.buf.write s.rxLen.toNat b := by rw [k3]; rfl
    have ke : (rxStep c b now s).1.rxExpected = s.rxExpected := by rw [k3]; rfl
    obtain ⟨t, e1, e2, e3, e4, e5, e6⟩ :=
      ih _ (rxStep_inv g b now s hi) k2 (by rw [kl, ke]; omega) (by rw [kl]; omega)
    refine ⟨t, ?_, e2, e3, by rw [e4, kl]; simp; omega, by rw [e5, k3]; rfl, fun a => ?_⟩
    · rw [drain_cons_go _ (by rw [k1]; simp) (by rw [k1]; simp), e1, k1]; simp
    · rw [e6 a, kl, kb, Memory.read_write hi.bufOk.1]
      simp only [List.length_cons]
      by_cases h1 : a = s.rxLen.toNat
      · subst h1
        rw [if_neg (by omega), if_pos rfl, if_pos (by omega)]; simp
      · rw [if_neg h1]
        by_cases h2 : s.rxLen.toNat + 1 ≤ a ∧ a < s.rxLen.toNat + 1 + l.length
        · rw [if_pos h2, if_pos (by omega)]
          obtain ⟨k, rfl⟩ : ∃ k, a = s.rxLen.toNat + 1 + k := ⟨a - (s.rxLen.toNat + 1), by omega⟩
          rw [show s.rxLen.toNat + 1 + k - (s.rxLen.toNat + 1) = k by omega,
            show s.rxLen.toNat + 1 + k - s.rxLen.toNat = k + 1 by omega]
          simp
        · rw [if_neg h2, if_neg (by omega)]

/-- The three header bytes of a frame, from `WAIT_SOF`: the third (or the function's bit 7) announces the length. -/
theorem drain_header (g : FitsReceiver c) (now : Time) (a f b : Byte) (s : State) (hi : Inv c s)
    (hs : s.rxState = .waitSof) :
    ∃ t, drain c now [a, f, b] s = { state := t, consumed := 3, events := [] } ∧ Inv c t ∧
      t.rxExpected.toNat = (if isExc f then c.excLen.toNat else b.toNat + 5) ∧
      t = { s with rxState := .waitData, rxLen := 3, rxExpected := t.rxExpected, rxStartTs := clockBits c now, buf := t.buf } ∧
      ∀ i, t.buf.read i = ([a, f, b][i]?).getD (s.buf.read i) := by
  have hl := hi.sof.1 hs
  have w0 := hi.bufOk.1
  have n0 : s.rxLen.toNat = 0 := by rw [hl]; rfl
  have s1 : rxStep c a now s =
      ({ s with buf := s.buf.write 0 a, rxLen := 1, rxStartTs := clockBits c now, rxState := .waitFunction }, .none) := by
    simp only [rxStep, g.frameMax, n0, hs]
    simp only [rxWaitSof, rxStore, hl, State.setRxLen, State.setBuf]; rfl
  have s2 (u : State) (hu : u.rxState = .waitFunction) (hul : u.rxLen = 1) : rxStep c f now u =
      ({ u with
          buf := u.buf.write 1 f, rxLen := 2, rxExpected := if isExc f then c.excLen else c.provLen
          rxState := .waitDataSize }, .none) := by
    simp only [rxStep, g.frameMax, hul, hu]
    simp only [rxWaitFunction, rxStore, hul, State.setRxLen, State.setBuf]; rfl
  have s3 (u : State) (hu : u.rxState = .waitDataSize) (hul : u.rxLen = 2) : rxStep c b now u =
      ({ u with
          buf := u.buf.write 2 b, rxLen := 3
          rxExpected := if isExc ((u.buf.write 2 b).read 1) then u.rxExpected else b.zeroExtend 9 + c.lenOverhead
          rxState := .waitData }, .none) := by
    rcases rxStep_cases c b now u with ⟨h0, h⟩ | ⟨_, ⟨h', h⟩ | ⟨h', h⟩ | ⟨h', h⟩ | ⟨h', h⟩ | ⟨h', _, h⟩ | ⟨h', _, h⟩⟩
    · rw [g.frameMax, hul] at h0; simp at h0
    · rw [hu] at h'; cases h'
    · rw [hu] at h'; cases h'
    · rw [h]; simp only [rxStore, hul, State.setRxLen, State.setBuf]; rfl
    all_goals (rw [hu] at h'; cases h')
  have hd : drain c now [a, f, b] s =
      { state := { s with
          rxState := .waitData, rxLen := 3, rxStartTs := clockBits c now, buf := ((s.buf.write 0 a).write 1 f).write 2 b
          rxExpected :=
            if isExc ((((s.buf.write 0 a).write 1 f).write 2 b).read 1) then (if isExc f then c.excLen else c.provLen)
            else b.zeroExtend 9 + c.lenOverhead }
        consumed := 3, events := [] } := by
    rw [drain_cons_go _ (by rw [s1]; simp) (by rw [s1]; simp), s1]
    rw [drain_cons_go _ (by rw [s2 _ rfl rfl]; simp) (by rw [s2 _ rfl rfl]; simp), s2 _ rfl rfl]
    rw [drain_cons_go _ (by rw [s3 _ rfl rfl]; simp) (by rw [s3 _ rfl rfl]; simp), s3 _ rfl rfl]
    rfl
  have hinv : Inv c (drain c now [a, f, b] s).state :=
    drain_induction (P := Inv c) (fun b s h => rxStep_inv g b now s h) _ s hi
  rw [hd] at hinv
  have w1 := Memory.wf_write w0 0 a
  have w2 := Memory.wf_write w1 1 f
  refine ⟨_, hd, hinv, ?_, rfl, fun i => ?_⟩
  · have h1 : (((s.buf.write 0 a).write 1 f).write 2 b).read 1 = f := by
      rw [Memory.read_write w2, if_neg (by decide), Memory.read_write w1, if_pos rfl]
    have hb := b.isLt
    simp only [h1]
    by_cases h : isExc f = true
    · simp [h]
    · simp [h, g.lenOverhead]; omega
  · show (((s.buf.write 0 a).write 1 f).write 2 b).read i = _
    rw [Memory.read_write w2, Memory.read_write w1, Memory.read_write w0]
    rcases i with _ | _ | _ | i <;> simp

/-- A completed frame reports something, and not a stall. -/
theorem classify_tag (c : Config) (now : Time) (s : State) :
    (classify c now s).2 ≠ .none ∧ (classify c now s).2 ≠ .stall := by
  rcases classify_cases c now s with ⟨_, h⟩ | ⟨_, _, h⟩ | ⟨_, _, _, h⟩ | ⟨_, _, _, h⟩ <;> rw [h] <;> simp

/-- The state a frame of `n` bytes in the buffer `m` is classified in. -/
def filled (s : State) (start : Time) (n : Nat) (m : Memory) : State :=
  { s with rxState := .waitCrc, rxLen := BitVec.ofNat 9 n, rxExpected := BitVec.ofNat 9 n, rxStartTs := start, buf := m }

/-- A whole frame of the announced length, at most 256 bytes, from `WAIT_SOF`: all but its last byte report nothing; then the buffer
holds exactly the frame and it is classified. -/
theorem drain_frame (g : FitsReceiver c) (now : Time) (a f b : Byte) (mid : List Byte) (last : Byte) (s : State)
    (hi : Inv c s) (hs : s.rxState = .waitSof)
    (hE : (if isExc f then c.excLen.toNat else b.toNat + 5) = mid.length + 4) (hm : mid.length + 4 ≤ 256) :
    ∃ m : Memory,
      (∀ i, m.read i = ((a :: f :: b :: (mid ++ [last]))[i]?).getD (s.buf.read i)) ∧
      m.slice 0 (mid.length + 4) = a :: f :: b :: (mid ++ [last]) ∧
      drain c now (a :: f :: b :: (mid ++ [last])) s =
        { state := (classify c now (filled s (clockBits c now) (mid.length + 4) m)).1.endFrame
          consumed := mid.length + 4
          events := [(classify c now (filled s (clockBits c now) (mid.length + 4) m)).2] } := by
  obtain ⟨s0, h1, h2, h5, h6, h7⟩ := drain_header g now a f b s hi hs
  rw [hE] at h5
  have h4 : s0.rxLen.toNat = 3 := by rw [h6]; rfl
  obtain ⟨s1, f1, f2, f3, f4, f5, f6⟩ :=
    drain_data g now mid s0 h2 (.inl (by rw [h6])) (by rw [h4, h5]; omega) (by rw [h4]; omega)
  have l1 : s1.rxLen.toNat = mid.length + 3 := by rw [f4, h4]; omega
  have e1 : s1.rxExpected.toNat = mid.length + 4 := by rw [f5]; exact h5
  have hlen : (s1.rxLen + 1).toNat = mid.length + 4 := by
    rw [BitVec.toNat_add, l1]; simp; omega
  have hwc : s1.rxState = .waitCrc := by
    rcases f3 with f3 | f3
    · have h := (f2.data f3).2.1
      have h' := (f2.data f3).1
      rw [l1, e1] at h
      rw [e1] at h'
      omega
    · exact f3
  have hx : s1.rxExpected = BitVec.ofNat 9 (mid.length + 4) :=
    BitVec.eq_of_toNat_eq (by rw [e1, BitVec.toNat_ofNat, Nat.mod_eq_of_lt (by omega)])
  have hy : s1.rxLen + 1 = BitVec.ofNat 9 (mid.length + 4) :=
    BitVec.eq_of_toNat_eq (by rw [hlen, BitVec.toNat_ofNat, Nat.mod_eq_of_lt (by omega)])
  have hfill : rxStore last s1 = filled s (clockBits c now) (mid.length + 4) (s1.buf.write (mid.length + 3) last) := by
    unfold rxStore State.setRxLen State.setBuf filled
    rw [hy, l1, ← hx]
    conv_lhs => rw [f5, hwc]
    conv_lhs => rw [h6]
    rw [show s1.rxExpected = s0.rxExpected by rw [f5]]
  have st : rxStep c last now s1 =
      ((classify c now (rxStore last s1)).1.endFrame, (classify c now (rxStore last s1)).2) := by
    rcases rxStep_cases c last now s1 with ⟨h0, h⟩ | ⟨_, ⟨h', h⟩ | ⟨h', h⟩ | ⟨h', h⟩ | ⟨h', h⟩ | ⟨h', hx, h⟩ | ⟨h', hx, h⟩⟩
    · rw [g.frameMax, l1] at h0; omega
    any_goals (rw [hwc] at h'; cases h'; done)
    · exact absurd (BitVec.eq_of_toNat_eq (by rw [hlen, e1])) hx
    · exact h
  have hrd : ∀ i, (s1.buf.write (mid.length + 3) last).read i =
      ((a :: f :: b :: (mid ++ [last]))[i]?).getD (s.buf.read i) := by
    intro i
    rw [Memory.read_write f2.bufOk.1, f6, h4, h7]
    rcases i with _ | _ | _ | i
    · simp
    · simp
    · simp
    · simp only [List.getElem?_cons_succ, List.getElem?_nil, Option.getD_none]
      by_cases h1 : i = mid.length
      · subst h1; simp
      · rw [if_neg (by omega)]
        by_cases h2 : i < mid.length
        · rw [if_pos (by omega), List.getElem?_append_left h2]
          simp [List.getD, h2]
        · rw [if_neg (by omega), List.getElem?_eq_none (by simp; omega)]; rfl
  refine ⟨s1.buf.write (mid.length + 3) last, hrd, ?_, ?_⟩
  · apply List.ext_getElem?
    intro i
    rw [Memory.getElem?_slice]
    split
    · rw [Nat.zero_add, hrd, List.getElem?_eq_getElem (by simp; omega)]; rfl
    · rw [List.getElem?_eq_none (by simp; omega)]
  · rw [hfill] at st
    have ct := classify_tag c now (filled s (clockBits c now) (mid.length + 4) (s1.buf.write (mid.length + 3) last))
    have hd := drain_append (l₂ := mid ++ [last]) h1
    rw [drain_append (l₂ := [last]) f1] at hd
    rw [show a :: f :: b :: (mid ++ [last]) = [a, f, b] ++ (mid ++ [last]) from rfl, hd]
    by_cases hc : (classify c now (filled s (clockBits c now) (mid.length + 4) (s1.buf.write (mid.length + 3) last))).2 = .crcError
    · rw [drain_cons_crcError _ (by rw [st]; exact hc), st]; simp [hc]; omega
    · rw [drain_cons_go _ (by rw [st]; exact ct.2) (by rw [st]; exact hc), st]
      simp [event_of_ne ct.1]; omega

end Sys2Proof.Machine
end

