-- ==== Sys2Proof/Laws/PerInstr.lean ====
section
/-! SUPPORT. One statement per instruction, about its encoding (30_encoding.md R55, R57, R62): an internal operation has none; a
transaction begins with a byte whose bits 7:4 are 0 and whose code is not 0; a wire frame has at least five bytes. -/

namespace Sys2Proof.Laws.PortCode

/-- What holds of the encoding of every instruction. -/
def Statement (i : Instr) : Prop :=
  (encode i = none ↔ i.isInternal = true) ∧
  (∀ bytes, encode i = some (.transaction bytes) →
    ∃ op rest, bytes = op :: rest ∧ op.extractLsb' 4 4 = 0 ∧ op.extractLsb' 0 4 ≠ 0) ∧
  (∀ frame now, encode i = some (.arrival frame now) → 5 ≤ frame.length) ∧
  (∀ frame, encode i = some (.request frame) → frame.length = 8)

/-- An internal operation: no encoding. -/
theorem of_none {i : Instr} (h : encode i = none) (hi : i.isInternal = true) : Statement i := by
  simp [Statement, h, hi]

/-- A port operation: its first byte. -/
theorem of_transaction {i : Instr} {op : Byte} {rest : List Byte} (h : encode i = some (.transaction (op :: rest)))
    (hi : i.isInternal = false) (h1 : op.extractLsb' 4 4 = 0) (h2 : op.extractLsb' 0 4 ≠ 0) : Statement i := by
  refine ⟨by simp [h, hi], fun bytes hb => ?_, by simp [h], by simp [h]⟩
  rw [h] at hb; cases hb; exact ⟨op, rest, rfl, h1, h2⟩

/-- A received frame: its length. -/
theorem of_arrival {i : Instr} {frame : List Byte} {now : Time} (h : encode i = some (.arrival frame now))
    (hi : i.isInternal = false) (h1 : 5 ≤ frame.length) : Statement i := by
  refine ⟨by simp [h, hi], by simp [h], fun frame' now' hb => ?_, by simp [h]⟩
  rw [h] at hb; cases hb; exact h1

theorem crc16 (data : List Byte) : Statement (.crc16 data) :=
  of_transaction rfl rfl rfl (by decide)

theorem crcAppend (frame : List Byte) : Statement (.crcAppend frame) :=
  of_transaction rfl rfl rfl (by decide)

theorem crcCheck (frame : List Byte) : Statement (.crcCheck frame) :=
  of_transaction rfl rfl rfl (by decide)

theorem rxByte (b : Byte) (now : Time) : Statement (.rxByte b now) :=
  of_transaction rfl rfl rfl (by decide)

theorem rxTimeout (now : Time) : Statement (.rxTimeout now) :=
  of_transaction rfl rfl rfl (by decide)

theorem rxPoll (now : Time) (avail : List Byte) : Statement (.rxPoll now avail) :=
  of_transaction rfl rfl rfl (by decide)

theorem ringLatest : Statement .ringLatest :=
  of_transaction rfl rfl rfl (by decide)

theorem clientInit (now : Time) : Statement (.clientInit now) :=
  of_transaction rfl rfl rfl (by decide)

theorem clientPoll (now : Time) (avail : List Byte) : Statement (.clientPoll now avail) :=
  of_transaction rfl rfl rfl (by decide)

theorem excReport : Statement .excReport :=
  of_none rfl rfl

theorem decFrame (len : Len) (now : Time) : Statement (.decFrame len now) :=
  of_none rfl rfl

theorem unpackBe32 (off : Byte) : Statement (.unpackBe32 off) :=
  of_none rfl rfl

theorem ringWrite (rec : PowerRecord) : Statement (.ringWrite rec) :=
  of_none rfl rfl

theorem reqRead (address : Byte) (reg : Half) (count : Half) (crc : Half) : Statement (.reqRead address reg count crc) := by
  refine ⟨by simp [encode, Instr.isInternal], by simp [encode], by simp [encode], fun frame h => ?_⟩
  cases h; rfl

theorem respExc (address : Byte) (function : Byte) (code : Byte) (crc : Half) (now : Time) : Statement (.respExc address function code crc now) :=
  of_arrival rfl rfl (by simp [respExcBytes])

theorem respRead14 (address : Byte) (payload : Read14) (crc : Half) (now : Time) : Statement (.respRead14 address payload crc now) :=
  of_arrival rfl rfl (by simp [respRead14Bytes])

theorem respOther (address : Byte) (function : Byte) (byteCount : Byte) (data : List Byte) (crc : Half) (now : Time) : Statement (.respOther address function byteCount data crc now) :=
  of_arrival rfl rfl (by simp [respOtherBytes])

end Sys2Proof.Laws.PortCode
end

