-- ==== Sys2Proof/Laws/Ring.lean ====
section
/-! SUPPORT. The laws of the Measurement Ring Buffer: the two slot expressions as numbers, and the read after a write. -/

namespace Sys2Proof.Machine

/-- The latest slot as a number: 15 when the counter is 0 (43_ring_buffer.md R117). -/
theorem latestSlot_core (wc : Word32) : latestSlot Config.core wc = if wc = 0 then 15 else (wc.toNat - 1) % 60 := by
  rw [latestSlot, counterBits_core]
  split <;> rename_i h
  · subst h; rfl
  · have h0 : wc.toNat ≠ 0 := fun h' => h (BitVec.eq_of_toNat_eq h')
    have := wc.isLt
    rw [BitVec.toNat_sub]; congr 1; simp; omega

/-- What `RING.WRITE` writes: the slot, the counter, nothing else. -/
theorem ringWrite_eq (c : Config) (rec : PowerRecord) (s : State) :
    ringWrite c rec s = { s with ring := s.ring.write (writeSlot c s.wc) rec, wc := counterBits c (s.wc + 1) } := rfl

/-- After a write the latest record is the one written, at every value of the counter and every width it may have. -/
theorem ringLatest_ringWrite {c : Config} {s : State} (hw : c.wcWidth ≤ 32) (hc : s.wc.toNat < 2 ^ c.wcWidth)
    (h : s.ring.wf = true) (rec : PowerRecord) : ringLatest c (ringWrite c rec s) = rec := by
  simp only [ringLatest, ringWrite, State.setWc_wc, State.setWc_ring, State.setRing_ring, latestSlot, writeSlot]
  rw [Ring.read_write h, if_pos]
  rw [counterBits, counterBits, lowBits_lowBits_sub hw, BitVec.add_sub_cancel, lowBits_of_lt hc]

end Sys2Proof.Machine
end

