-- ==== Sys2Proof/Tests/Slice0.lean ====
section
/-! SUPPORT. The model's own tests. Expected values come from 95_test_vectors.md (V<n>) or from the encodings of 30_encoding.md, never from
the model. Then one witness for the hypotheses of every statement of Certificates/Slice0/Obligations.lean. -/

namespace Sys2Proof.Tests

open Sys2Proof Sys2Proof.Machine

set_option Elab.async false

/-! ### Frames of 95_test_vectors.md section 3 -/

/-- Frame A. -/
def frameA : List Byte :=
  [0x01, 0x03, 0x38, 0x00, 0x23, 0x1D, 0x32, 0x00, 0x00, 0x30, 0x39, 0x00, 0x00, 0x13, 0x88, 0x00, 0x12, 0xD6, 0x87, 0x00] ++
  [0x00, 0x03, 0xDB, 0xDE, 0xAD, 0xBE, 0xEF, 0x01, 0x00, 0x00, 0x00, 0x00, 0x00, 0x13, 0x86, 0x01, 0x02, 0x03, 0x04, 0x00] ++
  [0x00, 0x00, 0x43, 0x00, 0x00, 0x3A, 0xA1, 0x00, 0x00, 0x00, 0x09, 0x00, 0x00, 0x03, 0xE8, 0xFF, 0xFF, 0xFF, 0xFF, 0x7B] ++
  [0x4D]

/-- Frame B: frame A with byte 58 = FE. -/
def frameB : List Byte := frameA.set 58 0xFE

/-- Frame D. -/
def frameD : List Byte :=
  [0x01, 0x03, 0x38, 0x00, 0x00, 0x00, 0x00, 0x00, 0x00, 0x00, 0x00, 0x00, 0x00, 0x00, 0x13, 0x00, 0x00, 0x00, 0x00, 0x00] ++
  [0x00, 0x00, 0x00, 0x00, 0x00, 0x00, 0x00, 0x00, 0xFF, 0x00, 0x00, 0x19, 0x99, 0x99, 0x9A, 0x00, 0x00, 0x00, 0x00, 0x00] ++
  [0x00, 0x00, 0x00, 0x00, 0x00, 0x00, 0x09, 0x00, 0x00, 0x00, 0x00, 0x00, 0x00, 0x00, 0x00, 0x00, 0x00, 0x00, 0x00, 0x82] ++
  [0x82]

/-- Frame X: an exception response. -/
def frameX : List Byte := [0x01, 0x83, 0x02, 0xC0, 0xF1]

/-- V26: the shortest frame, byte-count 0. -/
def frameShort : List Byte := [0x01, 0x03, 0x00, 0x20, 0xF0]

/-- The record of V40, taken at `now` with index `index`. -/
def recordA (index : Word32) (now : Time) : PowerRecord where
  index := index
  timestampUs := now
  voltageMv := 230123
  frequency := 49980
  ch0 := { currentMa := 1234, puissanceActiveMw := 0xFFFFFE0C, energyWh := 123456, powerFactor := 987 }
  ch1 := { currentMa := 6, puissanceActiveMw := 0x000005DC, energyWh := 0, powerFactor := 1000 }

/-- The payload of frame A (section 3, column "raw value"). -/
def payloadA : Read14 where
  voltage := 2301234
  current1 := 12345
  power1 := 5000
  energy1 := 1234567
  powerFactor1 := 987
  ignored23 := 0xDEADBEEF
  sign1 := 0x01
  sign2 := 0x00
  ignored29 := 0x0000
  frequency := 4998
  ignored35 := 0x01020304
  current2 := 67
  power2 := 15009
  energy2 := 9
  powerFactor2 := 1000
  ignored55 := 0xFFFFFFFF

/-- A payload of zeros. -/
def payloadZ : Read14 where
  voltage := 0
  current1 := 0
  power1 := 0
  energy1 := 0
  powerFactor1 := 0
  ignored23 := 0
  sign1 := 0
  sign2 := 0
  ignored29 := 0
  frequency := 0
  ignored35 := 0
  current2 := 0
  power2 := 0
  energy2 := 0
  powerFactor2 := 0
  ignored55 := 0

/-! ### Helpers -/

/-- The reset state with one input waiting. -/
def presented (x : Input) : State := { State.reset with pending := [x] }

/-- The frame buffer that holds `bytes` from offset `a`. -/
def bufOf (a : Nat) (bytes : List Byte) : Memory :=
  match bytes with
  | [] => []
  | b :: rest => (bufOf (a + 1) rest).write a b

/-- A receiver in the given state, with `bytes` in its buffer. -/
def receiving (r : RxState) (expected : Len) (start : Time) (bytes : List Byte) : State :=
  { State.reset with
    rxState := r, rxLen := BitVec.ofNat 9 bytes.length, rxExpected := expected, rxStartTs := start, buf := bufOf 0 bytes }

/-- What is asked of a next state. -/
def nextIs (o : Host.Outcome State Fault Refusal) (p : State → Bool) : Bool :=
  match o with
  | .next t => p t
  | .fault _ => false
  | .refused _ => false

/-- The example parameters of section 7: SLAVE_ADDR 0x01, REQ_START_REG 0x0048. -/
def exampleConfig : Config := { Config.core with slaveAddr := 0x01, reqStartReg := 0x0048 }

/-! ### WellFormed: each check refuses an ill-formed term -/

theorem fitsN2_replicate (n : Nat) : fitsN2 (List.replicate n 0) = decide (n < 65536) := by simp [fitsN2]

theorem test_wf_crc16 : Instr.wf (.crc16 (List.replicate 65536 0)) = false := (fitsN2_replicate _).trans (by decide)
theorem test_wf_crcAppend : Instr.wf (.crcAppend (List.replicate 65536 0)) = false := (fitsN2_replicate _).trans (by decide)
theorem test_wf_crcCheck : Instr.wf (.crcCheck (List.replicate 65536 0)) = false := (fitsN2_replicate _).trans (by decide)
theorem test_wf_rxPoll : Instr.wf (.rxPoll 0 (List.replicate 65536 0)) = false := (fitsN2_replicate _).trans (by decide)
theorem test_wf_clientPoll : Instr.wf (.clientPoll 0 (List.replicate 65536 0)) = false := (fitsN2_replicate _).trans (by decide)
theorem test_wf_longest : Instr.wf (.crc16 (List.replicate 65535 0)) = true := (fitsN2_replicate _).trans (by decide)
theorem test_wf_decFrame : Instr.wf (.decFrame 257 0) = false ∧ Instr.wf (.decFrame 256 0) = true := by decide
theorem test_wf_unpackBe32 : Instr.wf (.unpackBe32 253) = false ∧ Instr.wf (.unpackBe32 252) = true := by decide
theorem test_wf_respExc : Instr.wf (.respExc 1 0x03 2 0 0) = false ∧ Instr.wf (.respExc 1 0x83 2 0 0) = true := by decide
theorem test_wf_respOther_exc : Instr.wf (.respOther 1 0x83 0 [] 0 0) = false := by decide
theorem test_wf_respOther_read14 : Instr.wf (.respOther 1 0x03 0x38 (List.replicate 56 0) 0 0) = false := by decide
theorem test_wf_respOther_length : Instr.wf (.respOther 1 0x03 2 [0] 0 0) = false ∧
    Instr.wf (.respOther 1 0x03 1 [0] 0 0) = true := by decide

/-! ### Decode: a word of every constructor, written out from 30_encoding.md R51 to R53, R57 -/

theorem test_decode_crc16 : decode (.transaction [0x01, 0x00, 0x02, 0xAA, 0x55]) = .ok (.crc16 [0xAA, 0x55]) := by decide
theorem test_decode_crcAppend : decode (.transaction [0x02, 0x00, 0x02, 0x12, 0x34]) = .ok (.crcAppend [0x12, 0x34]) := by
  decide
theorem test_decode_crcCheck : decode (.transaction [0x03, 0x00, 0x01, 0x7F]) = .ok (.crcCheck [0x7F]) := by decide
/-- V21. -/
theorem test_decode_rxByte : decode (.transaction [0x04, 0x01, 0, 0, 0, 0, 0, 0, 0x03, 0xE8]) = .ok (.rxByte 0x01 1000) := by
  decide
/-- V33. -/
theorem test_decode_rxTimeout : decode (.transaction [0x05, 0, 0, 0, 0, 0, 0x0F, 0x46, 0x28]) = .ok (.rxTimeout 1001000) := by
  decide
/-- P6: the first byte of `N2` weighs 256. -/
theorem test_decode_rxPoll :
    decode (.transaction ([0x06, 0, 0, 0, 0, 0, 0, 0, 0x0A, 0x01, 0x07] ++ List.replicate 263 0xAA)) =
      .ok (.rxPoll 10 (List.replicate 263 0xAA)) := by decide +kernel
/-- V50. -/
theorem test_decode_ringLatest : decode (.transaction [0x07]) = .ok .ringLatest := by decide
theorem test_decode_clientInit : decode (.transaction [0x08, 0x01, 0, 0, 0, 0, 0, 0, 0]) =
    .ok (.clientInit 0x0100000000000000) := by decide
/-- P7. -/
theorem test_decode_clientPoll : decode (.transaction [0x09, 0, 0, 0, 0, 0, 0x07, 0xA1, 0x20, 0x00, 0x00]) =
    .ok (.clientPoll 500000 []) := by decide
/-- V8. -/
theorem test_decode_reqRead : decode (.request [0x01, 0x03, 0x00, 0x48, 0x00, 0x0E, 0x44, 0x18]) =
    .ok (.reqRead 0x01 0x0048 0x000E 0x4418) := by decide
theorem test_decode_respExc : decode (.arrival frameX 7) = .ok (.respExc 0x01 0x83 0x02 0xC0F1 7) := by decide
theorem test_decode_respRead14 : decode (.arrival frameA 7) = .ok (.respRead14 0x01 payloadA 0x7B4D 7) := by decide +kernel
theorem test_decode_respOther : decode (.arrival [0x01, 0x04, 0x02, 0xAB, 0xCD, 0x12, 0x34] 7) =
    .ok (.respOther 0x01 0x04 0x02 [0xAB, 0xCD] 0x1234 7) := by decide
/-- 30_encoding.md R65, the `INTERNAL` rows `EXC.REPORT` and `DEC.FRAME`: bit 7 of the function selects. -/
theorem test_select_internal : selectInternal 0x83 5 7 = .excReport ∧ selectInternal 0x03 61 7 = .decFrame 61 7 := by decide
/-- 30_encoding.md R65, the `INTERNAL` rows `UNPACK.BE32` (once per decoded field) and `RING.WRITE` (once). -/
theorem test_select_from_decoder :
    selectFromDecoder Config.core 0x03 0x38 zeroRecord =
      [.unpackBe32 3, .unpackBe32 31, .unpackBe32 7, .unpackBe32 11, .unpackBe32 15, .unpackBe32 19, .unpackBe32 39,
        .unpackBe32 43, .unpackBe32 47, .unpackBe32 51, .ringWrite zeroRecord] ∧
    selectFromDecoder Config.core 0x03 0x37 zeroRecord = [] := by decide +kernel
theorem test_decode_rejects :
    decode (.transaction [0x14, 0]) = .error .reservedBits ∧ decode (.transaction [0x0A]) = .error .reservedCode ∧
    decode (.transaction [0x00]) = .error .reservedCode ∧ decode (.transaction []) = .error .empty ∧
    decode (.transaction [0x05, 0]) = .error .truncated ∧ decode (.transaction [0x07, 0]) = .error .trailing ∧
    decode (.request [1, 4, 0, 0, 0, 1, 0, 0]) = .error .notARequest := by decide
/-- Words of spec/opcode_table.json. -/
theorem test_table_words :
    decodeTableWord 8 0x01 = some (.crc16 []) ∧ decodeTableWord 8 0x07 = some .ringLatest ∧
    decodeTableWord 8 0x04 = some (.rxByte 0 0) ∧ decodeTableWord 24 0x000300 = some (.reqRead 0 0 0 0) ∧
    decodeTableWord 24 0x008000 = some (.respExc 0 0x80 0 0 0) ∧
    decodeTableWord 24 0x000338 = some (.respRead14 0 payloadZ 0 0) ∧
    decodeTableWord 24 0x000000 = some (.respOther 0 0 0 [] 0 0) := by decide +kernel
/-- 30_encoding.md R64. -/
theorem test_expand_rxFrame : expandRxFrame [0x01, 0x03] 1000 1 = [.rxByte 0x01 1000, .rxByte 0x03 1001] := by decide

/-! ### CRC16 Engine -/

/-- V5, V11. -/
theorem test_crc16_vectors :
    crc16 Config.core [0x31, 0x32, 0x33, 0x34, 0x35, 0x36, 0x37, 0x38, 0x39] = 0x374B ∧
    crc16 Config.core [0x01, 0x03, 0x00] = 0x20F0 ∧ stdCrc [0x31, 0x32, 0x33, 0x34, 0x35, 0x36, 0x37, 0x38, 0x39] = 0x4B37 := by
  decide +kernel
/-- V7, as an operation. -/
theorem test_crc16_exec : nextIs (exec (.crc16 [0x11, 0x03, 0x00, 0x6B, 0x00, 0x03]) State.reset)
    (fun t => t.results == [.crc 0x7687]) = true := by decide +kernel
/-- V15: placeholders do not enter the CRC. -/
theorem test_crcAppend : nextIs (exec (.crcAppend [0x01, 0x03, 0x00, 0x00, 0x00, 0x04, 0xAA, 0x55]) State.reset)
    (fun t => t.results == [.frame [0x01, 0x03, 0x00, 0x00, 0x00, 0x04, 0x44, 0x09]]) = true := by decide +kernel
/-- V19a. -/
theorem test_crcAppend_refused : nextIs (exec (.crcAppend [0x01]) State.reset) (fun t => t.results == [.tag .refused]) = true := by
  decide
/-- V17. -/
theorem test_crcCheck : nextIs (exec (.crcCheck frameX) State.reset) (fun t => t.results == [.matched true]) = true := by
  decide +kernel
/-- V18: the wire order is `crc_hi` then `crc_lo`. -/
theorem test_crcCheck_swapped : nextIs (exec (.crcCheck [0x01, 0x83, 0x02, 0xF1, 0xC0]) State.reset)
    (fun t => t.results == [.matched false]) = true := by decide +kernel

/-! ### Frame Receiver -/

/-- V21, from the transaction's bytes. -/
theorem test_rxByte_first : nextIs (step (presented (.transaction [0x04, 0x01, 0, 0, 0, 0, 0, 0, 0x03, 0xE8])))
    (fun t => t.rxState == .waitFunction && t.rxLen == 1 && t.rxStartTs == 1000 && t.buf.read 0 == 0x01 &&
      t.results == [.tag .none]) = true := by decide +kernel
/-- V20, byte 60: the frame is decoded; V40: the record. -/
theorem test_rxByte_decodes : nextIs (exec (.rxByte 0x4D 1060) (receiving .waitCrc 61 1000 (frameA.take 60)))
    (fun t => t.rxState == .waitSof && t.rxLen == 0 && t.rxExpected == 61 && t.wc == 1 &&
      t.ring.read 0 == recordA 0 1060 && t.results == [.tag (.frameDecoded 0)] && t.log == []) = true := by decide +kernel
/-- V33: elapsed exactly 1 000 000 is not more. -/
theorem test_rxTimeout_strict : nextIs (exec (.rxTimeout 1001000) (receiving .waitDataSize 3 1000 [0x01, 0x03]))
    (fun t => t.rxState == .waitDataSize && t.rxLen == 2 && t.results == [.tag .none]) = true := by decide +kernel
/-- V34. -/
theorem test_rxTimeout_expires : nextIs (exec (.rxTimeout 1001001) (receiving .waitDataSize 3 1000 [0x01, 0x03]))
    (fun t => t.rxState == .waitSof && t.rxLen == 0 && t.rxExpected == 3 && t.results == [.tag .timeout]) = true := by
  decide +kernel
/-- V29: the drain continues after a good frame. -/
theorem test_rxPoll_two_frames : nextIs (exec (.rxPoll 9000 (frameA ++ frameA)) State.reset)
    (fun t => t.wc == 2 && t.ring.read 0 == recordA 0 9000 && t.ring.read 1 == recordA 1 9000 &&
      t.results == [.poll 122 [.frameDecoded 0, .frameDecoded 1]]) = true := by decide +kernel
/-- P2: the drain stops after a CRC mismatch; the second frame stays upstream. -/
theorem test_rxPoll_stops : nextIs (exec (.rxPoll 7000 (frameB ++ frameA)) State.reset)
    (fun t => t.wc == 0 && t.upstream == frameA && t.log == [.crcMismatch] && t.rxStartTs == 7000 &&
      t.results == [.poll 61 [.crcError]]) = true := by decide +kernel
/-- Frame X in the buffer: the address and the exception code. -/
theorem test_excReport : nextIs (exec .excReport (receiving .waitCrc 5 0 frameX))
    (fun t => t.log == [.exception 0x01 0x02] && t.results == [.tag (.exception 0x01 0x02)]) = true := by decide +kernel

/-! ### Register Decoder and ring -/

/-- V40d: the first byte is the most significant. -/
theorem test_unpackBe32 : nextIs (exec (.unpackBe32 3) (receiving .waitCrc 61 0 frameA))
    (fun t => t.results == [.word 2301234]) = true := by decide +kernel
/-- V45: truncation, negation of a zero quotient, the frequency product modulo 2^32. -/
theorem test_decFrame_extremes : nextIs (exec (.decFrame 61 42) (receiving .waitCrc 61 0 frameD))
    (fun t => (t.ring.read 0).ch0.puissanceActiveMw == 1 && (t.ring.read 0).ch1.puissanceActiveMw == 0 &&
      (t.ring.read 0).frequency == 4 && t.wc == 1) = true := by decide +kernel
/-- V48: another length is ignored. -/
theorem test_decFrame_ignores : nextIs (exec (.decFrame 21 42) (receiving .waitCrc 61 0 frameD))
    (fun t => t.ring == [] && t.wc == 0 && t.results == [.tag .frameIgnored]) = true := by decide +kernel
/-- V52. -/
theorem test_ringWrite : nextIs (exec (.ringWrite (recordA 59 1)) { State.reset with wc := 59 })
    (fun t => t.ring == [(59, recordA 59 1)] && t.wc == 60) = true := by decide +kernel
/-- V55: the counter wraps, the slot is 15. -/
theorem test_ringWrite_wrap : nextIs (exec (.ringWrite (recordA 4294967295 1)) { State.reset with wc := 4294967295 })
    (fun t => t.ring == [(15, recordA 4294967295 1)] && t.wc == 0) = true := by decide +kernel
/-- V54. -/
theorem test_ringLatest : nextIs (exec .ringLatest { State.reset with wc := 63, ring := [(2, recordA 62 1)] })
    (fun t => t.results == [.record (recordA 62 1)]) = true := by decide +kernel
/-- V57. -/
theorem test_ringLatest_wrap : nextIs (exec .ringLatest { State.reset with wc := 4294967295, ring := [(14, recordA 4294967294 1)] })
    (fun t => t.results == [.record (recordA 4294967294 1)]) = true := by decide +kernel

/-! ### Client Session Driver and the wire -/

/-- V60. -/
theorem test_clientInit : (clientInit exampleConfig State.reset).tx = [0x01, 0x03, 0x00, 0x00, 0x00, 0x04, 0x44, 0x09] ∧
    (clientInit exampleConfig State.reset).lastSendTs = 0 := by decide +kernel
/-- V62, V63. -/
theorem test_clientPoll_due : sendIfDue exampleConfig 1000000 State.reset = (State.reset, []) ∧
    (sendIfDue exampleConfig 1000001 State.reset).2 = [0x01, 0x03, 0x00, 0x48, 0x00, 0x0E, 0x44, 0x18] ∧
    (sendIfDue exampleConfig 1000001 State.reset).1.lastSendTs = 1000001 := by decide +kernel
/-- V64: the poll's receiver part. -/
theorem test_clientPoll : nextIs (exec (.clientPoll 1020000 frameA) { State.reset with lastSendTs := 1000001 })
    (fun t => t.results == [.clientPoll [] 61 [.frameDecoded 0]] && t.tx == [] && t.lastSendTs == 1000001 &&
      t.ring.read 0 == recordA 0 1020000) = true := by decide +kernel
/-- V8: the CRC bytes are overwritten. -/
theorem test_reqRead : nextIs (step (presented (.request [0x01, 0x03, 0x00, 0x48, 0x00, 0x0E, 0x00, 0x00])))
    (fun t => t.tx == [0x01, 0x03, 0x00, 0x48, 0x00, 0x0E, 0x44, 0x18]) = true := by decide +kernel
/-- V31: `EXC_LEN` = 5. -/
theorem test_respExc : nextIs (step (presented (.arrival frameX 100)))
    (fun t => t.results == [.poll 5 [.exception 0x01 0x02]] && t.log == [.exception 0x01 0x02] && t.rxLen == 0) = true := by
  decide +kernel
theorem test_respRead14 : nextIs (step (presented (.arrival frameA 42)))
    (fun t => t.ring.read 0 == recordA 0 42 && t.wc == 1 && t.results == [.poll 61 [.frameDecoded 0]]) = true := by
  decide +kernel
/-- V26. -/
theorem test_respOther : nextIs (step (presented (.arrival frameShort 50)))
    (fun t => t.results == [.poll 5 [.frameIgnored]] && t.rxExpected == 5 && t.log == [] && t.wc == 0) = true := by
  decide +kernel
/-- V70 to V72. -/
theorem test_reserved : step (presented (.transaction [0x00])) = .next { State.reset with results := [.tag .refused] } ∧
    step (presented (.transaction [0x0F, 1, 2])) = .next { State.reset with results := [.tag .refused] } ∧
    step (presented (.transaction [0x14, 1])) = .next { State.reset with results := [.tag .refused] } :=
  ⟨rfl, rfl, rfl⟩
theorem test_withFetchWord : nextIs (step (State.reset.withFetchWord 8 0x07))
    (fun t => t.results == [.record zeroRecord] && t.pending == []) = true := by decide +kernel
/-- 10_state.md R10, 30_encoding.md R58: the numeric codes. -/
theorem test_codes : RxState.waitCrc.code = 4 ∧ (Tag.refused).code = 7 ∧ (Tag.crcError).code = 4 := by decide
/-- 00_scope.md R7: the constraints on the parameters hold, and the widths fit their containers. -/
theorem test_config : Config.ok Config.core ∧ Config.ok Config.sourceExcLen ∧ Config.ok Config.clock32 ∧
    Config.fits Config.core ∧ Config.fits Config.sourceExcLen ∧ Config.fits Config.clock32 := by decide
/-- 70_reset_and_hazards.md R170: on a 32-bit clock 4 294 967 296 microseconds read as none; on the spec's clock they are a timeout. -/
theorem test_clock32_misreads : nextIs (execOn Config.clock32 (.rxTimeout 4294968296) (receiving .waitDataSize 3 1000 [0x01, 0x03]))
      (fun t => t.rxState == .waitDataSize && t.results == [.tag .none]) = true ∧
    nextIs (exec (.rxTimeout 4294968296) (receiving .waitDataSize 3 1000 [0x01, 0x03]))
      (fun t => t.rxState == .waitSof && t.results == [.tag .timeout]) = true := by decide +kernel
/-- 70_reset_and_hazards.md R170: one wrap of a 32-bit clock between the readings is harmless; its registers hold 32 bits. -/
theorem test_clock32_wraps : nextIs (execOn Config.clock32 (.rxTimeout 1000000) (receiving .waitDataSize 3 4294967295 [0x01, 0x03]))
      (fun t => t.results == [.tag .timeout]) = true ∧
    nextIs (execOn Config.clock32 (.rxByte 0x01 4294967301) State.reset) (fun t => t.rxStartTs == 5) = true := by decide +kernel
/-- 00_scope.md R7: WC_WIDTH and FIELD_WIDTH, both 8 here: the counter wraps at 256, and 230123 = 0x382EB is stored as 0xEB. -/
theorem test_narrow_widths :
    nextIs (execOn { Config.core with wcWidth := 8 } (.ringWrite (recordA 255 1)) { State.reset with wc := 255 })
      (fun t => t.wc == 0 && t.ring == [(15, recordA 255 1)]) = true ∧
    nextIs (execOn { Config.core with fieldWidth := 8 } (.decFrame 61 42) (receiving .waitCrc 61 0 frameA))
      (fun t => (t.ring.read 0).voltageMv == 0xEB && (t.ring.read 0).timestampUs == 42) = true := by decide +kernel

/-! ### Witnesses: for each statement with hypotheses, states and operands that meet them all -/

/-- The receiver after some bytes from reset. -/
def after (bytes : List Byte) (now : Time) : State := (drain Config.core now bytes State.reset).state

theorem inv_reset : Inv Config.core State.reset := by constructor <;> decide +kernel

theorem inv_after (bytes : List Byte) (now : Time) : Inv Config.core (after bytes now) :=
  drain_induction (P := Inv Config.core) (fun b s h => rxStep_inv fitsReceiver_core b now s h) bytes _ inv_reset

/-- A full buffer in `WAIT_CRC`: byte-count 0xFC announces 257 bytes (V37). -/
def fullCrc : State := { State.reset with rxState := .waitCrc, rxLen := 256, rxExpected := 257, buf := [(2, 0xFC)] }
/-- A full buffer in `WAIT_DATA`: byte-count 0xFF announces 260 bytes (V38). -/
def fullData : State := { State.reset with rxState := .waitData, rxLen := 256, rxExpected := 260, buf := [(2, 0xFF)] }

theorem inv_fullCrc : Inv Config.core fullCrc := by constructor <;> decide +kernel
theorem inv_fullData : Inv Config.core fullData := by constructor <;> decide +kernel

/-- Inputs that encode no instruction: no code, an operand missing, a byte too many, a request with another function. -/
def malformed : List Input :=
  [.transaction [], .transaction [0x05, 0], .transaction [0x07, 0], .request [1, 4, 0, 0, 0, 1, 0, 0]]

theorem witness_StepRunsTheDecodedInstruction :
    (presented (.transaction [0x07])).pending = .transaction [0x07] :: [] ∧ decode (.transaction [0x07]) = .ok .ringLatest ∧
    State.reset.pending = [] := by decide
/-- The reserved codes at their boundaries; then, for the inputs that encode nothing, transactions that are empty, too short and too
long, and a request that is none. -/
theorem witness_ReservedTransactionsAreRefused :
    (presented (.transaction [0x0A])).pending = .transaction (0x0A :: []) :: [] ∧ ((0x0A : Byte) = 0 ∨ 0x0A#8 ≤ 0x0A) ∧
    ((0x00 : Byte) = 0 ∨ 0x0A#8 ≤ 0x00) ∧ ((0xFF : Byte) = 0 ∨ 0x0A#8 ≤ 0xFF) ∧
    (∀ x ∈ malformed, (presented x).pending = x :: [] ∧ (∀ frame now, x ≠ .arrival frame now) ∧
      (∃ e, decode x = .error e) ∧ ∀ i : Instr, i.wf = true → encode i ≠ some x) := by
  refine ⟨rfl, by decide, by decide, by decide, ?_⟩
  simp only [malformed, List.mem_cons, List.not_mem_nil, or_false]
  rintro x (rfl | rfl | rfl | rfl)
  all_goals
    refine ⟨rfl, by simp, ⟨_, rfl⟩, ?_⟩
    intro i _ h
    cases i <;>
      simp [encode, counted, bytes16, bytes32, bytes64, reqReadBytes] at h
/-- What the three malformed transactions and the malformed request come to, from their bytes. -/
theorem test_malformed_refused : ∀ x ∈ malformed,
    step (presented x) = .next { State.reset with results := [.tag .refused] } := by
  simp only [malformed, List.mem_cons, List.not_mem_nil, or_false]
  rintro x (rfl | rfl | rfl | rfl) <;> rfl
theorem witness_DecodeOfEncodeIsTheInstruction :
    Instr.wf (.respOther 1 0x04 2 [0xAB, 0xCD] 0x1234 7) = true ∧
    encode (.respOther 1 0x04 2 [0xAB, 0xCD] 0x1234 7) = some (.arrival [0x01, 0x04, 0x02, 0xAB, 0xCD, 0x12, 0x34] 7) := by decide
theorem witness_EncodeOfDecodeIsTheInput : decode (.arrival frameX 7) = .ok (.respExc 0x01 0x83 0x02 0xC0F1 7) := by decide
theorem witness_CrcResidueAndProperties : (0x41 : Byte) ^^^ 0x41 = 0 := by decide
theorem witness_CheckMatchesExactlyOnZeroResidue : 2 ≤ ([0xFF, 0xFF] : List Byte).length := by decide
theorem witness_CrcAppendCompletes : 2 ≤ ([0xAA, 0x55] : List Byte).length ∧ ([0xAA, 0x55] : List Byte) = [] ++ [0xAA, 0x55] ∧
    ([0x01] : List Byte).length < 2 := by decide
theorem witness_CrcCheckCompletes : 2 ≤ ([0xFF, 0xFF] : List Byte).length ∧ ([0xFF, 0xFF] : List Byte) = [] ++ [0xFF, 0xFF] ∧
    ([] : List Byte).length < 2 := by decide
theorem witness_RxByteStallsOnAFullBuffer : fullCrc.rxLen = 256 ∧ fullData.rxLen = 256 := by decide
theorem witness_RxByteInWaitSof : State.reset.rxState = .waitSof ∧ State.reset.rxLen ≠ 256 := by decide
theorem witness_RxByteInWaitFunction : (after [0x01] 0).rxState = .waitFunction ∧ (after [0x01] 0).rxLen ≠ 256 := by
  decide +kernel
theorem witness_RxByteInWaitDataSize :
    (after [0x01, 0x03] 0).rxState = .waitDataSize ∧ (after [0x01, 0x03] 0).rxLen ≠ 256 := by decide +kernel
theorem witness_RxByteInWaitData :
    (after [0x01, 0x03, 0x38] 0).rxState = .waitData ∧ (after [0x01, 0x03, 0x38] 0).rxLen ≠ 256 := by decide +kernel
theorem witness_RxByteInWaitCrcStillWaiting :
    (after (frameA.take 59) 0).rxState = .waitCrc ∧ (after (frameA.take 59) 0).rxLen ≠ 256 ∧
    (after (frameA.take 59) 0).rxLen + 1 ≠ (after (frameA.take 59) 0).rxExpected := by decide +kernel
theorem witness_RxByteAbandonsACrcMismatch :
    Inv Config.core (after (frameB.take 60) 0) ∧ (after (frameB.take 60) 0).rxState = .waitCrc ∧
    (after (frameB.take 60) 0).rxLen ≠ 256 ∧ (after (frameB.take 60) 0).rxLen + 1 = (after (frameB.take 60) 0).rxExpected ∧
    ¬ trailingCrcOk Config.core
      ((after (frameB.take 60) 0).buf.write (after (frameB.take 60) 0).rxLen.toNat 0x4D)
      ((after (frameB.take 60) 0).rxLen.toNat + 1) :=
  ⟨inv_after _ _, by decide +kernel, by decide +kernel, by decide +kernel, by unfold trailingCrcOk; decide +kernel⟩
theorem witness_RxByteReportsAnException :
    Inv Config.core (after (frameX.take 4) 0) ∧ (after (frameX.take 4) 0).rxState = .waitCrc ∧
    (after (frameX.take 4) 0).rxLen ≠ 256 ∧ (after (frameX.take 4) 0).rxLen + 1 = (after (frameX.take 4) 0).rxExpected ∧
    trailingCrcOk Config.core
      ((after (frameX.take 4) 0).buf.write (after (frameX.take 4) 0).rxLen.toNat 0xF1)
      ((after (frameX.take 4) 0).rxLen.toNat + 1) ∧
    0x80#8 ≤ (after (frameX.take 4) 0).buf.read 1 :=
  ⟨inv_after _ _, by decide +kernel, by decide +kernel, by decide +kernel, by unfold trailingCrcOk; decide +kernel,
    by decide +kernel⟩
theorem witness_RxByteDecodesAMeasurement :
    Inv Config.core (after (frameA.take 60) 0) ∧ (after (frameA.take 60) 0).rxState = .waitCrc ∧
    (after (frameA.take 60) 0).rxLen = 60 ∧ (after (frameA.take 60) 0).rxExpected = 61 ∧
    trailingCrcOk Config.core ((after (frameA.take 60) 0).buf.write 60 0x4D) 61 ∧ (after (frameA.take 60) 0).buf.read 1 = 0x03 :=
  ⟨inv_after _ _, by decide +kernel, by decide +kernel, by decide +kernel, by unfold trailingCrcOk; decide +kernel,
    by decide +kernel⟩
theorem witness_RxByteIgnoresAnotherShape :
    Inv Config.core (after (frameShort.take 4) 0) ∧ (after (frameShort.take 4) 0).rxState = .waitCrc ∧
    (after (frameShort.take 4) 0).rxLen ≠ 256 ∧
    (after (frameShort.take 4) 0).rxLen + 1 = (after (frameShort.take 4) 0).rxExpected ∧
    trailingCrcOk Config.core
      ((after (frameShort.take 4) 0).buf.write (after (frameShort.take 4) 0).rxLen.toNat 0xF0)
      ((after (frameShort.take 4) 0).rxLen.toNat + 1) ∧
    (after (frameShort.take 4) 0).buf.read 1 < 0x80#8 ∧
    ¬ ((after (frameShort.take 4) 0).buf.read 1 = 0x03 ∧ (after (frameShort.take 4) 0).rxLen = 60) :=
  ⟨inv_after _ _, by decide +kernel, by decide +kernel, by decide +kernel, by unfold trailingCrcOk; decide +kernel,
    by decide +kernel, by decide +kernel⟩
/-- The clauses of the memory frame: a byte stored and nothing decoded; a full buffer. -/
theorem witness_RxByteMemoryFrame :
    State.reset.buf.wf = true ∧ State.reset.ring.wf = true ∧
    (∃ t, exec (.rxByte 0x01 0) State.reset = .next t ∧
      ∀ index, t.results ≠ State.reset.results ++ [.tag (.frameDecoded index)]) ∧
    fullCrc.buf.wf = true ∧ fullCrc.ring.wf = true ∧ ∃ t, exec (.rxByte 0x01 0) fullCrc = .next t :=
  ⟨rfl, rfl, ⟨_, rfl, fun index h => by simp [rxByte, rxStep, rxWaitSof, rxStore, State.reset, Config.core] at h⟩, rfl, rfl, _, rfl⟩
/-- An accepted measurement (bit 7 clear) and an accepted exception (bit 7 set). -/
theorem witness_AcceptedFramesHaveTheirLengthAndCrc :
    Inv Config.core (after (frameA.take 60) 0) ∧
    nextIs (exec (.rxByte 0x4D 0) (after (frameA.take 60) 0))
      (fun t => t.results == (after (frameA.take 60) 0).results ++ [.tag (.frameDecoded 0)] &&
        decide (t.buf.read 1 < 0x80#8)) = true ∧
    Inv Config.core (after (frameX.take 4) 0) ∧
    nextIs (exec (.rxByte 0xF1 0) (after (frameX.take 4) 0))
      (fun t => t.results == (after (frameX.take 4) 0).results ++ [.tag (.exception 0x01 0x02)] &&
        decide (0x80#8 ≤ t.buf.read 1)) = true :=
  ⟨inv_after _ _, by decide +kernel, inv_after _ _, by decide +kernel⟩
/-- Every clause's state: the five receiver states, full and not, completing and not. -/
theorem witness_ReceiverTransitions :
    (Inv Config.core State.reset ∧ State.reset.rxState = .waitSof) ∧
    (Inv Config.core (after [0x01] 0) ∧ (after [0x01] 0).rxState = .waitFunction) ∧
    (Inv Config.core (after [0x01, 0x03] 0) ∧ (after [0x01, 0x03] 0).rxState = .waitDataSize) ∧
    (Inv Config.core fullData ∧ fullData.rxState = .waitData ∧ fullData.rxLen = 256) ∧
    (Inv Config.core (after [0x01, 0x03, 0x00] 0) ∧ (after [0x01, 0x03, 0x00] 0).rxState = .waitData ∧
      (after [0x01, 0x03, 0x00] 0).rxLen ≠ 256) ∧
    (Inv Config.core fullCrc ∧ fullCrc.rxState = .waitCrc ∧ fullCrc.rxLen = 256) ∧
    (Inv Config.core (after (frameA.take 59) 0) ∧ (after (frameA.take 59) 0).rxState = .waitCrc ∧
      (after (frameA.take 59) 0).rxLen ≠ 256 ∧
      (after (frameA.take 59) 0).rxLen.toNat + 1 ≠ (after (frameA.take 59) 0).rxExpected.toNat) ∧
    (Inv Config.core (after (frameA.take 60) 0) ∧ (after (frameA.take 60) 0).rxState = .waitCrc ∧
      (after (frameA.take 60) 0).rxLen ≠ 256 ∧
      (after (frameA.take 60) 0).rxLen.toNat + 1 = (after (frameA.take 60) 0).rxExpected.toNat) ∧
    (∃ t, exec (.rxByte 0x01 0) State.reset = .next t) ∧ (∃ t, exec (.rxTimeout 0) State.reset = .next t) :=
  ⟨⟨inv_reset, rfl⟩, ⟨inv_after _ _, by decide +kernel⟩, ⟨inv_after _ _, by decide +kernel⟩, ⟨inv_fullData, rfl, rfl⟩,
    ⟨inv_after _ _, by decide +kernel⟩, ⟨inv_fullCrc, rfl, rfl⟩, ⟨inv_after _ _, by decide +kernel⟩,
    ⟨inv_after _ _, by decide +kernel⟩, ⟨_, rfl⟩, _, rfl⟩
/-- Both clauses at the boundary: 1 000 001 and 1 000 000 microseconds. -/
theorem witness_RxTimeoutCompletes :
    (after [0x01, 0x03] 1000).rxState ≠ .waitSof ∧ 1000000 < (1001001 - (after [0x01, 0x03] 1000).rxStartTs).toNat ∧
    (State.reset.rxState = .waitSof) ∧ (1001000 - (after [0x01, 0x03] 1000).rxStartTs).toNat ≤ 1000000 := by decide +kernel
/-- Byte-counts 252 and 255, and a feed long enough to fill the buffer. -/
theorem witness_OversizeFramesNeverComplete :
    Inv Config.core (after [0x01, 0x03] 0) ∧ (after [0x01, 0x03] 0).rxState = .waitDataSize ∧
    (after [0x01, 0x03] 0).buf.read 1 < 0x80#8 ∧ 252 ≤ (0xFC : Byte).toNat ∧ 252 ≤ (0xFF : Byte).toNat ∧
    253 ≤ (List.replicate 253 ((0xAA : Byte), (0 : Time))).length :=
  ⟨inv_after _ _, by decide +kernel, by decide +kernel, by decide, by decide, List.length_replicate.ge⟩
theorem witness_SourceExcLenMissesExceptionResponses :
    Inv Config.sourceExcLen State.reset ∧ State.reset.rxState = .waitSof ∧ 0x80#8 ≤ (0x83 : Byte) ∧
    1000000 < ((1000001 : Time) - 0).toNat :=
  ⟨by constructor <;> decide +kernel, rfl, by decide, by decide⟩
/-- A whole frame, and two bytes that are none. -/
theorem witness_ReceivedFramesAreTakenByAPoll : encode (.respExc 0x01 0x83 0x02 0xC0F1 7) = some (.arrival frameX 7) ∧
    (presented (.arrival frameX 7)).pending = .arrival frameX 7 :: [] ∧
    (presented (.arrival [0x01, 0x03] 7)).pending = .arrival [0x01, 0x03] 7 :: [] ∧
    (∃ e, decode (.arrival [0x01, 0x03] 7) = .error e) := ⟨by decide, rfl, rfl, _, rfl⟩
theorem witness_GoodMeasurementResponseIsDecoded :
    Inv Config.core State.reset ∧ State.reset.rxState = .waitSof ∧ State.reset.upstream = [] := ⟨inv_reset, rfl, rfl⟩
theorem witness_GoodExceptionResponseIsReported :
    Inv Config.core State.reset ∧ State.reset.rxState = .waitSof ∧ State.reset.upstream = [] ∧ 0x80#8 ≤ (0x80 : Byte) :=
  ⟨inv_reset, rfl, rfl, by decide⟩
/-- The longest and the shortest byte-count. -/
theorem witness_GoodOtherResponseIsIgnored :
    Inv Config.core State.reset ∧ State.reset.rxState = .waitSof ∧ State.reset.upstream = [] ∧
    (List.replicate 251 (0 : Byte)).length = (0xFB : Byte).toNat ∧ (0xFB : Byte).toNat ≤ 251 ∧ (0x7F : Byte) < 0x80#8 ∧
    ¬ ((0x7F : Byte) = 0x03 ∧ (0xFB : Byte) = 0x38) ∧
    ([] : List Byte).length = (0x00 : Byte).toNat ∧ ¬ ((0x03 : Byte) = 0x03 ∧ (0x00 : Byte) = 0x38) :=
  ⟨inv_reset, rfl, rfl, List.length_replicate.trans (by decide), by decide, by decide, by decide, by decide, by decide⟩
theorem witness_CorruptedFrameIsDropped :
    Inv Config.core State.reset ∧ State.reset.rxState = .waitSof ∧ State.reset.upstream = [] ∧
    Instr.wf (.respExc 0x01 0x83 0x02 0xF1C0 7) = true ∧
    encode (.respExc 0x01 0x83 0x02 0xF1C0 7) = some (.arrival [0x01, 0x83, 0x02, 0xF1, 0xC0] 7) ∧
    ([0x01, 0x83, 0x02, 0xF1, 0xC0] : List Byte).length ≤ 256 ∧
    ¬ frameCrcOk Config.core [0x01, 0x83, 0x02, 0xF1, 0xC0] :=
  ⟨inv_reset, rfl, rfl, by decide, by decide, by decide, by unfold frameCrcOk; decide +kernel⟩
theorem witness_TimeoutRecoveryDecodesTheNextFrame :
    Inv Config.core (after [0x01, 0x03] 1000) ∧ (after [0x01, 0x03] 1000).rxState ≠ .waitSof ∧
    1000000 < (1001001 - (after [0x01, 0x03] 1000).rxStartTs).toNat :=
  ⟨inv_after _ _, by decide +kernel, by decide +kernel⟩
/-- The decoded shape, another function, another length. -/
theorem witness_DecFrameCompletes :
    (receiving .waitCrc 61 0 frameA).buf.read 1 = 0x03 ∧ (61 : Len) = 61 ∧
    (receiving .waitCrc 5 0 frameX).buf.read 1 ≠ 0x03 ∧ (60 : Len) ≠ 61 := by decide +kernel
/-- The last offset a field may start at, and the first. -/
theorem witness_UnpackBe32Completes : (252 : Byte).toNat ≤ 252 ∧ (0 : Byte).toNat ≤ 252 := by decide
theorem witness_ScalingIsExactArithmetic : (429496729 : Word32).toNat ≤ 429496729 := by decide
theorem witness_RingWriteCompletes : State.reset.ring.wf = true := rfl
theorem witness_LatestAfterWriteIsTheRecordWritten :
    State.reset.ring.wf = true ∧ ∃ t, exec (.ringWrite (recordA 0 1)) State.reset = .next t := ⟨rfl, _, rfl⟩
/-- 61 writes: record 1 is the oldest kept, record 60 the newest, no slot from 60 up is reached; two writes: nor is slot 2. -/
theorem witness_RingHoldsTheLastSixtyRecords :
    State.reset.wc = 0 ∧ State.reset.ring.wf = true ∧ (List.replicate 61 zeroRecord).length < 2 ^ 32 ∧
    (List.replicate 61 zeroRecord)[1]? = some zeroRecord ∧ (List.replicate 61 zeroRecord).length ≤ 1 + 60 ∧
    (List.replicate 61 zeroRecord)[60]? = some zeroRecord ∧ ((List.replicate 61 zeroRecord).length ≤ 60 ∨ 60 ≤ 60) ∧
    ((List.replicate 2 zeroRecord).length ≤ 2 ∨ 60 ≤ 2) := by decide +kernel
theorem witness_AtMostOneRequestPerPeriod :
    ∀ p ∈ [((500000 : Time), ([] : List Byte)), (1000000, frameA)], (p.1 - State.reset.lastSendTs).toNat ≤ 1000000 := by
  decide +kernel
theorem witness_EveryStepKeepsTheInvariant :
    Inv Config.core (presented (.arrival frameA 42)) ∧ ∃ t, step (presented (.arrival frameA 42)) = .next t :=
  ⟨inv_reset.congr rfl rfl rfl rfl rfl, by rw [step]; exact ⟨_, rfl⟩⟩
/-- A step that reports a decode, and one that reports none. -/
theorem witness_WriteCounterCountsDecodedFrames :
    (∃ t, step (presented (.transaction [0x07])) = .next t) ∧ step State.reset = .next State.reset := ⟨⟨_, rfl⟩, rfl⟩
theorem witness_LatestIndexIsKept :
    Inv Config.core { State.reset with wc := 63, ring := [(2, recordA 62 1)] } ∧
    (Ring.read [(2, recordA 62 1)] (((63 : Word32) - 1).toNat % 60)).index = (63 : Word32) - 1 ∧
    ∃ t, step { State.reset with wc := 63, ring := [(2, recordA 62 1)] } = .next t :=
  ⟨by constructor <;> decide +kernel, by decide, _, rfl⟩
/-- States that differ in stale contents only. -/
theorem witness_StaleContentsCannotBeObserved :
    Inv Config.core State.reset ∧
    Inv Config.core { State.reset with rxExpected := 61, rxStartTs := 1000, buf := [(0, 0x01)] } ∧
    SameLive State.reset { State.reset with rxExpected := 61, rxStartTs := 1000, buf := [(0, 0x01)] } ∧
    ∃ t, step State.reset = .next t := by
  refine ⟨inv_reset, by constructor <;> decide +kernel, ?_, _, rfl⟩
  constructor <;> first | rfl | simp [State.reset]
theorem witness_TheLogIsAppendOnlyAndNeverRead : (∃ t, exec .excReport State.reset = .next t) ∧
    (∃ t, step (presented (.arrival [0x01, 0x03] 7)) = .next t) := ⟨⟨_, rfl⟩, _, rfl⟩
theorem witness_TimeoutIsModuloTheClockPeriod :
    Config.clock32.tsWidth ≤ 64 ∧ Config.core.tsWidth ≤ 64 ∧ (receiving .waitDataSize 3 1000 [0x01, 0x03]).rxState ≠ .waitSof := by
  decide +kernel
/-- The spec's counter and one of 8 bits, each at its last value. -/
theorem witness_LatestAfterWriteOnEveryConfiguration :
    (Config.core.wcWidth ≤ 32 ∧ ({ State.reset with wc := 4294967295 } : State).wc.toNat < 2 ^ Config.core.wcWidth) ∧
    ({ Config.core with wcWidth := 8 }.wcWidth ≤ 32 ∧
      ({ State.reset with wc := 255 } : State).wc.toNat < 2 ^ { Config.core with wcWidth := 8 }.wcWidth) ∧
    State.reset.ring.wf = true ∧ ∃ t, execOn { Config.core with wcWidth := 8 } (.ringWrite (recordA 255 1)) State.reset = .next t :=
  ⟨⟨by decide, by decide⟩, ⟨by decide, by decide⟩, rfl, _, rfl⟩
/-- A frame of byte-count 0 after its third byte: the expected length is 5. -/
theorem witness_WaitDataComparesAfterStoring :
    (after [0x01, 0x03, 0x00] 0).rxState = .waitData ∧ (after [0x01, 0x03, 0x00] 0).rxLen.toNat ≠ Config.core.frameMax ∧
    5 ≤ (5 : Len).toNat ∧ (after [0x01, 0x03, 0x00] 0).rxLen = 3 ∧ (after [0x01, 0x03, 0x00] 0).rxExpected = 5 := by
  decide +kernel
/-- The example of 42_register_decoder.md R100 at offset 3, and each corner case at the last offset. -/
theorem witness_UnpackerIsFourByteReads :
    3 ≤ Config.core.frameMax - 4 ∧ (bufOf 3 [0x00, 0x23, 0x1D, 0x32]).slice 3 4 = [0x00, 0x23, 0x1D, 0x32] ∧
    252 ≤ Config.core.frameMax - 4 ∧ Memory.slice [] 252 4 = [0x00, 0x00, 0x00, 0x00] ∧
    (bufOf 252 [0xFF, 0xFF, 0xFF, 0xFF]).slice 252 4 = [0xFF, 0xFF, 0xFF, 0xFF] ∧
    (bufOf 252 [0x80, 0x00, 0x00, 0x00]).slice 252 4 = [0x80, 0x00, 0x00, 0x00] := by decide +kernel

end Sys2Proof.Tests
end

section
/-! SUPPORT. The value of `CRC16` (40_crc16.md R73): the seeds, the empty sequence, the composed pair. -/

namespace Sys2Proof.Machine

/-- CRC_INIT gives the seed pair of R73: both bytes 0xFF. -/
theorem crcPair_core (data : List Byte) :
    crcPair Config.core data = data.foldl (crcStep Config.core) (0xFF, 0xFF) := by
  have seeds : (hi Config.core.crcInit, lo Config.core.crcInit) = (0xFF, 0xFF) := by decide
  rw [crcPair, seeds]

/-- No byte leaves the seed as it is, whatever the seed. -/
theorem crc16_nil (c : Config) : crc16 c [] = c.crcInit := be16_hi_lo c.crcInit

/-- The example of 40_crc16.md R73. -/
theorem crc16_core_example : crc16 Config.core [0x01, 0x03, 0x00, 0x00, 0x00, 0x0A] = 0xC5CD := by
  decide +kernel

end Sys2Proof.Machine

namespace Sys2Proof.Proofs

open Sys2Proof Sys2Proof.Machine

/-- Settles O8: `exec_crc16` answers with the CRC and touches only the results; the CRC is the pair from the seeds, composed. -/
theorem crc16ReturnsTheComposedPair : Obligations.Crc16ReturnsTheComposedPair := by
  refine ⟨fun data s => ?_, crc16_nil Config.core, crc16_core_example⟩
  rw [exec_crc16, State.answer, crc16, crcPair_core, be16]

end Sys2Proof.Proofs
end

section
/-! SUPPORT. `WAIT_DATA` and the completion of a frame in `WAIT_CRC` (41_frame_receiver.md R85, R86). -/

namespace Sys2Proof.Machine

variable {c : Config} {b : Byte} {now : Time} {s : State}

@[simp] theorem rxStore_rxLen : (rxStore b s).rxLen = s.rxLen + 1 := rfl
@[simp] theorem rxStore_rxExpected : (rxStore b s).rxExpected = s.rxExpected := rfl

/-- Below FRAME_MAX a byte in `WAIT_DATA` is stored first, then compared with the expected length (R81, R85). -/
theorem rxStep_waitData (hs : s.rxState = .waitData) (hg : s.rxLen.toNat ≠ c.frameMax) :
    rxStep c b now s = rxWaitData (rxStore b s) := by
  rw [rxStep, if_neg hg, hs]

/-- Below FRAME_MAX a byte in `WAIT_CRC` is stored first, then the length is compared with the expected one (R81, R86). -/
theorem rxStep_waitCrc (hs : s.rxState = .waitCrc) (hg : s.rxLen.toNat ≠ c.frameMax) :
    rxStep c b now s = rxWaitCrc c now (rxStore b s) := by
  rw [rxStep, if_neg hg, hs]

/-- `WAIT_DATA` is left once the length has come within two bytes of the expected one. -/
theorem rxWaitData_of_le (h : s.rxExpected - 2 ≤ s.rxLen) : rxWaitData s = (s.setRxState .waitCrc, .none) := by
  rw [rxWaitData, if_pos h]

/-- At the expected length the frame is classified, the receiver goes back to `WAIT_SOF`, and something is reported. -/
theorem rxWaitCrc_complete (h : s.rxLen = s.rxExpected) :
    (rxWaitCrc c now s).1.rxState = .waitSof ∧ (rxWaitCrc c now s).1.rxLen = 0 ∧ (rxWaitCrc c now s).2 ≠ .none := by
  rw [rxWaitCrc, if_neg (not_not.2 h)]
  exact ⟨rfl, rfl, (classify_tag c now s).1⟩

end Sys2Proof.Machine

namespace Sys2Proof.Proofs

open Sys2Proof Sys2Proof.Machine

/-- Settles O59: a byte in `WAIT_DATA` is compared after it is stored; from an expected length of 5, the fourth byte is the one that
leaves `WAIT_DATA` and the fifth completes the frame in `WAIT_CRC`. -/
theorem waitDataComparesAfterStoring : Obligations.WaitDataComparesAfterStoring := by
  refine ⟨fun c b now s hs hg => ?compared, fun expected h => ?noUnderflow, fun b b' now now' s hs hl he => ?frameOfFive⟩
  case compared => exact rxStep_waitData hs hg
  case noUnderflow =>
    have two_le : (2 : Len) ≤ expected := BitVec.le_def.2 (Nat.le_trans (by decide) h)
    exact BitVec.toNat_sub_of_le two_le
  case frameOfFive =>
    have fourth : rxStep Config.core b now s = ((rxStore b s).setRxState .waitCrc, .none) := by
      rw [rxStep_waitData hs (by rw [hl]; decide)]
      exact rxWaitData_of_le (by simp [hl, he])
    simp only [fourth]
    generalize hu : (rxStore b s).setRxState .waitCrc = u
    obtain ⟨state_u, len_u, expected_u⟩ : u.rxState = .waitCrc ∧ u.rxLen = 4 ∧ u.rxExpected = 5 := by
      simp [← hu, hl, he]
    rw [rxStep_waitCrc state_u (by rw [len_u]; decide)]
    exact ⟨state_u, len_u, rxWaitCrc_complete (by simp [len_u, expected_u])⟩

end Sys2Proof.Proofs
end

section
/-! SUPPORT. The decoder and the encoder are inverse (30_encoding.md R51 to R53, R57, R65), and what is left over is refused (R58, R62). -/

namespace Sys2Proof

/-- A byte count and its bytes, with nothing after them, read back. -/
theorem parseCounted_counted_end {l : List Byte} (h : fitsN2 l = true) : parseCounted (counted l) = .ok (l, []) := by
  simpa using parseCounted_counted h []

/-- `T8` with nothing after it reads back. -/
theorem parse64_bytes64_end (t : Time) : parse64 (bytes64 t) = .ok (t, []) := by
  simpa using parse64_bytes64 t []

/-- A CRC with nothing after it reads back. -/
theorem parse16_bytes16_end (v : Half) : parse16 (bytes16 v) = .ok (v, []) := by
  simpa using parse16_bytes16 v []

/-- The payload of the decoded shape is read exactly where its 56 bytes stand (42_register_decoder.md R101). -/
theorem parseRead14_eq_ok {bytes : List Byte} {p : Read14 × List Byte} :
    parseRead14 bytes = .ok p ↔ bytes = read14Bytes p.1 ++ p.2 := by
  obtain ⟨payload, rest⟩ := p
  constructor
  · intro h
    simp only [parseRead14, andThen_eq_ok, parse32_eq_ok, parse16_eq_ok, parse8_eq_ok, Except.ok.injEq, Prod.mk.injEq] at h
    obtain ⟨_, _, rfl, _, _, rfl, _, _, rfl, _, _, rfl, _, _, rfl, _, _, rfl, _, _, rfl, _, _, rfl, _, _, rfl, h⟩ := h
    obtain ⟨_, _, rfl, _, _, rfl, _, _, rfl, _, _, rfl, _, _, rfl, _, _, rfl, _, _, rfl, rfl, rfl⟩ := h
    simp [read14Bytes]
  · rintro rfl
    simp [parseRead14, read14Bytes]

/-- A port operation is read by its first byte's two halves: bits 7:4 clear, bits 3:0 the code (R57, R62). -/
theorem parseTransaction_eq_ok {bytes : List Byte} {p : Instr × List Byte} :
    parseTransaction bytes = .ok p ↔
      ∃ op rest, bytes = op :: rest ∧ op.extractLsb' 4 4 = 0 ∧ parseOperands (op.extractLsb' 0 4).toNat rest = .ok p := by
  rcases bytes with _ | ⟨op, rest⟩
  · simp [parseTransaction]
  · by_cases h : op.extractLsb' 4 4 = 0
    · simp [parseTransaction, h]
    · simp only [parseTransaction, ne_eq, h, not_false_eq_true, if_true, reduceCtorEq, false_iff]
      rintro ⟨_, _, heq, hbits, -⟩
      cases heq; exact h hbits

/-- A first byte with bits 7:4 clear is its code. -/
theorem byte_eq_code : ∀ op : Byte, op.extractLsb' 4 4 = 0 → op = BitVec.ofNat 8 (op.extractLsb' 0 4).toNat := by decide

/-- The operands read after a code are those the encoder writes after that code (R57). -/
theorem parseOperands_eq_ok {code : Nat} {rest : List Byte} {i : Instr} (h : parseOperands code rest = .ok (i, [])) :
    encode i = some (.transaction (BitVec.ofNat 8 code :: rest)) ∧ i.wf = true := by
  unfold parseOperands at h
  split at h <;>
    simp only [andThen_eq_ok, parseCounted_eq_ok, parse8_eq_ok, parse64_eq_ok, Except.ok.injEq, Prod.mk.injEq,
      reduceCtorEq] at h
  case h_1 => obtain ⟨data, _, ⟨rfl, hd⟩, rfl, rfl⟩ := h; exact ⟨by simp [encode], hd⟩
  case h_2 => obtain ⟨data, _, ⟨rfl, hd⟩, rfl, rfl⟩ := h; exact ⟨by simp [encode], hd⟩
  case h_3 => obtain ⟨data, _, ⟨rfl, hd⟩, rfl, rfl⟩ := h; exact ⟨by simp [encode], hd⟩
  case h_4 => obtain ⟨b, _, rfl, now, _, rfl, rfl, rfl⟩ := h; exact ⟨by simp [encode], rfl⟩
  case h_5 => obtain ⟨now, _, rfl, rfl, rfl⟩ := h; exact ⟨by simp [encode], rfl⟩
  case h_6 => obtain ⟨now, _, rfl, avail, _, ⟨rfl, ha⟩, rfl, rfl⟩ := h; exact ⟨by simp [encode], ha⟩
  case h_7 => obtain ⟨rfl, rfl⟩ := h; exact ⟨rfl, rfl⟩
  case h_8 => obtain ⟨now, _, rfl, rfl, rfl⟩ := h; exact ⟨by simp [encode], rfl⟩
  case h_9 => obtain ⟨now, _, rfl, avail, _, ⟨rfl, ha⟩, rfl, rfl⟩ := h; exact ⟨by simp [encode], ha⟩

/-- Function and third byte of the decoded shape. -/
theorem isRead14Head_iff {function third : Byte} : isRead14Head function third = true ↔ function = 0x03 ∧ third = 0x38 := by
  simp [isRead14Head]

/-- A frame read on the line is the encoding of a row whose pattern it meets (R52, R53, R65). -/
theorem encode_of_parseReceived {now : Time} {frame : List Byte} {i : Instr} (h : parseReceived now frame = .ok (i, [])) :
    encode i = some (.arrival frame now) ∧ i.wf = true := by
  simp only [parseReceived, andThen_eq_ok, parse8_eq_ok] at h
  obtain ⟨address, _, rfl, function, _, rfl, third, rest, rfl, h⟩ := h
  split at h
  next hexc =>
    simp only [andThen_eq_ok, parse16_eq_ok, Except.ok.injEq, Prod.mk.injEq] at h
    obtain ⟨crc, _, rfl, rfl, rfl⟩ := h
    exact ⟨by simp [encode, respExcBytes], hexc⟩
  next hexc =>
    split at h
    next hhead =>
      obtain ⟨rfl, rfl⟩ := isRead14Head_iff.1 hhead
      simp only [andThen_eq_ok, parseRead14_eq_ok, parse16_eq_ok, Except.ok.injEq, Prod.mk.injEq] at h
      obtain ⟨payload, _, rfl, crc, _, rfl, rfl, rfl⟩ := h
      exact ⟨by simp [encode, respRead14Bytes], rfl⟩
    next hhead =>
      simp only [andThen_eq_ok, parseBytes_eq_ok, parse16_eq_ok, Except.ok.injEq, Prod.mk.injEq] at h
      obtain ⟨data, _, ⟨rfl, hlen⟩, crc, _, rfl, rfl, rfl⟩ := h
      exact ⟨by simp [encode, respOtherBytes], by simp [Instr.wf, hexc, hhead, hlen]⟩

/-- A request read to its end is the encoding of `REQ.READ` (R51). -/
theorem encode_of_parseRequest {frame : List Byte} {i : Instr} (h : parseRequest frame = .ok (i, [])) :
    encode i = some (.request frame) ∧ i.wf = true := by
  simp only [parseRequest, andThen_eq_ok, parse8_eq_ok, parse16_eq_ok] at h
  obtain ⟨address, _, rfl, function, _, rfl, reg, _, rfl, count, _, rfl, crc, _, rfl, h⟩ := h
  split at h
  next hf =>
    cases h
    exact ⟨by simp [encode, reqReadBytes, hf], rfl⟩
  next => cases h

/-- An input read to its end is the encoding of the instruction read, which is well formed. -/
theorem encode_of_parseInput {x : Input} {i : Instr} (h : parseInput x = .ok (i, [])) :
    encode i = some x ∧ i.wf = true := by
  cases x with
  | transaction bytes =>
    obtain ⟨op, rest, rfl, hbits, hops⟩ := parseTransaction_eq_ok.1 h
    have := parseOperands_eq_ok hops
    rwa [← byte_eq_code op hbits] at this
  | arrival frame now => exact encode_of_parseReceived h
  | request frame => exact encode_of_parseRequest h

/-- The encoding of a well-formed instruction is read to its end as that instruction. -/
theorem parseInput_of_encode {x : Input} {i : Instr} (hw : i.wf = true) (h : encode i = some x) :
    parseInput x = .ok (i, []) := by
  cases i with
  | crc16 data | crcAppend frame | crcCheck frame =>
    cases h; simp [parseInput, parseTransaction, parseOperands, parseCounted_counted_end hw]
  | rxByte b now | rxTimeout now | clientInit now =>
    cases h; simp [parseInput, parseTransaction, parseOperands, parse64_bytes64_end]
  | rxPoll now avail | clientPoll now avail =>
    cases h; simp [parseInput, parseTransaction, parseOperands, parseCounted_counted_end hw]
  | ringLatest => cases h; rfl
  | excReport | decFrame len now | unpackBe32 off | ringWrite rec => cases h
  | reqRead address reg count crc =>
    cases h; simp [parseInput, parseRequest, reqReadBytes, parse16_bytes16_end]
  | respExc address function code crc now =>
    have hexc : isExc function = true := hw
    cases h; simp [parseInput, parseReceived, respExcBytes, hexc, parse16_bytes16_end]
  | respRead14 address payload crc now =>
    have hread : parseRead14 (read14Bytes payload ++ bytes16 crc) = .ok (payload, bytes16 crc) := parseRead14_eq_ok.2 rfl
    cases h
    simp [parseInput, parseReceived, respRead14Bytes, isRead14Head, hread, parse16_bytes16_end, show isExc 3#8 = false from rfl]
  | respOther address function byteCount data crc now =>
    obtain ⟨⟨hexc, hhead⟩, hlen⟩ : (isExc function = false ∧ isRead14Head function byteCount = false) ∧
        data.length = byteCount.toNat := by simpa [Instr.wf] using hw
    cases h
    simp [parseInput, parseReceived, respOtherBytes, hexc, hhead, ← hlen, parse16_bytes16_end]

/-- Decoding and encoding are inverse on the well-formed instructions. -/
theorem decode_eq_ok_iff_encode {x : Input} {i : Instr} : decode x = .ok i ↔ encode i = some x ∧ i.wf = true :=
  decode_eq_ok.trans ⟨encode_of_parseInput, fun h => parseInput_of_encode h.2 h.1⟩

/-- What the decoder rejects is what encodes no well-formed instruction. -/
theorem decode_rejects_iff {x : Input} : (∃ e, decode x = .error e) ↔ ∀ i : Instr, i.wf = true → encode i ≠ some x := by
  constructor
  · rintro ⟨e, he⟩ i hw hx
    have := decode_eq_ok_iff_encode.2 ⟨hx, hw⟩
    rw [he] at this; cases this
  · intro h
    cases hd : decode x with
    | error e => exact ⟨e, rfl⟩
    | ok i =>
      obtain ⟨hx, hw⟩ := decode_eq_ok_iff_encode.1 hd
      exact absurd hx (h i hw)

/-- A first byte that is a reserved code, or has any of bits 7:4 set, begins no instruction (R62). -/
theorem decode_reserved {op : Byte} (h : op = 0 ∨ 0x0A#8 ≤ op) (operands : List Byte) :
    ∃ e, decode (.transaction (op :: operands)) = .error e := by
  refine decode_rejects_iff.2 fun i _ hx => ?_
  have codes : op = 1 ∨ op = 2 ∨ op = 3 ∨ op = 4 ∨ op = 5 ∨ op = 6 ∨ op = 7 ∨ op = 8 ∨ op = 9 := by
    cases i <;> simp [encode] at hx <;> simp [← hx.1]
  rcases codes with rfl | rfl | rfl | rfl | rfl | rfl | rfl | rfl | rfl <;> revert h <;> decide

namespace Machine

/-- A step on an input that decodes runs the instruction. -/
theorem step_of_decode {s : State} {x : Input} {rest : List Input} {i : Instr} (hp : s.pending = x :: rest)
    (hd : decode x = .ok i) : step s = exec i (s.setPending rest) := by
  rw [step_cons s hp, hd]

/-- A step on an input that does not decode. -/
theorem step_of_reject {s : State} {x : Input} {rest : List Input} {e : Reject} (hp : s.pending = x :: rest)
    (hd : decode x = .error e) : step s = undecoded x (s.setPending rest) := by
  rw [step_cons s hp, hd]

/-- With nothing waiting a step changes nothing. -/
theorem step_nil {s : State} (hp : s.pending = []) : step s = .next s := by
  unfold step; rw [hp]

end Machine

end Sys2Proof

namespace Sys2Proof.Proofs

open Sys2Proof Sys2Proof.Machine

/-- Settles O4: each parser reads back what the encoder writes. -/
theorem decodeOfEncodeIsTheInstruction : Obligations.DecodeOfEncodeIsTheInstruction :=
  fun _ _ hw hx => decode_eq_ok_iff_encode.2 ⟨hx, hw⟩

/-- Settles O5: what each parser reads is what the encoder writes for it, and meets the pattern of its row. -/
theorem encodeOfDecodeIsTheInput : Obligations.EncodeOfDecodeIsTheInput :=
  fun _ _ => decode_eq_ok_iff_encode.1

/-- Settles O2: the decoder rejects exactly what encodes nothing, a reserved code among it; a rejected transaction or request is
answered with `RES_REFUSED`. -/
theorem reservedTransactionsAreRefused : Obligations.ReservedTransactionsAreRefused := by
  refine ⟨fun s op operands rest hp hop => ?_, fun s x rest hp harr hx => ?_, fun x => decode_rejects_iff⟩
  · obtain ⟨e, he⟩ := decode_reserved hop operands
    exact step_of_reject hp he
  · obtain ⟨e, he⟩ := decode_rejects_iff.2 hx
    rw [step_of_reject hp he]
    cases x with
    | transaction bytes => rfl
    | arrival frame now => exact absurd rfl (harr frame now)
    | request frame => rfl

/-- Settles O1: `step_of_decode` with the input taken off the list, and `step_nil`. -/
theorem stepRunsTheDecodedInstruction : Obligations.StepRunsTheDecodedInstruction :=
  ⟨fun _ _ _ _ => step_of_decode, fun _ => step_nil⟩

/-- Settles O3: every meaning is a next state (`Refusal.notModelled` is raised by no arm), and so is a refused or received input. -/
theorem nothingFaultsOrHalts : Obligations.NothingFaultsOrHalts := by
  have hexec (i : Instr) (s : State) : ∃ t, exec i s = .next t := by
    cases i with
    | crcAppend frame => rw [exec_crcAppend]; split <;> exact ⟨_, rfl⟩
    | crcCheck frame => rw [exec_crcCheck]; split <;> exact ⟨_, rfl⟩
    | _ => exact ⟨_, rfl⟩
  refine ⟨fun s => ?_, hexec⟩
  cases hp : s.pending with
  | nil => exact ⟨s, step_nil hp⟩
  | cons x rest =>
    cases hd : decode x with
    | ok i => rw [step_of_decode hp hd]; exact hexec i _
    | error e => rw [step_of_reject hp hd]; cases x <;> exact ⟨_, rfl⟩

/-- Settles O6: each input is the encoding of its instruction. -/
theorem specWordsDecode : Obligations.SpecWordsDecode := by
  simp only [Obligations.SpecWordsDecode, decode_eq_ok_iff_encode]
  decide

end Sys2Proof.Proofs
end

section
/-! SUPPORT. Everything a step can do to CORE, and to the count of frames decoded: from it, the invariants every step keeps
(10_state.md R28, 43_ring_buffer.md R116 to R118). -/

namespace Sys2Proof.Machine

/-! ### What a step can do -/

/-- `t` has CORE's own registers and stores as `s` has them (10_state.md R10 to R17); the environment's may differ. -/
structure SameCore (s t : State) : Prop where
  rxState : t.rxState = s.rxState
  rxLen : t.rxLen = s.rxLen
  rxExpected : t.rxExpected = s.rxExpected
  rxStartTs : t.rxStartTs = s.rxStartTs
  buf : t.buf = s.buf
  wc : t.wc = s.wc
  ring : t.ring = s.ring

/-- A change of the environment's fields is none of CORE's. -/
theorem sameCore_env (s : State) (ts : Time) (up : List Byte) (log : List LogRecord) (tx : List Byte) (results : List Result)
    (pending : List Input) :
    SameCore s { s with
      lastSendTs := ts, upstream := up, log := log, tx := tx, results := results, pending := pending } :=
  ⟨rfl, rfl, rfl, rfl, rfl, rfl, rfl⟩

/-- How many frames a list of tags reports as decoded. -/
def decodedAmong (tags : List Tag) : Nat := (tags.map fun t => decodedIn (.tag t)).sum

/-- What an instruction of the port or of the wire can do to CORE, and what the results it answers count as decoded: nothing; a byte
through the receiver; the timeout check; a poll (after the driver may have sent). -/
inductive Ran (s t : State) (new : List Result) : Prop where
  | idle (core : SameCore s t) (count : (new.map decodedIn).sum = 0)
  | byte (b : Byte) (now : Time) (core : SameCore (rxStep Config.core b now s).1 t)
      (count : (new.map decodedIn).sum = decodedAmong [(rxStep Config.core b now s).2])
  | timeout (now : Time) (core : SameCore (rxTimeout Config.core now s).1 t)
      (count : (new.map decodedIn).sum = decodedAmong [(rxTimeout Config.core now s).2])
  | poll (now : Time) (avail : List Byte) (u : State) (sent : SameCore s u)
      (core : SameCore (rxPoll Config.core now avail u).state t)
      (count : (new.map decodedIn).sum = decodedAmong (rxPoll Config.core now avail u).events)

theorem decodedIn_poll (k : Nat) (events : List Tag) : decodedIn (.poll k events) = decodedAmong events := by
  induction events with
  | nil => rfl
  | cons t events ih =>
    simp only [decodedAmong, List.map_cons, List.sum_cons] at ih ⊢
    rw [← ih]; cases t <;> simp [decodedIn, Nat.add_comm]

theorem decodedIn_clientPoll (sent : List Byte) (k : Nat) (events : List Tag) :
    decodedIn (.clientPoll sent k events) = decodedAmong events := decodedIn_poll k events

/-- What the driver sends is none of CORE's. -/
theorem sendIfDue_sameCore (c : Config) (now : Time) (s : State) : SameCore s (sendIfDue c now s).1 := by
  unfold sendIfDue; split <;> exact sameCore_env ..

/-- Sending answers nothing. -/
theorem sendIfDue_results (c : Config) (now : Time) (s : State) : (sendIfDue c now s).1.results = s.results := by
  unfold sendIfDue; split <;> rfl

/-- Bytes that arrive are a poll's. -/
theorem receive_ran (frame : List Byte) (now : Time) (s : State) :
    ∃ new, (receive Config.core frame now s).results = s.results ++ new ∧ Ran s (receive Config.core frame now s) new := by
  have hres := (rxPoll_frame Config.core now (s.upstream ++ frame) s).2.2.1
  refine ⟨_, by simp only [receive, State.answer_results, hres]; rfl, .poll now (s.upstream ++ frame) s (sameCore_env ..)
    (sameCore_env ..) ?_⟩
  simp [decodedIn_poll]

/-- An instruction of the port or of the wire answers a next state, by one of the four ways. -/
theorem exec_ran {i : Instr} (hi : i.isInternal = false) (s : State) :
    ∃ t new, exec i s = .next t ∧ t.results = s.results ++ new ∧ Ran s t new := by
  have answered (r : Result) (h : decodedIn r = 0) : Ran s (s.answer r) [r] := .idle (sameCore_env ..) (by simpa using h)
  cases i with
  | crc16 data => exact ⟨_, _, exec_crc16 .., rfl, answered _ rfl⟩
  | crcAppend frame => rw [exec_crcAppend]; split <;> exact ⟨_, _, rfl, rfl, answered _ rfl⟩
  | crcCheck frame => rw [exec_crcCheck]; split <;> exact ⟨_, _, rfl, rfl, answered _ rfl⟩
  | rxByte b now => exact ⟨_, _, exec_rxByte .., rfl, .byte b now (sameCore_env ..) rfl⟩
  | rxTimeout now =>
    have hres : (rxTimeout Config.core now s).1.results = s.results := by
      rcases rxTimeout_cases Config.core now s with ⟨_, _, h⟩ | ⟨_, h⟩ <;> rw [h]
    exact ⟨_, _, exec_rxTimeout .., by rw [State.answer_results, hres], .timeout now (sameCore_env ..) rfl⟩
  | rxPoll now avail =>
    have hres := (rxPoll_frame Config.core now avail s).2.2.1
    exact ⟨_, _, exec_rxPoll .., by rw [State.answer_results, hres],
      .poll now avail s (sameCore_env ..) (sameCore_env ..) (by simp [decodedIn_poll])⟩
  | ringLatest => exact ⟨_, _, exec_ringLatest .., rfl, answered _ rfl⟩
  | clientInit now => exact ⟨_, _, exec_clientInit .., rfl, .idle (sameCore_env ..) rfl⟩
  | clientPoll now avail =>
    have hres := (rxPoll_frame Config.core now avail (sendIfDue Config.core now s).1).2.2.1
    exact ⟨_, _, exec_clientPoll .., by rw [State.answer_results, hres, sendIfDue_results],
      .poll now avail _ (sendIfDue_sameCore ..) (sameCore_env ..) (by simp [decodedIn_clientPoll])⟩
  | excReport | decFrame len now | unpackBe32 off | ringWrite rec => cases hi
  | reqRead address reg count crc =>
    exact ⟨_, [], exec_reqRead .., by simp, .idle (sameCore_env ..) rfl⟩
  | respExc address function code crc now =>
    obtain ⟨new, hran⟩ := receive_ran _ now s
    exact ⟨_, new, exec_respExc .., hran⟩
  | respRead14 address payload crc now =>
    obtain ⟨new, hran⟩ := receive_ran _ now s
    exact ⟨_, new, exec_respRead14 .., hran⟩
  | respOther address function byteCount data crc now =>
    obtain ⟨new, hran⟩ := receive_ran _ now s
    exact ⟨_, new, exec_respOther .., hran⟩

/-- What decodes is an instruction of the port or of the wire (30_encoding.md R55). -/
theorem not_internal_of_decode {x : Input} {i : Instr} (h : decode x = .ok i) : i.isInternal = false := by
  have hx := (decode_eq_ok_iff_encode.1 h).1
  cases i with
  | excReport | decFrame len now | unpackBe32 off | ringWrite rec => cases hx
  | _ => rfl

/-- An input that does not decode is refused or received. -/
theorem undecoded_ran (x : Input) (s : State) :
    ∃ t new, undecoded x s = .next t ∧ t.results = s.results ++ new ∧ Ran s t new := by
  cases x with
  | transaction bytes => exact ⟨_, _, undecoded_transaction .., rfl, .idle (sameCore_env ..) rfl⟩
  | arrival frame now =>
    obtain ⟨new, hran⟩ := receive_ran frame now s
    exact ⟨_, new, undecoded_arrival .., hran⟩
  | request frame => exact ⟨_, _, undecoded_request .., rfl, .idle (sameCore_env ..) rfl⟩

/-- Everything a step can do: one of the four ways, from the state without the input taken. -/
theorem step_ran {s t : State} (h : step s = .next t) :
    ∃ u new, SameCore s u ∧ t.results = s.results ++ new ∧ Ran u t new := by
  cases hp : s.pending with
  | nil =>
    rw [step_nil hp] at h; cases h
    exact ⟨s, [], sameCore_env .., by simp, .idle (sameCore_env ..) rfl⟩
  | cons x rest =>
    refine ⟨s.setPending rest, ?_⟩
    cases hd : decode x with
    | ok i =>
      obtain ⟨t', new, he, hr⟩ := exec_ran (not_internal_of_decode hd) (s.setPending rest)
      rw [step_of_decode hp hd, he] at h; cases h
      exact ⟨new, sameCore_env .., hr⟩
    | error e =>
      obtain ⟨t', new, he, hr⟩ := undecoded_ran x (s.setPending rest)
      rw [step_of_reject hp hd, he] at h; cases h
      exact ⟨new, sameCore_env .., hr⟩

/-! ### What every step keeps -/

/-- A property of CORE's state that the receiver's step and the timeout check keep is kept by every step. -/
theorem step_preserves {P : State → Prop} (hcore : ∀ {s t}, SameCore s t → P s → P t)
    (hbyte : ∀ b now s, P s → P (rxStep Config.core b now s).1)
    (htimeout : ∀ now s, P s → P (rxTimeout Config.core now s).1) {s t : State} (h : step s = .next t) (hs : P s) : P t := by
  obtain ⟨u, new, hu, -, hran⟩ := step_ran h
  have hPu := hcore hu hs
  cases hran with
  | idle core => exact hcore core hPu
  | byte b now core => exact hcore core (hbyte b now u hPu)
  | timeout now core => exact hcore core (htimeout now u hPu)
  | poll now avail v sent core =>
    have hdrain := drain_induction (P := P) (fun b s => hbyte b now s) avail _ (htimeout now v (hcore sent hPu))
    exact hcore core (hcore (sameCore_env ..) hdrain)

theorem Inv.sameCore {c : Config} {s t : State} (h : SameCore s t) (hi : Inv c s) : Inv c t :=
  hi.congr h.rxState h.rxLen h.rxExpected h.buf h.ring

/-- The latest slot holds the record whose index is `wc - 1` (43_ring_buffer.md R117, R118 (a)). -/
def LatestIndex (s : State) : Prop := (s.ring.read ((s.wc - 1).toNat % 60)).index = s.wc - 1

theorem LatestIndex.congr {s t : State} (hw : t.wc = s.wc) (hr : t.ring = s.ring) (h : LatestIndex s) : LatestIndex t := by
  unfold LatestIndex; rw [hw, hr]; exact h

/-- What the receiver's step does to the ring and the counter: nothing, or a write of the record with the counter as its index. -/
theorem rxStep_ring (c : Config) (b : Byte) (now : Time) (s : State) :
    ((∀ i, (rxStep c b now s).2 ≠ .frameDecoded i) ∧ (rxStep c b now s).1.wc = s.wc ∧ (rxStep c b now s).1.ring = s.ring) ∨
    ((rxStep c b now s).2 = .frameDecoded s.wc ∧ (rxStep c b now s).1.wc = counterBits c (s.wc + 1) ∧
      ∃ rec : PowerRecord, rec.index = s.wc ∧ (rxStep c b now s).1.ring = s.ring.write (writeSlot c s.wc) rec) := by
  rcases rxStep_cases c b now s with ⟨_, h⟩ | ⟨_, ⟨_, h⟩ | ⟨_, h⟩ | ⟨_, h⟩ | ⟨_, h⟩ | ⟨_, _, h⟩ | ⟨_, _, h⟩⟩ <;> rw [h]
  any_goals exact .inl ⟨by simp, rfl, rfl⟩
  rcases classify_cases c now (rxStore b s) with ⟨_, h⟩ | ⟨_, _, h⟩ | ⟨_, _, _, h⟩ | ⟨_, _, _, h⟩ <;> rw [h]
  any_goals exact .inl ⟨by simp, rfl, rfl⟩
  exact .inr ⟨rfl, rfl, _, rfl, rfl⟩

/-- The timeout check touches neither the ring nor the counter. -/
theorem rxTimeout_ring (c : Config) (now : Time) (s : State) :
    (∀ i, (rxTimeout c now s).2 ≠ .frameDecoded i) ∧ (rxTimeout c now s).1.wc = s.wc ∧ (rxTimeout c now s).1.ring = s.ring := by
  rcases rxTimeout_cases c now s with ⟨_, _, h⟩ | ⟨_, h⟩ <;> rw [h] <;> simp

/-- A byte keeps the latest index: the record written has the old counter as its index and goes to the slot that is now the latest. -/
theorem rxStep_latestIndex (b : Byte) (now : Time) (s : State) (hi : Inv Config.core s) (h : LatestIndex s) :
    LatestIndex (rxStep Config.core b now s).1 := by
  rcases rxStep_ring Config.core b now s with ⟨_, hw, hr⟩ | ⟨_, hw, rec, hrec, hr⟩
  · exact h.congr hw hr
  · have hslot : writeSlot Config.core s.wc = s.wc.toNat % 60 := rfl
    rw [LatestIndex, hw, hr, counterBits_core, BitVec.add_sub_cancel, hslot, Ring.read_write hi.ringOk.1, if_pos rfl, hrec]

/-! ### The counter counts the frames decoded -/

/-- From `s` to `t` the counter grew by `n`, and with `n = 0` the ring stayed. -/
def Counted (s t : State) (n : Nat) : Prop := t.wc = s.wc + BitVec.ofNat 32 n ∧ (n = 0 → t.ring = s.ring)

theorem Counted.none {s t : State} (hw : t.wc = s.wc) (hr : t.ring = s.ring) : Counted s t 0 := ⟨by simp [hw], fun _ => hr⟩

theorem SameCore.counted {s t : State} (h : SameCore s t) : Counted s t 0 := .none h.wc h.ring

theorem Counted.trans {s t u : State} {m n : Nat} (h₁ : Counted s t m) (h₂ : Counted t u n) : Counted s u (m + n) :=
  ⟨by rw [h₂.1, h₁.1, BitVec.add_assoc, BitVec.ofNat_add], fun h => by rw [h₂.2 (by omega), h₁.2 (by omega)]⟩

/-- A change of the environment counts nothing. -/
theorem Counted.sameCore {s t u : State} {n : Nat} (h : Counted s t n) (hc : SameCore t u) : Counted s u n :=
  h.trans hc.counted

theorem decodedAmong_append (l₁ l₂ : List Tag) : decodedAmong (l₁ ++ l₂) = decodedAmong l₁ + decodedAmong l₂ := by
  simp [decodedAmong]

/-- `RES_NONE`, which a poll does not report, is no decoded frame. -/
@[simp] theorem decodedAmong_event (t : Tag) : decodedAmong (event t) = decodedAmong [t] := by
  cases t <;> rfl

/-- A tag that is no decode counts nothing. -/
theorem decodedAmong_of_ne {t : Tag} (h : ∀ i, t ≠ .frameDecoded i) : decodedAmong [t] = 0 := by
  cases t with
  | frameDecoded i => exact absurd rfl (h i)
  | _ => rfl

theorem rxStep_counted (b : Byte) (now : Time) (s : State) :
    Counted s (rxStep Config.core b now s).1 (decodedAmong [(rxStep Config.core b now s).2]) := by
  rcases rxStep_ring Config.core b now s with ⟨ht, hw, hr⟩ | ⟨ht, hw, -⟩
  · rw [decodedAmong_of_ne ht]; exact .none hw hr
  · rw [ht]; exact ⟨by rw [hw, counterBits_core]; rfl, fun h => absurd h (by decide : (1 : Nat) ≠ 0)⟩

theorem rxTimeout_counted (now : Time) (s : State) :
    Counted s (rxTimeout Config.core now s).1 (decodedAmong [(rxTimeout Config.core now s).2]) := by
  obtain ⟨ht, hw, hr⟩ := rxTimeout_ring Config.core now s
  rw [decodedAmong_of_ne ht]; exact .none hw hr

theorem drain_counted (now : Time) (avail : List Byte) (s : State) :
    Counted s (drain Config.core now avail s).state (decodedAmong (drain Config.core now avail s).events) := by
  induction avail generalizing s with
  | nil => exact .none rfl rfl
  | cons b rest ih =>
    have hb := rxStep_counted b now s
    by_cases h1 : (rxStep Config.core b now s).2 = .stall
    · rw [drain_cons_stall rest h1]; rwa [h1] at hb
    by_cases h2 : (rxStep Config.core b now s).2 = .crcError
    · rw [drain_cons_crcError rest h2]; rwa [h2] at hb
    rw [drain_cons_go rest h1 h2, decodedAmong_append, decodedAmong_event]
    exact hb.trans (ih _)

theorem rxPoll_counted (now : Time) (avail : List Byte) (s : State) :
    Counted s (rxPoll Config.core now avail s).state (decodedAmong (rxPoll Config.core now avail s).events) := by
  simp only [rxPoll, decodedAmong_append, decodedAmong_event]
  exact ((rxTimeout_counted now s).trans (drain_counted now avail _)).sameCore (sameCore_env ..)

/-- What ran grew the counter by what it answers as decoded. -/
theorem Ran.counted {s t : State} {new : List Result} (h : Ran s t new) : Counted s t (new.map decodedIn).sum := by
  cases h with
  | idle core count => rw [count]; exact core.counted
  | byte b now core count => rw [count]; exact (rxStep_counted b now s).sameCore core
  | timeout now core count => rw [count]; exact (rxTimeout_counted now s).sameCore core
  | poll now avail u sent core count =>
    rw [count, ← Nat.zero_add (decodedAmong _)]
    exact sent.counted.trans ((rxPoll_counted now avail u).sameCore core)

end Sys2Proof.Machine

namespace Sys2Proof.Proofs

open Sys2Proof Sys2Proof.Machine

/-- Settles O51: the receiver's step and the timeout check keep the invariant, and a step does nothing else to CORE. -/
theorem everyStepKeepsTheInvariant : Obligations.EveryStepKeepsTheInvariant :=
  fun _ _ hi h => step_preserves Inv.sameCore (rxStep_inv fitsReceiver_core) (rxTimeout_inv fitsReceiver_core) h hi

/-- Settles O53: kept by every step together with the invariant, which makes the ring read what was written. -/
theorem latestIndexIsKept : Obligations.LatestIndexIsKept := by
  intro s t hi hl h
  refine (step_preserves (P := fun s => Inv Config.core s ∧ LatestIndex s) ?core ?byte ?timeout h ⟨hi, hl⟩).2
  case core => exact fun hc ⟨hi, hl⟩ => ⟨hi.sameCore hc, hl.congr hc.wc hc.ring⟩
  case byte => exact fun b now s ⟨hi, hl⟩ => ⟨rxStep_inv fitsReceiver_core b now s hi, rxStep_latestIndex b now s hi hl⟩
  case timeout =>
    intro now s ⟨hi, hl⟩
    obtain ⟨-, hw, hr⟩ := rxTimeout_ring Config.core now s
    exact ⟨rxTimeout_inv fitsReceiver_core now s hi, hl.congr hw hr⟩

/-- Settles O52: what ran counts as the results it answers say, and taking the input counts nothing. -/
theorem writeCounterCountsDecodedFrames : Obligations.WriteCounterCountsDecodedFrames := by
  intro s t h
  obtain ⟨u, new, hu, hres, hran⟩ := step_ran h
  have counted := hu.counted.trans hran.counted
  rw [Nat.zero_add] at counted
  exact ⟨new, hres, counted⟩

end Sys2Proof.Proofs
end

section
/-! SUPPORT. Two runs side by side: a relation between states that the shared operations keep is kept by every step. With it, stale
contents cannot be observed (70_reset_and_hazards.md R171) and the log is never read (60_exceptions.md R137). -/

namespace Sys2Proof.Machine

/-! ### A relation that the shared operations keep -/

/-- What a relation between two states must keep to be kept by every instruction of the port and of the wire. -/
structure Kept (R : State → State → Prop) : Prop where
  byte : ∀ {s t}, R s t → ∀ b now, (rxStep Config.core b now s).2 = (rxStep Config.core b now t).2 ∧
    R (rxStep Config.core b now s).1 (rxStep Config.core b now t).1
  timeout : ∀ {s t}, R s t → ∀ now, (rxTimeout Config.core now s).2 = (rxTimeout Config.core now t).2 ∧
    R (rxTimeout Config.core now s).1 (rxTimeout Config.core now t).1
  latest : ∀ {s t}, R s t → ringLatest Config.core s = ringLatest Config.core t
  lastSendTs : ∀ {s t}, R s t → s.lastSendTs = t.lastSendTs
  upstream : ∀ {s t}, R s t → s.upstream = t.upstream
  pending : ∀ {s t}, R s t → s.pending = t.pending
  answer : ∀ {s t}, R s t → ∀ r, R (s.answer r) (t.answer r)
  transmit : ∀ {s t}, R s t → ∀ bytes, R (s.transmit bytes) (t.transmit bytes)
  setLastSendTs : ∀ {s t}, R s t → ∀ v, R (s.setLastSendTs v) (t.setLastSendTs v)
  setUpstream : ∀ {s t}, R s t → ∀ v, R (s.setUpstream v) (t.setUpstream v)
  setPending : ∀ {s t}, R s t → ∀ v, R (s.setPending v) (t.setPending v)

namespace Kept

variable {R : State → State → Prop} {s t : State}

theorem drain (k : Kept R) (now : Time) (avail : List Byte) (h : R s t) :
    (Machine.drain Config.core now avail s).consumed = (Machine.drain Config.core now avail t).consumed ∧
    (Machine.drain Config.core now avail s).events = (Machine.drain Config.core now avail t).events ∧
    R (Machine.drain Config.core now avail s).state (Machine.drain Config.core now avail t).state := by
  induction avail generalizing s t with
  | nil => exact ⟨rfl, rfl, h⟩
  | cons b rest ih =>
    obtain ⟨htag, hR⟩ := k.byte h b now
    by_cases h1 : (rxStep Config.core b now t).2 = .stall
    · rw [drain_cons_stall rest (htag.trans h1), drain_cons_stall rest h1]; exact ⟨rfl, rfl, hR⟩
    by_cases h2 : (rxStep Config.core b now t).2 = .crcError
    · rw [drain_cons_crcError rest (htag.trans h2), drain_cons_crcError rest h2]; exact ⟨rfl, rfl, hR⟩
    obtain ⟨hc, he, hs⟩ := ih hR
    rw [drain_cons_go rest (htag ▸ h1) (htag ▸ h2), drain_cons_go rest h1 h2]
    exact ⟨congrArg (· + 1) hc, by rw [htag, he], hs⟩

theorem rxPoll (k : Kept R) (now : Time) (avail : List Byte) (h : R s t) :
    (Machine.rxPoll Config.core now avail s).consumed = (Machine.rxPoll Config.core now avail t).consumed ∧
    (Machine.rxPoll Config.core now avail s).events = (Machine.rxPoll Config.core now avail t).events ∧
    R (Machine.rxPoll Config.core now avail s).state (Machine.rxPoll Config.core now avail t).state := by
  obtain ⟨htag, hR⟩ := k.timeout h now
  obtain ⟨hc, he, hs⟩ := k.drain now avail hR
  simp only [Machine.rxPoll]
  exact ⟨hc, by rw [htag, he], by rw [hc]; exact k.setUpstream hs _⟩

theorem receive (k : Kept R) (frame : List Byte) (now : Time) (h : R s t) :
    R (Machine.receive Config.core frame now s) (Machine.receive Config.core frame now t) := by
  obtain ⟨hc, he, hs⟩ := k.rxPoll now (s.upstream ++ frame) h
  simp only [Machine.receive, ← k.upstream h, ← hc, ← he]
  exact k.answer hs _

theorem sendIfDue (k : Kept R) (now : Time) (h : R s t) :
    (Machine.sendIfDue Config.core now s).2 = (Machine.sendIfDue Config.core now t).2 ∧
    R (Machine.sendIfDue Config.core now s).1 (Machine.sendIfDue Config.core now t).1 := by
  unfold Machine.sendIfDue
  rw [k.lastSendTs h]
  split
  · exact ⟨rfl, k.setLastSendTs (k.transmit h _) _⟩
  · exact ⟨rfl, h⟩

/-- Every instruction of the port and of the wire keeps the relation. -/
theorem exec (k : Kept R) {i : Instr} (hi : i.isInternal = false) (h : R s t) :
    ∃ s' t', Machine.exec i s = .next s' ∧ Machine.exec i t = .next t' ∧ R s' t' := by
  cases i with
  | crc16 data => exact ⟨_, _, rfl, rfl, k.answer h _⟩
  | crcAppend frame => simp only [exec_crcAppend]; split <;> exact ⟨_, _, rfl, rfl, k.answer h _⟩
  | crcCheck frame => simp only [exec_crcCheck]; split <;> exact ⟨_, _, rfl, rfl, k.answer h _⟩
  | rxByte b now =>
    obtain ⟨htag, hR⟩ := k.byte h b now
    refine ⟨_, _, rfl, rfl, ?_⟩
    simp only [Machine.rxByte, htag, k.upstream h]
    exact k.answer (k.setUpstream hR _) _
  | rxTimeout now =>
    obtain ⟨htag, hR⟩ := k.timeout h now
    exact ⟨_, _, exec_rxTimeout .., exec_rxTimeout .., htag ▸ k.answer hR _⟩
  | rxPoll now avail =>
    obtain ⟨hc, he, hs⟩ := k.rxPoll now avail h
    exact ⟨_, _, exec_rxPoll .., exec_rxPoll .., by rw [hc, he]; exact k.answer hs _⟩
  | ringLatest => exact ⟨_, _, exec_ringLatest .., exec_ringLatest .., k.latest h ▸ k.answer h _⟩
  | clientInit now => exact ⟨_, _, rfl, rfl, k.answer (k.transmit h _) _⟩
  | clientPoll now avail =>
    obtain ⟨hsent, hR⟩ := k.sendIfDue now h
    obtain ⟨hc, he, hs⟩ := k.rxPoll now avail hR
    exact ⟨_, _, exec_clientPoll .., exec_clientPoll .., by rw [hsent, hc, he]; exact k.answer hs _⟩
  | excReport | decFrame len now | unpackBe32 off | ringWrite rec => cases hi
  | reqRead address reg count crc => exact ⟨_, _, rfl, rfl, k.transmit h _⟩
  | respExc address function code crc now => exact ⟨_, _, rfl, rfl, k.receive _ now h⟩
  | respRead14 address payload crc now => exact ⟨_, _, rfl, rfl, k.receive _ now h⟩
  | respOther address function byteCount data crc now => exact ⟨_, _, rfl, rfl, k.receive _ now h⟩

/-- Every step keeps the relation. -/
theorem step (k : Kept R) (h : R s t) : ∃ s' t', Machine.step s = .next s' ∧ Machine.step t = .next t' ∧ R s' t' := by
  have hpt := k.pending h
  cases hp : s.pending with
  | nil => exact ⟨s, t, step_nil hp, step_nil (hpt ▸ hp), h⟩
  | cons x rest =>
    cases hd : decode x with
    | ok i =>
      rw [step_of_decode hp hd, step_of_decode (hpt ▸ hp) hd]
      exact k.exec (not_internal_of_decode hd) (k.setPending h rest)
    | error e =>
      rw [step_of_reject hp hd, step_of_reject (hpt ▸ hp) hd]
      cases x with
      | transaction bytes => exact ⟨_, _, rfl, rfl, k.answer (k.setPending h rest) _⟩
      | arrival frame now => exact ⟨_, _, rfl, rfl, k.receive frame now (k.setPending h rest)⟩
      | request frame => exact ⟨_, _, rfl, rfl, k.answer (k.setPending h rest) _⟩

end Kept

/-! ### The receiver's step, by its state -/

section
variable {c : Config} {b : Byte} {now : Time} {s : State}

theorem rxStep_full (hg : s.rxLen.toNat = c.frameMax) : rxStep c b now s = (s, .stall) := by
  rw [rxStep, if_pos hg]

theorem rxStep_waitSof (hs : s.rxState = .waitSof) (hg : s.rxLen.toNat ≠ c.frameMax) :
    rxStep c b now s = rxWaitSof c now (rxStore b s) := by
  rw [rxStep, if_neg hg, hs]

theorem rxStep_waitFunction (hs : s.rxState = .waitFunction) (hg : s.rxLen.toNat ≠ c.frameMax) :
    rxStep c b now s = rxWaitFunction c b (rxStore b s) := by
  rw [rxStep, if_neg hg, hs]

theorem rxStep_waitDataSize (hs : s.rxState = .waitDataSize) (hg : s.rxLen.toNat ≠ c.frameMax) :
    rxStep c b now s = rxWaitDataSize c b (rxStore b s) := by
  rw [rxStep, if_neg hg, hs]

end

/-! ### The log -/

/-- The log becomes `v`. -/
def State.setLog (s : State) (v : List LogRecord) : State := { s with log := v }

section
variable (s : State) (v : List LogRecord)
@[simp] theorem State.setLog_rxState : (s.setLog v).rxState = s.rxState := rfl
@[simp] theorem State.setLog_rxLen : (s.setLog v).rxLen = s.rxLen := rfl
@[simp] theorem State.setLog_rxExpected : (s.setLog v).rxExpected = s.rxExpected := rfl
@[simp] theorem State.setLog_rxStartTs : (s.setLog v).rxStartTs = s.rxStartTs := rfl
@[simp] theorem State.setLog_buf : (s.setLog v).buf = s.buf := rfl
end

/-- On `s`, `f` appends to the log and does not read it: with another log it appends the same to that. -/
def AppendsToLog (f : State → State × Tag) (s : State) : Prop :=
  ∀ l, ∃ new, (f s).1.log = s.log ++ new ∧ f (s.setLog l) = ((f s).1.setLog (l ++ new), (f s).2)

/-- An operation that leaves the log alone, whatever it is. -/
theorem AppendsToLog.of_silent {f : State → State × Tag} {s : State} (hs : (f s).1.log = s.log)
    (hl : ∀ l, f (s.setLog l) = ((f s).1.setLog l, (f s).2)) : AppendsToLog f s :=
  fun l => ⟨[], by rw [hs, List.append_nil], by rw [hl, List.append_nil]⟩

theorem decFrame_log (c : Config) (len : Len) (now : Time) (s : State) : AppendsToLog (decFrame c len now) s := by
  cases h : isDecodable c (s.buf.read 1) len <;>
    exact .of_silent (by simp only [decFrame, h]; rfl) fun l => by simp only [decFrame, State.setLog_buf, h]; rfl

theorem classify_log (c : Config) (now : Time) (s : State) : AppendsToLog (classify c now) s := by
  intro l
  rw [classify, classify, State.setLog_buf, State.setLog_rxLen]
  by_cases hcrc : crcMatches c (s.buf.slice 0 s.rxLen.toNat) = true
  · rw [if_pos hcrc, if_pos hcrc]
    by_cases hexc : isExc (s.buf.read 1) = true
    · rw [if_pos hexc, if_pos hexc]; exact ⟨[.exception (s.buf.read 0) (s.buf.read 2)], rfl, rfl⟩
    · rw [if_neg hexc, if_neg hexc]; exact decFrame_log c s.rxLen now s l
  · rw [if_neg hcrc, if_neg hcrc]; exact ⟨[.crcMismatch], rfl, rfl⟩

theorem rxWaitDataSize_log (c : Config) (b : Byte) (s : State) : AppendsToLog (rxWaitDataSize c b) s := by
  by_cases h : isExc (s.buf.read 1) = true
  · exact .of_silent (by rw [rxWaitDataSize, if_pos h]; rfl) fun l => by
      rw [rxWaitDataSize, rxWaitDataSize, if_pos h, State.setLog_buf, if_pos h]; rfl
  · exact .of_silent (by rw [rxWaitDataSize, if_neg h]; rfl) fun l => by
      rw [rxWaitDataSize, rxWaitDataSize, if_neg h, State.setLog_buf, if_neg h]; rfl

theorem rxWaitData_log (s : State) : AppendsToLog rxWaitData s := by
  by_cases h : s.rxExpected - 2 ≤ s.rxLen
  · exact .of_silent (by rw [rxWaitData, if_pos h]; rfl) fun l => by
      rw [rxWaitData, rxWaitData, if_pos h, State.setLog_rxExpected, State.setLog_rxLen, if_pos h]; rfl
  · exact .of_silent (by rw [rxWaitData, if_neg h]) fun l => by
      rw [rxWaitData, rxWaitData, if_neg h, State.setLog_rxExpected, State.setLog_rxLen, if_neg h]

theorem rxWaitCrc_log (c : Config) (now : Time) (s : State) : AppendsToLog (rxWaitCrc c now) s := by
  by_cases h : s.rxLen ≠ s.rxExpected
  · exact .of_silent (by rw [rxWaitCrc, if_pos h]) fun l => by
      rw [rxWaitCrc, rxWaitCrc, if_pos h, State.setLog_rxLen, State.setLog_rxExpected, if_pos h]
  · intro l
    obtain ⟨new, h1, h2⟩ := classify_log c now s l
    rw [rxWaitCrc, rxWaitCrc, if_neg h, State.setLog_rxLen, State.setLog_rxExpected, if_neg h, h2]
    exact ⟨new, h1, rfl⟩

theorem rxStep_log (c : Config) (b : Byte) (now : Time) (s : State) : AppendsToLog (rxStep c b now) s := by
  by_cases hg : s.rxLen.toNat = c.frameMax
  · exact .of_silent (by rw [rxStep_full hg]) fun l => by rw [rxStep_full hg, rxStep_full (s := s.setLog l) hg]
  intro l
  cases hs : s.rxState
  case waitSof =>
    rw [rxStep_waitSof hs hg, rxStep_waitSof (s := s.setLog l) hs hg]
    exact AppendsToLog.of_silent (f := rxWaitSof c now) (s := rxStore b s) rfl (fun _ => rfl) l
  case waitFunction =>
    rw [rxStep_waitFunction hs hg, rxStep_waitFunction (s := s.setLog l) hs hg]
    exact AppendsToLog.of_silent (f := rxWaitFunction c b) (s := rxStore b s) rfl (fun _ => rfl) l
  case waitDataSize =>
    rw [rxStep_waitDataSize hs hg, rxStep_waitDataSize (s := s.setLog l) hs hg]
    exact rxWaitDataSize_log c b (rxStore b s) l
  case waitData =>
    rw [rxStep_waitData hs hg, rxStep_waitData (s := s.setLog l) hs hg]
    exact rxWaitData_log (rxStore b s) l
  case waitCrc =>
    rw [rxStep_waitCrc hs hg, rxStep_waitCrc (s := s.setLog l) hs hg]
    exact rxWaitCrc_log c now (rxStore b s) l

theorem rxTimeout_log (c : Config) (now : Time) (s : State) : AppendsToLog (rxTimeout c now) s := by
  by_cases h : s.rxState ≠ .waitSof ∧ timedOut c now s.rxStartTs = true
  · exact .of_silent (by rw [rxTimeout, if_pos h]; rfl) fun l => by
      rw [rxTimeout, rxTimeout, if_pos h, State.setLog_rxState, State.setLog_rxStartTs, if_pos h]; rfl
  · exact .of_silent (by rw [rxTimeout, if_neg h]) fun l => by
      rw [rxTimeout, rxTimeout, if_neg h, State.setLog_rxState, State.setLog_rxStartTs, if_neg h]

/-- `t` is `s` with the log `other` in place of `old`, and the same appended since. -/
def SameButLog (old other : List LogRecord) (s t : State) : Prop :=
  ∃ new, s.log = old ++ new ∧ t = s.setLog (other ++ new)

theorem sameButLog_refl (s : State) (other : List LogRecord) : SameButLog s.log other s (s.setLog other) :=
  ⟨[], by simp, by simp⟩

/-- An operation that appends to the log keeps the relation, and reports the same. -/
theorem AppendsToLog.sameButLog {f : State → State × Tag} {old other : List LogRecord} {s t : State} (hf : AppendsToLog f s)
    (h : SameButLog old other s t) : (f s).2 = (f t).2 ∧ SameButLog old other (f s).1 (f t).1 := by
  obtain ⟨new, hs, rfl⟩ := h
  obtain ⟨more, h1, h2⟩ := hf (other ++ new)
  rw [h2]
  exact ⟨rfl, new ++ more, by rw [h1, hs, List.append_assoc], by rw [List.append_assoc]⟩

/-- No shared operation reads the log. -/
theorem kept_sameButLog (old other : List LogRecord) : Kept (SameButLog old other) where
  byte := fun h b now => (rxStep_log Config.core b now _).sameButLog h
  timeout := fun h now => (rxTimeout_log Config.core now _).sameButLog h
  latest := by rintro s _ ⟨new, -, rfl⟩; rfl
  lastSendTs := by rintro s _ ⟨new, -, rfl⟩; rfl
  upstream := by rintro s _ ⟨new, -, rfl⟩; rfl
  pending := by rintro s _ ⟨new, -, rfl⟩; rfl
  answer := by rintro s _ ⟨new, hs, rfl⟩ r; exact ⟨new, hs, rfl⟩
  transmit := by rintro s _ ⟨new, hs, rfl⟩ bytes; exact ⟨new, hs, rfl⟩
  setLastSendTs := by rintro s _ ⟨new, hs, rfl⟩ v; exact ⟨new, hs, rfl⟩
  setUpstream := by rintro s _ ⟨new, hs, rfl⟩ v; exact ⟨new, hs, rfl⟩
  setPending := by rintro s _ ⟨new, hs, rfl⟩ v; exact ⟨new, hs, rfl⟩

/-- An internal operation does not read the log either. -/
theorem exec_internal_log {i : Instr} (hi : i.isInternal = true) (s : State) (other : List LogRecord) :
    ∃ s' t', exec i s = .next s' ∧ exec i (s.setLog other) = .next t' ∧ SameButLog s.log other s' t' := by
  cases i with
  | excReport => exact ⟨_, _, rfl, rfl, [.exception (s.buf.read 0) (s.buf.read 2)], rfl, rfl⟩
  | decFrame len now =>
    obtain ⟨new, h1, h2⟩ := decFrame_log Config.core len now s other
    exact ⟨_, _, exec_decFrame .., exec_decFrame .., new, h1, by rw [h2]; rfl⟩
  | unpackBe32 off => exact ⟨_, _, rfl, rfl, [], (List.append_nil _).symm, by rw [List.append_nil]; rfl⟩
  | ringWrite rec => exact ⟨_, _, rfl, rfl, [], (List.append_nil _).symm, by rw [List.append_nil]; rfl⟩
  | _ => cases hi

/-! ### Stale contents -/

namespace SameLive

variable {s t : State}

/-- A receiver that goes to a new state, where what that state reads is the same in both. -/
theorem setRxState (h : SameLive s t) (v : RxState)
    (he : v ≠ .waitSof → v ≠ .waitFunction → s.rxExpected = t.rxExpected)
    (hts : v ≠ .waitSof → s.rxStartTs = t.rxStartTs) : SameLive (s.setRxState v) (t.setRxState v) :=
  { h with rxState := rfl, rxExpected := he, rxStartTs := hts }

theorem setRxExpected (h : SameLive s t) (v : Len) : SameLive (s.setRxExpected v) (t.setRxExpected v) :=
  { h with rxExpected := fun _ _ => rfl }

theorem setRxStartTs (h : SameLive s t) (v : Time) : SameLive (s.setRxStartTs v) (t.setRxStartTs v) :=
  { h with rxStartTs := fun _ => rfl }

theorem appendLog (h : SameLive s t) (r : LogRecord) : SameLive (s.appendLog r) (t.appendLog r) :=
  { h with log := congrArg (· ++ [r]) h.log }

theorem answer (h : SameLive s t) (r : Result) : SameLive (s.answer r) (t.answer r) :=
  { h with results := congrArg (· ++ [r]) h.results }

theorem transmit (h : SameLive s t) (bytes : List Byte) : SameLive (s.transmit bytes) (t.transmit bytes) :=
  { h with tx := congrArg (· ++ bytes) h.tx }

theorem setLastSendTs (h : SameLive s t) (v : Time) : SameLive (s.setLastSendTs v) (t.setLastSendTs v) :=
  { h with lastSendTs := rfl }

theorem setUpstream (h : SameLive s t) (v : List Byte) : SameLive (s.setUpstream v) (t.setUpstream v) :=
  { h with upstream := rfl }

theorem setPending (h : SameLive s t) (v : List Input) : SameLive (s.setPending v) (t.setPending v) :=
  { h with pending := rfl }

/-- Ending a frame leaves nothing of the buffer live. -/
theorem endFrame (h : SameLive s t) : SameLive s.endFrame t.endFrame :=
  { h with
    rxState := rfl, rxLen := rfl, rxExpected := fun h => absurd rfl h, rxStartTs := fun h => absurd rfl h
    buf := fun a ha => absurd ha (Nat.not_lt_zero a) }

/-- The same record written in both. -/
theorem ringWrite (h : SameLive s t) (c : Config) (rec : PowerRecord) :
    SameLive (Machine.ringWrite c rec s) (Machine.ringWrite c rec t) :=
  { h with
    wc := congrArg (fun w => counterBits c (w + 1)) h.wc
    ring := by simp only [ringWrite_eq, h.wc, h.ring] }

/-- A byte stored makes one byte more live: the one stored. -/
theorem rxStore (h : SameLive s t) (hs : s.buf.wf = true) (ht : t.buf.wf = true) (hl : s.rxLen.toNat < 256) (b : Byte) :
    SameLive (Machine.rxStore b s) (Machine.rxStore b t) :=
  { h with
    rxLen := congrArg (· + 1) h.rxLen
    buf := by
      intro a ha
      have hlen : (s.rxLen + 1).toNat = s.rxLen.toNat + 1 := by rw [BitVec.toNat_add]; simp; omega
      rw [rxStore_rxLen, hlen] at ha
      show (s.buf.write _ b).read a = (t.buf.write _ b).read a
      rw [Memory.read_write hs, Memory.read_write ht, ← h.rxLen]
      split
      · rfl
      · exact h.buf a (by omega) }

end SameLive

/-- The record of a frame reads no byte from offset 61 up (42_register_decoder.md R101). -/
theorem decodeRecord_congr {m m' : Memory} (h : ∀ a, a < 61 → m.read a = m'.read a) (wc : Word32) (now : Time) :
    decodeRecord Config.core m wc now = decodeRecord Config.core m' wc now := by
  have hread (off : Nat) (ho : off ≤ 57) : unpackBe32 m off = unpackBe32 m' off := by
    simp only [unpackBe32, h off (by omega), h (off + 1) (by omega), h (off + 2) (by omega), h (off + 3) (by omega)]
  have hsign : m.read Config.core.offSign1 = m'.read Config.core.offSign1 ∧
      m.read Config.core.offSign2 = m'.read Config.core.offSign2 := ⟨h 27 (by omega), h 28 (by omega)⟩
  simp only [decodeRecord, decodeChannel, hsign]
  rw [hread Config.core.offVoltage (by decide), hread Config.core.offFreq (by decide), hread Config.core.offI1 (by decide),
    hread Config.core.offP1 (by decide), hread Config.core.offE1 (by decide), hread Config.core.offPf1 (by decide),
    hread Config.core.offI2 (by decide), hread Config.core.offP2 (by decide), hread Config.core.offE2 (by decide),
    hread Config.core.offPf2 (by decide)]

/-- Classifying a frame of at least three bytes reads live bytes only. -/
theorem classify_sameLive {s t : State} (h : SameLive s t) (hl : 3 ≤ s.rxLen.toNat) (now : Time) :
    (classify Config.core now s).2 = (classify Config.core now t).2 ∧
    SameLive (classify Config.core now s).1 (classify Config.core now t).1 := by
  have hslice : s.buf.slice 0 s.rxLen.toNat = t.buf.slice 0 s.rxLen.toNat :=
    Memory.slice_congr fun a _ ha => h.buf a (by omega)
  have h0 := h.buf 0 (by omega)
  have h1 := h.buf 1 (by omega)
  have h2 := h.buf 2 (by omega)
  unfold classify excReport decFrame
  simp only [← h.rxLen, ← hslice, ← h0, ← h1, ← h2, ← h.wc]
  split
  · split
    · exact ⟨rfl, h.appendLog _⟩
    · split
      next hdec =>
        obtain ⟨-, h61⟩ := (isDecodable_iff _ _).1 hdec
        rw [decodeRecord_congr (m := s.buf) (m' := t.buf) fun a ha => h.buf a (by omega)]
        exact ⟨rfl, h.ringWrite _ _⟩
      next => exact ⟨rfl, h⟩
  · exact ⟨rfl, h.appendLog _⟩

/-- The receiver's step reads live contents only: of the states the invariant allows. -/
theorem rxStep_sameLive {s t : State} (hs : Inv Config.core s) (ht : Inv Config.core t) (h : SameLive s t) (b : Byte)
    (now : Time) : (rxStep Config.core b now s).2 = (rxStep Config.core b now t).2 ∧
      SameLive (rxStep Config.core b now s).1 (rxStep Config.core b now t).1 := by
  have hmax : Config.core.frameMax = 256 := rfl
  by_cases hg : s.rxLen.toNat = Config.core.frameMax
  · rw [rxStep_full hg, rxStep_full (h.rxLen ▸ hg)]; exact ⟨rfl, h⟩
  have hg' : t.rxLen.toNat ≠ Config.core.frameMax := h.rxLen ▸ hg
  have hlt : s.rxLen.toNat < 256 := by have := hs.lenLe; omega
  have hu := h.rxStore hs.bufOk.1 ht.bufOk.1 hlt b
  have hlen : (rxStore b s).rxLen.toNat = s.rxLen.toNat + 1 := by
    rw [rxStore_rxLen, BitVec.toNat_add]; simp; omega
  cases hst : s.rxState
  case waitSof =>
    rw [rxStep_waitSof hst hg, rxStep_waitSof (h.rxState ▸ hst) hg']
    exact ⟨rfl, (hu.setRxStartTs _).setRxState _ (fun _ h => absurd rfl h) fun _ => rfl⟩
  all_goals have hts := hu.rxStartTs (by rw [show (rxStore b s).rxState = s.rxState from rfl, hst]; simp)
  case waitFunction =>
    rw [rxStep_waitFunction hst hg, rxStep_waitFunction (h.rxState ▸ hst) hg']
    exact ⟨rfl, (hu.setRxExpected _).setRxState _ (fun _ _ => rfl) fun _ => hts⟩
  all_goals
    have hexp := hu.rxExpected (by rw [show (rxStore b s).rxState = s.rxState from rfl, hst]; simp)
      (by rw [show (rxStore b s).rxState = s.rxState from rfl, hst]; simp)
  case waitDataSize =>
    rw [rxStep_waitDataSize hst hg, rxStep_waitDataSize (h.rxState ▸ hst) hg', rxWaitDataSize, rxWaitDataSize,
      ← hu.buf 1 (by rw [hlen, (hs.dataSize hst).1]; decide)]
    split
    · exact ⟨rfl, hu.setRxState _ (fun _ _ => hexp) fun _ => hts⟩
    · exact ⟨rfl, (hu.setRxExpected _).setRxState _ (fun _ _ => rfl) fun _ => hts⟩
  case waitData =>
    rw [rxStep_waitData hst hg, rxStep_waitData (h.rxState ▸ hst) hg', rxWaitData, rxWaitData, ← hexp, ← hu.rxLen]
    split
    · exact ⟨rfl, hu.setRxState _ (fun _ _ => hexp) fun _ => hts⟩
    · exact ⟨rfl, hu⟩
  case waitCrc =>
    have hlow := (hs.crc hst).1
    obtain ⟨htag, hR⟩ := classify_sameLive hu (by omega) now
    rw [rxStep_waitCrc hst hg, rxStep_waitCrc (h.rxState ▸ hst) hg', rxWaitCrc, rxWaitCrc, ← hexp, ← hu.rxLen]
    split
    · exact ⟨rfl, hu⟩
    · exact ⟨htag, hR.endFrame⟩

/-- The timeout check reads the start time of a frame under way only. -/
theorem rxTimeout_sameLive {s t : State} (h : SameLive s t) (now : Time) :
    (rxTimeout Config.core now s).2 = (rxTimeout Config.core now t).2 ∧
      SameLive (rxTimeout Config.core now s).1 (rxTimeout Config.core now t).1 := by
  unfold rxTimeout
  by_cases hsof : s.rxState = .waitSof
  · simp only [← h.rxState, hsof, ne_eq, not_true, false_and, if_false]; exact ⟨trivial, h⟩
  · rw [← h.rxState, ← h.rxStartTs hsof]
    split
    · exact ⟨rfl, h.endFrame⟩
    · exact ⟨rfl, h⟩

/-- Two states that meet the invariant and differ in stale contents only. -/
def BothLive (s t : State) : Prop := Inv Config.core s ∧ Inv Config.core t ∧ SameLive s t

/-- No shared operation observes stale contents. -/
theorem kept_bothLive : Kept BothLive where
  byte := fun ⟨hs, ht, h⟩ b now =>
    have hl := rxStep_sameLive hs ht h b now
    ⟨hl.1, rxStep_inv fitsReceiver_core b now _ hs, rxStep_inv fitsReceiver_core b now _ ht, hl.2⟩
  timeout := fun ⟨hs, ht, h⟩ now =>
    have hl := rxTimeout_sameLive h now
    ⟨hl.1, rxTimeout_inv fitsReceiver_core now _ hs, rxTimeout_inv fitsReceiver_core now _ ht, hl.2⟩
  latest := fun ⟨_, _, h⟩ => by simp only [ringLatest, h.wc, h.ring]
  lastSendTs := fun ⟨_, _, h⟩ => h.lastSendTs
  upstream := fun ⟨_, _, h⟩ => h.upstream
  pending := fun ⟨_, _, h⟩ => h.pending
  answer := fun ⟨hs, ht, h⟩ r => ⟨hs.sameCore (sameCore_env ..), ht.sameCore (sameCore_env ..), h.answer r⟩
  transmit := fun ⟨hs, ht, h⟩ bytes => ⟨hs.sameCore (sameCore_env ..), ht.sameCore (sameCore_env ..), h.transmit bytes⟩
  setLastSendTs := fun ⟨hs, ht, h⟩ v =>
    ⟨hs.sameCore (sameCore_env ..), ht.sameCore (sameCore_env ..), h.setLastSendTs v⟩
  setUpstream := fun ⟨hs, ht, h⟩ v => ⟨hs.sameCore (sameCore_env ..), ht.sameCore (sameCore_env ..), h.setUpstream v⟩
  setPending := fun ⟨hs, ht, h⟩ v => ⟨hs.sameCore (sameCore_env ..), ht.sameCore (sameCore_env ..), h.setPending v⟩

end Sys2Proof.Machine

namespace Sys2Proof.Proofs

open Sys2Proof Sys2Proof.Machine

/-- Settles O54: the receiver reads live contents only, in the states the invariant allows, so a step keeps the relation. -/
theorem staleContentsCannotBeObserved : Obligations.StaleContentsCannotBeObserved := by
  intro s t s' hs ht h hstep
  obtain ⟨u, t', hu, ht', -, -, hlive⟩ := kept_bothLive.step ⟨hs, ht, h⟩
  rw [hstep] at hu; cases hu
  exact ⟨t', ht', hlive⟩

/-- Settles O55: an internal operation by its own equation, every other instruction and every step by the relation they keep. -/
theorem theLogIsAppendOnlyAndNeverRead : Obligations.TheLogIsAppendOnlyAndNeverRead := by
  refine ⟨fun i s t other h => ?instr, fun s t other h => ?step⟩
  case instr =>
    obtain ⟨s', t', hs, ht, new, hlog, rfl⟩ :
        ∃ s' t', exec i s = .next s' ∧ exec i (s.setLog other) = .next t' ∧ SameButLog s.log other s' t' := by
      cases hi : i.isInternal
      · exact (kept_sameButLog _ _).exec hi (sameButLog_refl s other)
      · exact exec_internal_log hi s other
    rw [h] at hs; cases hs
    exact ⟨new, hlog, ht⟩
  case step =>
    obtain ⟨s', t', hs, ht, new, hlog, rfl⟩ := (kept_sameButLog _ _).step (sameButLog_refl s other)
    rw [h] at hs; cases hs
    exact ⟨new, hlog, ht⟩

end Sys2Proof.Proofs
end

section
/-! SUPPORT. The CRC16 Engine (40_crc16.md R71 to R77): the residue, the check, and the conventional register. -/

namespace Sys2Proof.Machine

/-! ### The residue -/

/-- `TABLE_HI` as listed is what the generating rule gives for the 256 indices in order (R71). -/
theorem listedTableHi_eq : listedTableHi = (List.range 256).map fun i => tableHi Config.core (BitVec.ofNat 8 i) := by
  decide +kernel

/-- `TABLE_LO` likewise. -/
theorem listedTableLo_eq : listedTableLo = (List.range 256).map fun i => tableLo Config.core (BitVec.ofNat 8 i) := by
  decide +kernel

/-- The entry of a byte in a table listed by index. -/
theorem getElem?_map_range_byte (f : Byte → Byte) (i : Byte) :
    ((List.range 256).map fun k => f (BitVec.ofNat 8 k))[i.toNat]? = some (f i) := by
  simp [List.getElem?_range i.isLt]

/-- A byte equal to the high byte indexes entry 0: the low byte moves up and 0 comes in (R74). -/
theorem crcStep_of_xor_eq_zero {c : Config} {h l b : Byte} (hb : h ^^^ b = 0) : crcStep c (h, l) b = (l, 0) := by
  simp only [crcStep, hb]
  rw [show (0 : Byte) = 0#8 from rfl, tableHi_zero, tableLo_zero, BitVec.xor_zero]

/-- The pair is 0 after two more bytes exactly when they are the pair's own two, high byte first (R74 (b), R77). -/
theorem crcStep_crcStep_eq_zero_iff {p : Byte × Byte} {a b : Byte} :
    crcStep Config.core (crcStep Config.core p a) b = (0, 0) ↔ p = (a, b) := by
  obtain ⟨h, l⟩ := p
  constructor
  · intro hz
    simp only [crcStep, Prod.mk.injEq] at hz
    obtain ⟨hhi, hlo⟩ := hz
    have second : l ^^^ tableHi Config.core (h ^^^ a) ^^^ b = 0 := tableLo_eq_zero _ hlo
    have first : h ^^^ a = 0 := by
      rw [second, show (0 : Byte) = 0#8 from rfl, tableHi_zero, BitVec.xor_zero] at hhi
      exact tableLo_eq_zero _ hhi
    rw [first, show (0 : Byte) = 0#8 from rfl, tableHi_zero, BitVec.xor_zero] at second
    rw [BitVec.xor_eq_zero_iff.1 first, BitVec.xor_eq_zero_iff.1 second]
  · rintro ⟨⟩
    rw [crcStep_of_xor_eq_zero (BitVec.xor_self), crcStep_of_xor_eq_zero (BitVec.xor_self)]

/-- The CRC is 0 over a frame exactly when its last two bytes are the CRC of the bytes before them, high byte first (R77). -/
theorem crc16_append_eq_zero_iff {body : List Byte} {a b : Byte} :
    crc16 Config.core (body ++ [a, b]) = 0 ↔ crc16 Config.core body = be16 a b := by
  have hpair : crcPair Config.core (body ++ [a, b]) =
      crcStep Config.core (crcStep Config.core (crcPair Config.core body) a) b := by
    rw [show body ++ [a, b] = (body ++ [a]) ++ [b] by simp, crcPair_append, crcPair_append]
  rw [crc16, be16_eq_zero, ← Prod.mk.injEq, Prod.mk.eta, hpair, crcStep_crcStep_eq_zero_iff]
  constructor
  · intro h; rw [crc16, h]
  · intro h
    obtain ⟨ha, hb⟩ := be16_inj h
    exact Prod.ext ha hb

/-- The check matches exactly when the CRC over the whole frame is 0 (R77). -/
theorem crcMatches_iff_residue {frame : List Byte} (h : 2 ≤ frame.length) :
    crcMatches Config.core frame = true ↔ crc16 Config.core frame = 0 := by
  obtain ⟨body, a, b, rfl⟩ := exists_body h
  rw [crcMatches_append, beq_iff_eq, crc16_append_eq_zero_iff]

/-- A frame with its CRC appended leaves the residue 0 (R74 (b)). -/
theorem crc16_residue (P : List Byte) : crc16 Config.core (P ++ [hi (crc16 Config.core P), lo (crc16 Config.core P)]) = 0 :=
  crc16_append_eq_zero_iff.2 (be16_hi_lo _).symm

/-! ### The conventional register (R75) -/

/-- One shift is linear over xor. -/
theorem t16Shift_xor (poly x y : Half) : t16Shift poly (x ^^^ y) = t16Shift poly x ^^^ t16Shift poly y := by
  unfold t16Shift
  rw [BitVec.getLsbD_xor, BitVec.ushiftRight_xor_distrib]
  cases x.getLsbD 0 <;> cases y.getLsbD 0 <;>
    simp only [Bool.xor_false, Bool.xor_true, Bool.not_false, Bool.not_true, Bool.false_eq_true, if_true, if_false]
  case false.true => rw [BitVec.xor_assoc]
  case true.false => rw [BitVec.xor_assoc, BitVec.xor_comm _ poly, ← BitVec.xor_assoc]
  case true.true =>
    rw [BitVec.xor_assoc, BitVec.xor_comm poly, BitVec.xor_assoc, BitVec.xor_self, BitVec.xor_zero]

theorem t16Shifts_xor (poly : Half) (n : Nat) (x y : Half) :
    t16Shifts poly n (x ^^^ y) = t16Shifts poly n x ^^^ t16Shifts poly n y := by
  induction n generalizing x y with
  | zero => rfl
  | succ n ih => rw [t16Shifts, t16Shift_xor, ih]; rfl

/-- Eight shifts only move the high byte down: no bit of it is shifted out. -/
theorem t16Shifts_high : ∀ h : Byte, t16Shifts 0xA001 8 (be16 h 0) = be16 0 h := by decide +kernel

theorem hi_xor (x y : Half) : hi (x ^^^ y) = hi x ^^^ hi y := BitVec.extractLsb'_xor
theorem lo_xor (x y : Half) : lo (x ^^^ y) = lo x ^^^ lo y := BitVec.extractLsb'_xor

/-- A register is determined by its two bytes. -/
theorem half_ext {x y : Half} (hhi : hi x = hi y) (hlo : lo x = lo y) : x = y := by
  rw [← be16_hi_lo x, hhi, hlo, be16_hi_lo]

/-- A byte as a register: its low byte. -/
theorem zeroExtend_eq_be16 (b : Byte) : b.zeroExtend 16 = be16 0 b := by simp [be16]

/-- One byte of the conventional register: the high byte moves down, `T16` of the xor of the low byte and the input comes in. -/
theorem stdStep_eq (r : Half) (b : Byte) : stdStep r b = be16 0 (hi r) ^^^ t16 Config.core (lo r ^^^ b) := by
  have split : r ^^^ b.zeroExtend 16 = be16 (hi r) 0 ^^^ be16 0 (lo r ^^^ b) := by
    apply half_ext <;> simp [zeroExtend_eq_be16, hi_xor, lo_xor]
  rw [stdStep, split, t16Shifts_xor, t16Shifts_high, ← zeroExtend_eq_be16 (lo r ^^^ b)]; rfl

/-- One byte of the conventional register is one `crc_step` of the swapped pair. -/
theorem crcStep_swapped (r : Half) (b : Byte) :
    crcStep Config.core (lo r, hi r) b = (lo (stdStep r b), hi (stdStep r b)) := by
  rw [stdStep_eq, hi_xor, lo_xor, hi_be16, lo_be16, show (0 : Byte) = 0#8 from rfl, BitVec.zero_xor]; rfl

/-- The pair is the conventional register, low byte first. -/
theorem crcPair_swapped (data : List Byte) : crcPair Config.core data = (lo (stdCrc data), hi (stdCrc data)) := by
  induction data using List.reverseRecOn with
  | nil => decide
  | append_singleton data b ih =>
    rw [crcPair_append, ih, crcStep_swapped, stdCrc, stdCrc, List.foldl_append]; rfl

end Sys2Proof.Machine

namespace Sys2Proof.Proofs

open Sys2Proof Sys2Proof.Machine

/-- Settles O7: each listing is its table in the order of the index. -/
theorem crcTablesEqualTheListing : Obligations.CrcTablesEqualTheListing := fun i => by
  rw [listedTableHi_eq, listedTableLo_eq, getElem?_map_range_byte (tableHi Config.core),
    getElem?_map_range_byte (tableLo Config.core)]
  exact ⟨rfl, rfl⟩

/-- Settles O9: the residue is 0 since each CRC byte in turn indexes entry 0 of the tables; the check is the residue. -/
theorem crcResidueAndProperties : Obligations.CrcResidueAndProperties :=
  ⟨crc16_nil Config.core, crc16_residue, fun P => (crcMatches_iff_residue (by simp)).2 (crc16_residue P),
    fun _ _ h => congrArg _ h, fun _ _ _ => crcStep_of_xor_eq_zero⟩

/-- Settles O11: the residue determines the last two bytes, because entry 0 is the only zero entry of `TABLE_LO`. -/
theorem checkMatchesExactlyOnZeroResidue : Obligations.CheckMatchesExactlyOnZeroResidue := fun _ => crcMatches_iff_residue

/-- Settles O10: the conventional register and the table pair take each byte in the same way, the one holding its bytes swapped. -/
theorem crc16IsTheByteSwapOfTheConventionalValue : Obligations.Crc16IsTheByteSwapOfTheConventionalValue := by
  intro data; rw [crc16, crcPair_swapped]

/-- Settles O12: both arms of `exec_crcAppend`, the frame split before its last two bytes. -/
theorem crcAppendCompletes : Obligations.CrcAppendCompletes := by
  refine fun frame s => ⟨?_, fun h => by rw [exec_crcAppend, if_pos h]; rfl⟩
  rintro h body a b rfl
  rw [exec_crcAppend, if_neg (by omega), crcAppend_append]; rfl

/-- Settles O13: a composed CRC equals the received two bytes exactly when their numbers do. -/
theorem crcCheckCompletes : Obligations.CrcCheckCompletes := by
  refine fun frame s => ⟨?_, fun h => by rw [exec_crcCheck, if_pos h]; rfl⟩
  rintro h body a b rfl
  have number : (crc16 Config.core body == be16 a b) = decide ((crc16 Config.core body).toNat = a.toNat * 256 + b.toNat) := by
    rw [beq_eq_decide, show a.toNat * 256 + b.toNat = (be16 a b).toNat from (be16_toNat a b).symm]
    simp only [BitVec.toNat_inj]
  rw [exec_crcCheck, if_neg (by omega), crcMatches_append, number]; rfl

end Sys2Proof.Proofs
end

section
/-! SUPPORT. `RX.BYTE` state by state, a completed frame kind by kind, and `RX.TIMEOUT` (41_frame_receiver.md R81 to R88, R91, R92). -/

namespace Sys2Proof.Machine

variable {c : Config} {b : Byte} {now : Time} {s : State}

/-! ### The guard and the store -/

/-- FRAME_MAX as a 9-bit length. -/
theorem rxLen_full_iff : s.rxLen.toNat = Config.core.frameMax ↔ s.rxLen = 256 :=
  ⟨fun h => BitVec.eq_of_toNat_eq h, fun h => congrArg BitVec.toNat h⟩

/-- A length the invariant allows, short of FRAME_MAX, counts one more byte without wrapping. -/
theorem Inv.rxLen_lt (hi : Inv Config.core s) (hl : s.rxLen ≠ 256) : s.rxLen.toNat < 256 :=
  Nat.lt_of_le_of_ne hi.lenLe fun h => hl (rxLen_full_iff.1 h)

theorem toNat_rxLen_succ (h : s.rxLen.toNat < 256) : (s.rxLen + 1).toNat = s.rxLen.toNat + 1 := by
  rw [BitVec.toNat_add]; simp; omega

@[simp] theorem rxStore_buf : (rxStore b s).buf = s.buf.write s.rxLen.toNat b := rfl

/-- What `RX.BYTE` answers of a byte that is consumed. -/
theorem exec_rxByte_consumed {t : State} {tag : Tag} (h : rxStep Config.core b now s = (t, tag)) (htag : tag ≠ .stall) :
    exec (.rxByte b now) s =
      .next { t with upstream := afterConsumed b s.upstream, results := s.results ++ [.tag tag] } := by
  rw [exec_rxByte, h, if_neg htag]

/-- With the buffer full a byte stays upstream and the answer is a stall (R81). -/
theorem exec_rxByte_full (hl : s.rxLen.toNat = Config.core.frameMax) : exec (.rxByte b now) s =
    .next { s with upstream := offered b s.upstream, results := s.results ++ [.tag .stall] } := by
  rw [exec_rxByte, rxStep_full hl, if_pos rfl]

/-! ### The states before a frame is complete -/

theorem rxWaitDataSize_eq : rxWaitDataSize c b s =
    ({ s with
        rxState := .waitData
        rxExpected := if isExc (s.buf.read 1) then s.rxExpected else b.zeroExtend 9 + c.lenOverhead }, .none) := by
  unfold rxWaitDataSize; split <;> rfl

theorem rxWaitData_eq : rxWaitData s =
    ({ s with rxState := if s.rxExpected - 2 ≤ s.rxLen then .waitCrc else s.rxState }, .none) := by
  unfold rxWaitData; split <;> rfl

/-- Short of the expected length a byte in `WAIT_CRC` is only stored (R86). -/
theorem rxStep_waiting (hs : s.rxState = .waitCrc) (hg : s.rxLen.toNat ≠ c.frameMax) (he : s.rxLen + 1 ≠ s.rxExpected) :
    rxStep c b now s = (rxStore b s, .none) := by
  rw [rxStep_waitCrc hs hg, rxWaitCrc, if_pos (by rwa [rxStore_rxLen, rxStore_rxExpected])]

/-- At the expected length it completes the frame, which is classified (R86). -/
theorem rxStep_completing (hs : s.rxState = .waitCrc) (hg : s.rxLen.toNat ≠ c.frameMax) (he : s.rxLen + 1 = s.rxExpected) :
    rxStep c b now s = ((classify c now (rxStore b s)).1.endFrame, (classify c now (rxStore b s)).2) := by
  rw [rxStep_waitCrc hs hg, rxWaitCrc, if_neg (by rw [rxStore_rxLen, rxStore_rxExpected]; exact not_not.2 he)]

/-! ### What a completed frame is -/

/-- The check on the first `n` bytes of the buffer, as the statements name it (R86, R92). -/
theorem crcMatches_iff_trailingCrcOk {m : Memory} {n : Nat} (h : 2 ≤ n) :
    crcMatches c (m.slice 0 n) = true ↔ trailingCrcOk c m n := by
  rw [crcMatches_slice c m h, beq_iff_eq, trailingCrcOk]

theorem classify_of_mismatch (h : crcMatches c (s.buf.slice 0 s.rxLen.toNat) = false) :
    classify c now s = ({ s with log := s.log ++ [.crcMismatch] }, .crcError) := by
  rw [classify, h]; rfl

theorem classify_of_exception (h : crcMatches c (s.buf.slice 0 s.rxLen.toNat) = true) (hexc : isExc (s.buf.read 1) = true) :
    classify c now s = ({ s with log := s.log ++ [.exception (s.buf.read 0) (s.buf.read 2)] },
      .exception (s.buf.read 0) (s.buf.read 2)) := by
  rw [classify, if_pos h, if_pos hexc]; rfl

theorem classify_of_decodable (h : crcMatches c (s.buf.slice 0 s.rxLen.toNat) = true) (hexc : isExc (s.buf.read 1) = false)
    (hd : isDecodable c (s.buf.read 1) s.rxLen = true) :
    classify c now s = ({ s with
      ring := s.ring.write (writeSlot c s.wc) (decodeRecord c s.buf s.wc now), wc := counterBits c (s.wc + 1) },
      .frameDecoded s.wc) := by
  rw [classify, if_pos h, if_neg (by simp [hexc]), decFrame, if_pos hd]; rfl

theorem classify_of_other (h : crcMatches c (s.buf.slice 0 s.rxLen.toNat) = true) (hexc : isExc (s.buf.read 1) = false)
    (hd : isDecodable c (s.buf.read 1) s.rxLen = false) : classify c now s = (s, .frameIgnored) := by
  rw [classify, if_pos h, if_neg (by simp [hexc]), decFrame, if_neg (by simp [hd])]

/-- In `WAIT_CRC` the header stands in the buffer: a byte stored there leaves it (10_state.md R28). -/
theorem Inv.rxStore_header (hi : Inv Config.core s) (hs : s.rxState = .waitCrc) {a : Nat} (ha : a < 4) :
    (rxStore b s).buf.read a = s.buf.read a := by
  have hlow := (hi.crc hs).1
  rw [rxStore_buf, Memory.read_write hi.bufOk.1, if_neg (by omega)]

/-- The check of the frame a byte completes (R86). -/
theorem Inv.completed_crc (hi : Inv Config.core s) (hs : s.rxState = .waitCrc) (hl : s.rxLen ≠ 256) :
    crcMatches Config.core ((rxStore b s).buf.slice 0 (rxStore b s).rxLen.toNat) = true ↔
      trailingCrcOk Config.core (s.buf.write s.rxLen.toNat b) (s.rxLen.toNat + 1) := by
  have hlow := (hi.crc hs).1
  rw [rxStore_rxLen, toNat_rxLen_succ (hi.rxLen_lt hl), crcMatches_iff_trailingCrcOk (by omega), rxStore_buf]

/-- Bit 7 clear, as the statements write it. -/
theorem isExc_eq_false_iff (f : Byte) : isExc f = false ↔ f < 0x80#8 := by
  rw [← Bool.not_eq_true, isExc_iff, BitVec.not_le]

/-! ### The frame of the receiver's step in memory, and what it accepts -/

/-- The receiver's step stores its byte at `rx_len` unless the buffer is full (R81). -/
theorem rxStep_buf (c : Config) (b : Byte) (now : Time) (s : State) :
    (rxStep c b now s).1.buf = if s.rxLen.toNat = c.frameMax then s.buf else s.buf.write s.rxLen.toNat b := by
  rcases rxStep_cases c b now s with ⟨hg, h⟩ | ⟨hg, ⟨_, h⟩ | ⟨_, h⟩ | ⟨_, h⟩ | ⟨_, h⟩ | ⟨_, _, h⟩ | ⟨_, _, h⟩⟩ <;> rw [h]
  · rw [if_pos hg]
  all_goals rw [if_neg hg]
  any_goals rfl
  rcases classify_cases c now (rxStore b s) with ⟨_, h⟩ | ⟨_, _, h⟩ | ⟨_, _, _, h⟩ | ⟨_, _, _, h⟩ <;> rw [h] <;> rfl

/-- The tags of a frame the receiver accepts (R92). -/
def Accepted (tag : Tag) : Prop := (∃ index, tag = .frameDecoded index) ∨ tag = .frameIgnored ∨ ∃ addr code, tag = .exception addr code

theorem not_accepted_none : ¬ Accepted .none := by simp [Accepted]
theorem not_accepted_stall : ¬ Accepted .stall := by simp [Accepted]
theorem not_accepted_crcError : ¬ Accepted .crcError := by simp [Accepted]

/-- An accepted byte completed a frame whose check passed (R86, R92). -/
theorem completed_of_accepted (h : Accepted (rxStep c b now s).2) :
    s.rxLen.toNat ≠ c.frameMax ∧ s.rxState = .waitCrc ∧ s.rxLen + 1 = s.rxExpected ∧
      crcMatches c ((rxStore b s).buf.slice 0 (rxStore b s).rxLen.toNat) = true := by
  rcases rxStep_cases c b now s with ⟨_, e⟩ | ⟨hg, ⟨_, e⟩ | ⟨_, e⟩ | ⟨_, e⟩ | ⟨_, e⟩ | ⟨_, _, e⟩ | ⟨hs, he, e⟩⟩ <;> rw [e] at h
  · exact absurd h not_accepted_stall
  iterate 5 exact absurd h not_accepted_none
  cases hm : crcMatches c ((rxStore b s).buf.slice 0 (rxStore b s).rxLen.toNat)
  · rw [classify_of_mismatch hm] at h; exact absurd h not_accepted_crcError
  · exact ⟨hg, hs, he, rfl⟩

end Sys2Proof.Machine

namespace Sys2Proof.Proofs

open Sys2Proof Sys2Proof.Machine

/-- Settles O14: the guard comes before the store. -/
theorem rxByteStallsOnAFullBuffer : Obligations.RxByteStallsOnAFullBuffer :=
  fun _ _ _ hl => exec_rxByte_full (rxLen_full_iff.2 hl)

/-- Settles O15: the action of `WAIT_SOF` after the store. -/
theorem rxByteInWaitSof : Obligations.RxByteInWaitSof := by
  intro b now s hs hl
  rw [exec_rxByte_consumed (rxStep_waitSof hs (mt rxLen_full_iff.1 hl)) (by simp), clockBits_core]; rfl

/-- Settles O16: the action of `WAIT_FUNCTION` after the store; bit 7 is set from 0x80 up. -/
theorem rxByteInWaitFunction : Obligations.RxByteInWaitFunction := by
  intro b now s hs hl
  rw [exec_rxByte_consumed (rxStep_waitFunction hs (mt rxLen_full_iff.1 hl)) (by simp)]
  simp only [isExc_iff]; rfl

/-- Settles O17: the action of `WAIT_DATA_SIZE` after the store; the byte-count plus 5 fits 9 bits. -/
theorem rxByteInWaitDataSize : Obligations.RxByteInWaitDataSize := by
  intro b now s hs hl
  have hstep := rxStep_waitDataSize (b := b) (now := now) hs (mt rxLen_full_iff.1 hl)
  rw [rxWaitDataSize_eq] at hstep
  rw [exec_rxByte_consumed hstep (by simp)]
  simp only [isExc_iff, show Config.core.lenOverhead = 5 from rfl, zeroExtend_add_five]; rfl

/-- Settles O18: the action of `WAIT_DATA` after the store. -/
theorem rxByteInWaitData : Obligations.RxByteInWaitData := by
  intro b now s hs hl
  have hstep := rxStep_waitData (b := b) (now := now) hs (mt rxLen_full_iff.1 hl)
  rw [rxWaitData_eq, show (rxStore b s).rxState = .waitData from hs] at hstep
  rw [exec_rxByte_consumed hstep (by simp)]; rfl

/-- Settles O19: short of the expected length `WAIT_CRC` only stores. -/
theorem rxByteInWaitCrcStillWaiting : Obligations.RxByteInWaitCrcStillWaiting := by
  intro b now s hs hl he
  rw [exec_rxByte_consumed (rxStep_waiting hs (mt rxLen_full_iff.1 hl) he) (by simp)]; rfl

/-- Settles O20: the completed frame is classified as a mismatch. -/
theorem rxByteAbandonsACrcMismatch : Obligations.RxByteAbandonsACrcMismatch := by
  intro b now s hi hs hl he hcrc
  have hmatch := Bool.eq_false_iff.2 (mt (hi.completed_crc hs hl).1 hcrc)
  have hstep := rxStep_completing (b := b) (now := now) hs (mt rxLen_full_iff.1 hl) he
  rw [classify_of_mismatch hmatch] at hstep
  rw [exec_rxByte_consumed hstep (by simp)]; rfl

/-- Settles O21: it is classified as an exception; the last byte stored leaves address, function and code. -/
theorem rxByteReportsAnException : Obligations.RxByteReportsAnException := by
  intro b now s hi hs hl he hcrc hexc
  have header {a : Nat} (ha : a < 4) := hi.rxStore_header (b := b) hs ha
  have hstep := rxStep_completing (b := b) (now := now) hs (mt rxLen_full_iff.1 hl) he
  rw [classify_of_exception ((hi.completed_crc hs hl).2 hcrc) (by rw [header (by decide), isExc_iff]; exact hexc),
    header (by decide), header (by decide)] at hstep
  rw [exec_rxByte_consumed hstep (by simp)]; rfl

/-- Settles O22: it is of the one shape the decoder accepts, and the record is that of the payload in the buffer. -/
theorem rxByteDecodesAMeasurement : Obligations.RxByteDecodesAMeasurement := by
  intro b now s hi hs hl he hcrc hfun
  have hl256 : s.rxLen ≠ 256 := by rw [hl]; decide
  have hlen : s.rxLen.toNat = 60 := by rw [hl]; rfl
  have header : (rxStore b s).buf.read 1 = 0x03 := (hi.rxStore_header hs (by decide)).trans hfun
  have hmatch := (hi.completed_crc (b := b) hs hl256).2 (by rw [hlen]; exact hcrc)
  have hstep := rxStep_completing (b := b) (now := now) hs (mt rxLen_full_iff.1 hl256) (by rw [hl, he]; rfl)
  rw [classify_of_decodable hmatch (by rw [header]; rfl) (by rw [header, rxStore_rxLen, hl]; rfl), counterBits_core,
    decodeRecord_eq_recordOf, rxStore_buf, hlen] at hstep
  rw [exec_rxByte_consumed hstep (by simp)]; rfl

/-- Settles O23: it is of another shape, and `classify` returns the state it was given. -/
theorem rxByteIgnoresAnotherShape : Obligations.RxByteIgnoresAnotherShape := by
  intro b now s hi hs hl he hcrc hexc hshape
  have header := hi.rxStore_header (b := b) hs (show 1 < 4 by decide)
  have hdec : isDecodable Config.core ((rxStore b s).buf.read 1) (rxStore b s).rxLen = false := by
    rw [← Bool.not_eq_true, isDecodable_iff, header, rxStore_rxLen, toNat_rxLen_succ (hi.rxLen_lt hl)]
    exact fun ⟨hf, h61⟩ => hshape ⟨hf, BitVec.eq_of_toNat_eq (Nat.succ.inj h61)⟩
  have hstep := rxStep_completing (b := b) (now := now) hs (mt rxLen_full_iff.1 hl) he
  rw [classify_of_other ((hi.completed_crc hs hl).2 hcrc) (by rw [header, isExc_eq_false_iff]; exact hexc) hdec] at hstep
  rw [exec_rxByte_consumed hstep (by simp)]; rfl

/-- Settles O24: the one byte stored, and the one slot written when a frame is decoded, through the reads after them. -/
theorem rxByteMemoryFrame : Obligations.RxByteMemoryFrame := by
  intro b now s t hbuf hring h
  rw [exec_rxByte] at h; cases h
  have hb := rxStep_buf Config.core b now s
  obtain ⟨hts, -, htx, -, hpend⟩ := rxStep_frame Config.core b now s
  refine ⟨fun a ha => ?other, ?stored, fun slot hslot => ?slot, fun hno => ?ring, hts, htx, hpend⟩
  case other =>
    simp only [hb]
    split
    · rfl
    · rw [Memory.read_write hbuf, if_neg ha]
  case stored =>
    simp only [hb, rxLen_full_iff]
    split
    next hl => rw [hl]; rfl
    next => rw [Memory.read_write hbuf, if_pos rfl]
  case slot =>
    rcases rxStep_ring Config.core b now s with ⟨_, _, hr⟩ | ⟨_, _, rec, _, hr⟩ <;> simp only [hr]
    exact (Ring.read_write hring _ _ _).trans (if_neg hslot)
  case ring =>
    rcases rxStep_ring Config.core b now s with ⟨_, hw, hr⟩ | ⟨htag, _⟩
    · exact ⟨hr, hw⟩
    · exact absurd (by rw [htag]) (hno s.wc)

/-- Settles O25: an accepted byte completed a frame whose check passed, and the invariant says which length was expected. -/
theorem acceptedFramesHaveTheirLengthAndCrc : Obligations.AcceptedFramesHaveTheirLengthAndCrc := by
  intro b now s t tag hi h hres hacc
  rw [exec_rxByte] at h; cases h
  have htag : tag = (rxStep Config.core b now s).2 := by simpa using hres.symm
  obtain ⟨hg, hs, he, hmatch⟩ := completed_of_accepted (htag ▸ hacc : Accepted (rxStep Config.core b now s).2)
  have hlt := hi.rxLen_lt (mt rxLen_full_iff.2 hg)
  have hlen : s.rxLen.toNat + 1 = s.rxExpected.toNat := by rw [← he, toNat_rxLen_succ hlt]
  have hbuf : (rxStep Config.core b now s).1.buf = (rxStore b s).buf := by rw [rxStep_buf, if_neg hg, rxStore_buf]
  have announced := hi.announced (.inr hs)
  simp only [hbuf, hi.rxStore_header hs (show 1 < 4 by decide), hi.rxStore_header hs (show 2 < 4 by decide)]
  refine ⟨hlen, ?crc, fun hexc => ?clear, fun hexc => ?set⟩
  case crc => rw [← hlen]; exact (hi.completed_crc hs (mt rxLen_full_iff.2 hg)).1 hmatch
  case clear =>
    rw [(isExc_eq_false_iff _).2 hexc, if_neg (by decide), show Config.core.lenOverhead = 5 from rfl, zeroExtend_add_five]
      at announced
    have hcount := (s.buf.read 2).isLt
    exact ⟨by rw [announced, BitVec.toNat_ofNat, Nat.mod_eq_of_lt (by omega)], by omega⟩
  case set => rw [announced, if_pos ((isExc_iff _).2 hexc)]; rfl

/-- Settles O26: `rxStep_cases` and `rxTimeout_cases`, state by state, with the lengths the invariant gives. -/
theorem receiverTransitions : Obligations.ReceiverTransitions := by
  intro b now s t hi
  constructor
  · intro h
    rw [exec_rxByte] at h; cases h
    have full {v : RxState} (hs : s.rxState = v) (hl : s.rxLen = 256) :
        (rxStep Config.core b now s).1.rxState = v ∧ (rxStep Config.core b now s).1.rxLen = 256 := by
      rw [rxStep_full (rxLen_full_iff.2 hl)]; exact ⟨hs, hl⟩
    refine ⟨fun hs => ?sof, fun hs => ?function, fun hs => ?dataSize, full, fun hs hl => ?data, full, fun hs hl he => ?waiting,
      fun hs hl he => ?completing⟩
    case sof =>
      have hl := hi.sof.1 hs
      rw [rxStep_waitSof hs (by rw [hl]; decide)]
      exact ⟨rfl, by simp [rxWaitSof, hl]⟩
    case function =>
      have hl := hi.function hs
      rw [rxStep_waitFunction hs (by rw [hl]; decide)]
      exact ⟨rfl, by simp [rxWaitFunction, hl]⟩
    case dataSize =>
      have hl := (hi.dataSize hs).1
      rw [rxStep_waitDataSize hs (by rw [hl]; decide), rxWaitDataSize_eq]
      exact ⟨rfl, by simp [hl]⟩
    case data =>
      have hlen := toNat_rxLen_succ (hi.rxLen_lt hl)
      have hexp : (s.rxExpected - 2).toNat = s.rxExpected.toNat - 2 :=
        BitVec.toNat_sub_of_le (BitVec.le_def.2 (Nat.le_trans (by decide) (hi.data hs).1))
      rw [rxStep_waitData hs (mt rxLen_full_iff.1 hl), rxWaitData_eq]
      refine ⟨hlen, ?_⟩
      simp only [rxStore_rxExpected, rxStore_rxLen, BitVec.le_def, hexp, hlen, show (rxStore b s).rxState = .waitData from hs]
    case waiting =>
      have hlen := toNat_rxLen_succ (hi.rxLen_lt hl)
      rw [rxStep_waiting hs (mt rxLen_full_iff.1 hl) fun h => he (by rw [← h, hlen])]
      exact ⟨hs, hlen⟩
    case completing =>
      have hlen := toNat_rxLen_succ (hi.rxLen_lt hl)
      rw [rxStep_completing hs (mt rxLen_full_iff.1 hl) (BitVec.eq_of_toNat_eq (hlen.trans he))]
      exact ⟨rfl, rfl⟩
  · intro h
    rw [exec_rxTimeout] at h; cases h
    rcases rxTimeout_cases Config.core now s with ⟨hs, ht, e⟩ | ⟨hno, e⟩ <;> rw [e]
    · rw [if_pos ⟨hs, (timedOut_iff _ _).1 ht⟩]; exact ⟨rfl, rfl⟩
    · rw [if_neg fun ⟨hs, ht⟩ => hno.elim hs (by simp [(timedOut_iff _ _).2 ht])]; exact ⟨rfl, rfl⟩

/-- Settles O27: `excReport` and its answer. -/
theorem excReportCompletes : Obligations.ExcReportCompletes := fun s => exec_excReport s

/-- Settles O28: the two cases of `rxTimeout_cases`. -/
theorem rxTimeoutCompletes : Obligations.RxTimeoutCompletes := by
  intro now s
  rw [← timedOut_iff, exec_rxTimeout]
  rcases rxTimeout_cases Config.core now s with ⟨hs, ht, e⟩ | ⟨hno, e⟩ <;> rw [e]
  · refine ⟨fun _ _ => rfl, fun h => ?_⟩
    rw [← Nat.not_lt, ← timedOut_iff] at h
    exact absurd ht (h.resolve_left hs)
  · exact ⟨fun hs ht => absurd hno (by simp [hs, ht]), fun _ => rfl⟩

/-- Settles O57: the same two cases on any configuration; elapsed time is the difference modulo the period of the clock. -/
theorem timeoutIsModuloTheClockPeriod : Obligations.TimeoutIsModuloTheClockPeriod := by
  intro c now s hw hs
  have expired : timedOut c now s.rxStartTs = true ↔
      (c.timeoutUs.toNat : Int) < ((now.toNat : Int) - s.rxStartTs.toNat) % 2 ^ c.tsWidth := by
    rw [timedOut, decide_eq_true_iff, BitVec.lt_def, ← toNat_elapsed hw, Int.ofNat_lt]
  rw [show execOn c (.rxTimeout now) s = .next ((rxTimeout c now s).1.answer (.tag (rxTimeout c now s).2)) from rfl]
  rcases rxTimeout_cases c now s with ⟨_, ht, e⟩ | ⟨hno, e⟩ <;> rw [e]
  · rw [if_pos (expired.1 ht)]; rfl
  · rw [if_neg (mt expired.2 (by simpa using hno.resolve_left hs))]; rfl

end Sys2Proof.Proofs
end

section
/-! SUPPORT. Bytes in sequence: `RX.POLL` as its bytes (41_frame_receiver.md R89), a frame that never completes (R90), and an exception
response under the source code's EXC_LEN (R95). -/

namespace Sys2Proof.Machine

/-! ### The poll as its bytes -/

theorem execAll_cons_next {i : Instr} {is : List Instr} {s t : State} (h : exec i s = .next t) :
    execAll (i :: is) s = execAll is t := by
  rw [execAll, h]

/-- The drain neither reads nor writes the serial hardware's buffer and the results. -/
theorem drain_env (c : Config) (now : Time) (avail : List Byte) (s : State) (up : List Byte) (rs : List Result) :
    drain c now avail { s with upstream := up, results := rs } =
      { drain c now avail s with state := { (drain c now avail s).state with upstream := up, results := rs } } := by
  induction avail generalizing s with
  | nil => rfl
  | cons b rest ih =>
    have env := rxStep_env c b now s up rs
    by_cases h1 : (rxStep c b now s).2 = .stall
    · rw [drain_cons_stall rest h1, drain_cons_stall rest (by rw [env]; exact h1), env]
    by_cases h2 : (rxStep c b now s).2 = .crcError
    · rw [drain_cons_crcError rest h2, drain_cons_crcError rest (by rw [env]; exact h2), env]
    rw [drain_cons_go rest h1 h2, drain_cons_go rest (by rw [env]; exact h1) (by rw [env]; exact h2), env, ih]

/-- A drain answers nothing of its own. -/
theorem drain_results (c : Config) (now : Time) (avail : List Byte) (s : State) :
    (drain c now avail s).state.results = s.results :=
  drain_induction (P := fun t => t.results = s.results) (fun b t h => (rxStep_frame c b now t).2.2.2.1.trans h) avail s rfl

/-- Nor does it read or write an answer given before it. -/
theorem drain_answer (c : Config) (now : Time) (avail : List Byte) (s : State) (r : Result) :
    drain c now avail (s.answer r) = { drain c now avail s with state := (drain c now avail s).state.answer r } := by
  have hup : (drain c now avail s).state.upstream = s.upstream :=
    drain_induction (P := fun t => t.upstream = s.upstream) (fun b t h => (rxStep_frame c b now t).2.1.trans h) avail s rfl
  rw [show s.answer r = { s with upstream := s.upstream, results := s.results ++ [r] } from rfl, drain_env, ← hup,
    ← drain_results c now avail s]
  rfl

/-- A byte stalls only when the buffer is full, and then nothing changes. -/
theorem full_of_stall {c : Config} {b : Byte} {now : Time} {s : State} (h : (rxStep c b now s).2 = .stall) :
    s.rxLen.toNat = c.frameMax ∧ rxStep c b now s = (s, .stall) := by
  rcases rxStep_cases c b now s with h' | ⟨_, ⟨_, e⟩ | ⟨_, e⟩ | ⟨_, e⟩ | ⟨_, e⟩ | ⟨_, _, e⟩ | ⟨_, _, e⟩⟩
  · exact h'
  iterate 5 rw [e] at h; cases h
  rw [e] at h; exact absurd h (classify_tag c now (rxStore b s)).2

/-- A poll reports every tag but `RES_NONE`. -/
theorem event_append_filter (t : Tag) (tags : List Tag) :
    event t ++ tags.filter (fun t => decide (t ≠ .none)) = (t :: tags).filter (fun t => decide (t ≠ .none)) := by
  by_cases h : t = .none <;> simp [event, h]

/-- A drain is `RX.BYTE` on the bytes it takes: the same state up to the serial hardware's bookkeeping, the tags one by one. It stops
early only after a CRC mismatch or before a byte that would stall. -/
theorem execAll_of_drain (now : Time) (avail : List Byte) (s : State) : ∃ (tags : List Tag) (up : List Byte),
    execAll ((avail.take (drain Config.core now avail s).consumed).map fun b => .rxByte b now) s =
      some { (drain Config.core now avail s).state with upstream := up, results := s.results ++ tags.map .tag } ∧
    (drain Config.core now avail s).events = tags.filter (fun t => decide (t ≠ .none)) ∧
    .stall ∉ tags ∧ .crcError ∉ tags.dropLast ∧
    ((drain Config.core now avail s).consumed < avail.length →
      tags.getLast? = some .crcError ∨ (drain Config.core now avail s).state.rxLen = 256) := by
  induction avail generalizing s with
  | nil => exact ⟨[], s.upstream, by simp [execAll], rfl, by simp, by simp, by simp⟩
  | cons b rest ih =>
    by_cases h1 : (rxStep Config.core b now s).2 = .stall
    · obtain ⟨hfull, hstep⟩ := full_of_stall h1
      rw [drain_cons_stall rest h1, hstep]
      exact ⟨[], s.upstream, by simp [execAll], rfl, by simp, by simp, fun _ => .inr (rxLen_full_iff.1 hfull)⟩
    have hexec : exec (.rxByte b now) s = .next { (rxStep Config.core b now s).1 with
        upstream := afterConsumed b s.upstream, results := s.results ++ [.tag (rxStep Config.core b now s).2] } := by
      rw [exec_rxByte, if_neg h1]
    by_cases h2 : (rxStep Config.core b now s).2 = .crcError
    · rw [drain_cons_crcError rest h2]
      refine ⟨[.crcError], afterConsumed b s.upstream, ?_, by simp, by simp, by simp, fun _ => .inl rfl⟩
      rw [List.take_succ_cons, List.take_zero, List.map_singleton, execAll_cons_next hexec, h2]; rfl
    obtain ⟨tags, up, hall, hevents, hstall, hcrc, hearly⟩ := ih { (rxStep Config.core b now s).1 with
      upstream := afterConsumed b s.upstream, results := s.results ++ [.tag (rxStep Config.core b now s).2] }
    rw [drain_env] at hall hevents hearly
    rw [drain_cons_go rest h1 h2]
    refine ⟨(rxStep Config.core b now s).2 :: tags, up, ?_, ?_, ?_, ?_, fun h => ?_⟩
    · rw [List.take_succ_cons, List.map_cons, execAll_cons_next hexec, hall]; simp
    · rw [hevents, event_append_filter]
    · exact List.not_mem_cons_of_ne_of_not_mem (Ne.symm h1) hstall
    · cases tags with
      | nil => simp
      | cons t tags => exact List.not_mem_cons_of_ne_of_not_mem (Ne.symm h2) hcrc
    · refine (hearly (by simpa using h)).imp_left fun hlast => ?_
      simp [List.getLast?_cons, hlast]

/-- The timeout check answers nothing of its own, and neither stalls nor ends in a mismatch. -/
theorem rxTimeout_tag (c : Config) (now : Time) (s : State) :
    (rxTimeout c now s).2 ≠ .stall ∧ (rxTimeout c now s).2 ≠ .crcError ∧ (rxTimeout c now s).1.results = s.results := by
  rcases rxTimeout_cases c now s with ⟨_, _, e⟩ | ⟨_, e⟩ <;> rw [e] <;> simp

/-! ### A frame announced longer than the buffer -/

/-- A frame under way, its header stored, that expects `e` bytes. -/
structure Filling (e : Len) (s : State) : Prop where
  inv : Inv Config.core s
  state : s.rxState = .waitData ∨ s.rxState = .waitCrc
  expected : s.rxExpected = e

/-- `t` has the log, the counter and the ring as `s` has them. -/
def SameRecords (s t : State) : Prop := t.log = s.log ∧ t.wc = s.wc ∧ t.ring = s.ring

theorem SameRecords.trans {s t u : State} (h₁ : SameRecords s t) (h₂ : SameRecords t u) : SameRecords s u :=
  ⟨h₂.1.trans h₁.1, h₂.2.1.trans h₁.2.1, h₂.2.2.trans h₁.2.2⟩

/-- With room left, a byte of a frame longer than the buffer is stored and reports nothing. -/
theorem Filling.store {e : Len} {s : State} (h : Filling e s) (he : 256 < e.toNat) (hl : s.rxLen.toNat < 256) (b : Byte)
    (now : Time) : ∃ t, exec (.rxByte b now) s = .next t ∧ Filling e t ∧ t.rxLen.toNat = s.rxLen.toNat + 1 ∧
      t.results = s.results ++ [.tag .none] ∧ SameRecords s t := by
  have hg : s.rxLen.toNat ≠ Config.core.frameMax := Nat.ne_of_lt hl
  have hne : s.rxLen + 1 ≠ s.rxExpected := fun heq => by
    have := congrArg BitVec.toNat heq; rw [toNat_rxLen_succ hl, h.expected] at this; omega
  obtain ⟨v, hv, hstep⟩ : ∃ v, (v = .waitData ∨ v = .waitCrc) ∧
      rxStep Config.core b now s = ({ rxStore b s with rxState := v }, .none) := by
    rcases h.state with hs | hs
    · rw [rxStep_waitData hs hg, rxWaitData_eq]
      refine ⟨_, ?_, rfl⟩
      split
      · exact .inr rfl
      · exact .inl hs
    · exact ⟨.waitCrc, .inr rfl, by rw [rxStep_waiting hs hg hne, ← hs]; rfl⟩
  have hinv := rxStep_inv fitsReceiver_core b now s h.inv
  rw [hstep] at hinv
  exact ⟨_, exec_rxByte_consumed hstep (by simp), ⟨hinv.sameCore (sameCore_env ..), hv, h.expected⟩, toNat_rxLen_succ hl, rfl,
    rfl, rfl, rfl⟩

/-- With the buffer full a byte stalls. -/
theorem Filling.stall {e : Len} {s : State} (h : Filling e s) (hl : s.rxLen.toNat = 256) (b : Byte) (now : Time) :
    ∃ t, exec (.rxByte b now) s = .next t ∧ Filling e t ∧ t.rxLen.toNat = 256 ∧
      t.results = s.results ++ [.tag .stall] ∧ SameRecords s t := by
  exact ⟨_, exec_rxByte_full hl, ⟨h.inv.sameCore (sameCore_env ..), h.state, h.expected⟩, hl, rfl, rfl, rfl, rfl⟩

/-- What `n` bytes answer from length `len`: `RES_NONE` while they are stored, `RES_STALL` from then on. -/
def fillTags (len n : Nat) : List Tag := List.replicate (min (256 - len) n) .none ++ List.replicate (n - (256 - len)) .stall

theorem fillTags_store {len : Nat} (h : len < 256) (n : Nat) : fillTags len (n + 1) = .none :: fillTags (len + 1) n := by
  rw [fillTags, fillTags, show min (256 - len) (n + 1) = min (256 - (len + 1)) n + 1 by omega, List.replicate_succ,
    show n + 1 - (256 - len) = n - (256 - (len + 1)) by omega, List.cons_append]

theorem fillTags_full (n : Nat) : fillTags 256 (n + 1) = .stall :: fillTags 256 n := by
  simp [fillTags, List.replicate_succ]

/-- Any further bytes fill the buffer and then stall; the frame never completes (R90). -/
theorem Filling.execAll {e : Len} (he : 256 < e.toNat) (feed : List (Byte × Time)) (s : State) (h : Filling e s) :
    ∃ u, Machine.execAll (feed.map fun p => .rxByte p.1 p.2) s = some u ∧ Filling e u ∧
      u.rxLen.toNat = min 256 (s.rxLen.toNat + feed.length) ∧
      u.results = s.results ++ (fillTags s.rxLen.toNat feed.length).map .tag ∧ SameRecords s u := by
  have hle : s.rxLen.toNat ≤ 256 := h.inv.lenLe
  induction feed generalizing s with
  | nil => exact ⟨s, rfl, h, by simp; omega, by simp [fillTags], rfl, rfl, rfl⟩
  | cons p feed ih =>
    by_cases hl : s.rxLen.toNat = 256
    · obtain ⟨t, hexec, ht, hlen, hres, hsame⟩ := h.stall hl p.1 p.2
      obtain ⟨u, hall, hu, hulen, hures, husame⟩ := ih t ht ht.inv.lenLe
      refine ⟨u, by rw [List.map_cons, execAll_cons_next hexec, hall], hu, ?_, ?_, hsame.trans husame⟩
      · rw [hulen, hlen, hl, List.length_cons]; omega
      · rw [hures, hres, hlen, hl, List.length_cons, fillTags_full]; simp
    · have hlt : s.rxLen.toNat < 256 := by omega
      obtain ⟨t, hexec, ht, hlen, hres, hsame⟩ := h.store he hlt p.1 p.2
      obtain ⟨u, hall, hu, hulen, hures, husame⟩ := ih t ht ht.inv.lenLe
      refine ⟨u, by rw [List.map_cons, execAll_cons_next hexec, hall], hu, ?_, ?_, hsame.trans husame⟩
      · rw [hulen, hlen, List.length_cons]; omega
      · rw [hures, hres, hlen, List.length_cons, fillTags_store hlt]; simp

/-- With the buffer full the invariant tells the state by the expected length (10_state.md R28). -/
theorem Filling.full_state {e : Len} {s : State} (h : Filling e s) (hl : s.rxLen.toNat = 256) :
    s.rxState = if e.toNat ≤ 258 then .waitCrc else .waitData := by
  rcases h.state with hs | hs
  · have hdata := (h.inv.data hs).2.1
    rw [hl, h.expected] at hdata
    rw [hs, if_neg (by omega)]
  · have hcrc := (h.inv.crc hs).1
    rw [hl, h.expected] at hcrc
    rw [hs, if_pos (by omega)]

end Sys2Proof.Machine

namespace Sys2Proof.Proofs

open Sys2Proof Sys2Proof.Machine

/-- Settles O29: the timeout check, then `execAll_of_drain`. -/
theorem pollIsTimeoutThenBytes : Obligations.PollIsTimeoutThenBytes := by
  intro now avail s
  obtain ⟨hstall, hcrc, hres⟩ := rxTimeout_tag Config.core now s
  obtain ⟨tags, up, hall, hevents, hstalls, hcrcs, hearly⟩ :=
    execAll_of_drain now avail ((rxTimeout Config.core now s).1.answer (.tag (rxTimeout Config.core now s).2))
  rw [drain_answer] at hall hevents hearly
  refine ⟨(drain Config.core now avail (rxTimeout Config.core now s).1).consumed, (rxTimeout Config.core now s).2 :: tags, _,
    drain_consumed_le .., (execAll_cons_next (exec_rxTimeout s now)).trans hall, ?_, ?_, ?_, ?_, fun h => ?_⟩
  · simp [hres]
  · have hd := (drain_results Config.core now avail (rxTimeout Config.core now s).1).trans hres
    rw [exec_rxPoll, rxPoll, ← event_append_filter, ← hevents, State.answer, State.setUpstream, hd]; rfl
  · exact List.not_mem_cons_of_ne_of_not_mem (Ne.symm hstall) hstalls
  · cases tags with
    | nil => simp
    | cons t tags => exact List.not_mem_cons_of_ne_of_not_mem (Ne.symm hcrc) hcrcs
  · refine (hearly h).imp_left fun hlast => ?_
    simp [List.getLast?_cons, hlast]

/-- Settles O30: the byte-count announces more than the buffer holds, so every further byte is one of a `Filling` frame. -/
theorem oversizeFramesNeverComplete : Obligations.OversizeFramesNeverComplete := by
  intro s b now feed hi hs hexc hb
  have hlt := b.isLt
  have hlen := (hi.dataSize hs).1
  have hclear : isExc ((rxStore b s).buf.read 1) = false := by
    rw [rxStore_buf, Memory.read_write hi.bufOk.1, if_neg (by rw [hlen]; decide), isExc_eq_false_iff]; exact hexc
  have hstep := rxStep_waitDataSize (c := Config.core) (b := b) (now := now) hs (by rw [hlen]; decide)
  rw [rxWaitDataSize_eq, hclear, if_neg (by decide), show Config.core.lenOverhead = 5 from rfl, zeroExtend_add_five] at hstep
  have hexp : (BitVec.ofNat 9 (b.toNat + 5)).toNat = b.toNat + 5 := by
    rw [BitVec.toNat_ofNat, Nat.mod_eq_of_lt (by omega)]
  have hinv := rxStep_inv fitsReceiver_core b now s hi
  rw [hstep] at hinv
  obtain ⟨u, hall, hu, hulen, hures, hlog, hwc, hring⟩ := Filling.execAll (e := BitVec.ofNat 9 (b.toNat + 5)) (by omega) feed _
    ⟨hinv.sameCore (sameCore_env _ s.lastSendTs (afterConsumed b s.upstream) s.log s.tx (s.results ++ [.tag .none]) s.pending),
      .inl rfl, rfl⟩
  have hthree : (rxStore b s).rxLen.toNat = 3 := by rw [rxStore_rxLen, hlen]; rfl
  simp only [hthree] at hulen hures
  refine ⟨u, fillTags 2 (1 + feed.length), ?_, ?_, ?_, ?_, hulen, hu.state, fun h => ?_, hlog, hwc, hring⟩
  · rw [execAll_cons_next (exec_rxByte_consumed hstep (by simp))]; exact hall
  · rw [hures, Nat.add_comm 1, fillTags_store (by decide)]; simp
  · rw [fillTags, show 1 + feed.length - (256 - 2) = feed.length - 253 by omega]
  · rw [hu.expected, hexp]
  · rw [hu.full_state (by omega), hexp]
    exact if_congr (by omega) rfl rfl

end Sys2Proof.Proofs
end

section
/-! SUPPORT. Whole frames on the wire from an idle receiver (30_encoding.md R51 to R53, R61), after a timeout (41_frame_receiver.md R94),
and under the source code's EXC_LEN (R95). -/

namespace Sys2Proof.Machine

/-! ### A received frame is a poll -/

/-- Every received row means: its bytes arrive and a poll takes them (log 5). -/
theorem exec_of_encode_arrival {i : Instr} {frame : List Byte} {now : Time} (h : encode i = some (.arrival frame now))
    (s : State) : exec i s = .next (receive Config.core frame now s) := by
  cases i with
  | respExc address function code crc now => cases h; rfl
  | respRead14 address payload crc now => cases h; rfl
  | respOther address function byteCount data crc now => cases h; rfl
  | _ => simp [encode] at h

/-- A poll takes bytes that arrive. -/
theorem exec_rxPoll_eq_receive (frame : List Byte) (now : Time) (s : State) :
    exec (.rxPoll now (s.upstream ++ frame)) s = .next (receive Config.core frame now s) := exec_rxPoll s now _

/-! ### A whole response from a receiver that waits for a first byte -/

/-- An exception response is laid out as a response without data. -/
theorem respExcBytes_eq (address function code : Byte) (crc : Half) :
    respExcBytes address function code crc = respOtherBytes address function code [] crc := rfl

/-- The decoded response is laid out as a response with 56 data bytes. -/
theorem respRead14Bytes_eq (address : Byte) (p : Read14) (crc : Half) :
    respRead14Bytes address p crc = respOtherBytes address 0x03 0x38 (read14Bytes p) crc := rfl

theorem length_respOtherBytes (a f b : Byte) (data : List Byte) (crc : Half) :
    (respOtherBytes a f b data crc).length = data.length + 5 := by
  simp [respOtherBytes]

/-- The header announces a frame of `n` bytes (R83, R84). -/
def Announces (c : Config) (f b : Byte) (n : Nat) : Prop := (if isExc f then c.excLen.toNat else b.toNat + 5) = n

/-- A whole response of `n` bytes drained from `WAIT_SOF`: the buffer holds it, and it is classified once. -/
theorem drain_response {c : Config} (g : FitsReceiver c) (now : Time) (a f b : Byte) (data : List Byte) (crc : Half) {n : Nat}
    {s : State} (inv : Inv c s) (hs : s.rxState = .waitSof) (hann : Announces c f b n) (hn : data.length + 5 = n)
    (hmax : n ≤ 256) :
    ∃ m : Memory, (∀ i, m.read i = ((respOtherBytes a f b data crc)[i]?).getD (s.buf.read i)) ∧
      m.slice 0 n = respOtherBytes a f b data crc ∧
      drain c now (respOtherBytes a f b data crc) s =
        { state := (classify c now (filled s (clockBits c now) n m)).1.endFrame
          consumed := n
          events := [(classify c now (filled s (clockBits c now) n m)).2] } := by
  have hframe : respOtherBytes a f b data crc = a :: f :: b :: ((data ++ [hi crc]) ++ [lo crc]) := by
    simp [respOtherBytes, bytes16]
  obtain rfl : (data ++ [hi crc]).length + 4 = n := by simpa using hn
  rw [hframe]
  exact drain_frame g now a f b (data ++ [hi crc]) (lo crc) s inv hs hann hmax

/-- The check of a whole response in the buffer: its CRC against the bytes before it. -/
theorem crcMatches_response (c : Config) (a f b : Byte) (data : List Byte) (crc : Half) :
    crcMatches c (respOtherBytes a f b data crc) = (crc16 c ([a, f, b] ++ data) == crc) := by
  rw [respOtherBytes, bytes16, crcMatches_append, be16_hi_lo]

/-- The header of a whole response in the buffer. -/
theorem header_of_reads {m m' : Memory} {a f b : Byte} {data : List Byte} {crc : Half}
    (h : ∀ i, m.read i = ((respOtherBytes a f b data crc)[i]?).getD (m'.read i)) :
    m.read 0 = a ∧ m.read 1 = f ∧ m.read 2 = b := by
  simp [h, respOtherBytes]

section
variable {s : State} {start : Time} {n : Nat} {m : Memory}
@[simp] theorem filled_buf : (filled s start n m).buf = m := rfl

theorem toNat_filled_rxLen (h : n ≤ 256) : (filled s start n m).rxLen.toNat = n := by
  rw [filled, BitVec.toNat_ofNat, Nat.mod_eq_of_lt (by omega)]

/-- The check of the frame of `n` bytes that fills the buffer. -/
theorem crcMatches_filled {c : Config} {a f b : Byte} {data : List Byte} {crc : Half} (h : n ≤ 256)
    (hslice : m.slice 0 n = respOtherBytes a f b data crc) :
    crcMatches c ((filled s start n m).buf.slice 0 (filled s start n m).rxLen.toNat) =
      (crc16 c ([a, f, b] ++ data) == crc) := by
  rw [filled_buf, toNat_filled_rxLen h, hslice, crcMatches_response]
end

/-- What a whole response does to an idle receiver, by what classifying it does to the log, the counter and the ring: nothing else but
the receiver's own registers and its buffer changes (R61). -/
theorem receive_response (now : Time) (a f b : Byte) (data : List Byte) (crc : Half) {n : Nat} {s : State}
    (inv : Inv Config.core s) (hs : s.rxState = .waitSof) (hup : s.upstream = []) (hann : Announces Config.core f b n)
    (hn : data.length + 5 = n) (hmax : n ≤ 256) :
    ∃ m : Memory, (∀ i, m.read i = ((respOtherBytes a f b data crc)[i]?).getD (s.buf.read i)) ∧
      m.slice 0 n = respOtherBytes a f b data crc ∧
      ∀ log wc ring tag, classify Config.core now (filled s now n m) =
          ({ filled s now n m with log := log, wc := wc, ring := ring }, tag) →
        receive Config.core (respOtherBytes a f b data crc) now s =
          { s with
            buf := m, rxExpected := BitVec.ofNat 9 n, rxStartTs := now, log := log, wc := wc, ring := ring
            results := s.results ++ [.poll n [tag]] } := by
  obtain ⟨m, hreads, hslice, hdrain⟩ := drain_response fitsReceiver_core now a f b data crc inv hs hann hn hmax
  rw [clockBits_core] at hdrain
  refine ⟨m, hreads, hslice, fun log wc ring tag hclass => ?_⟩
  have hl := inv.sof.1 hs
  have hrest : (respOtherBytes a f b data crc).drop n = [] :=
    List.drop_eq_nil_of_le (by rw [length_respOtherBytes, hn])
  rw [receive, hup, List.nil_append, rxPoll_of_waitSof hs, hdrain, hclass, hrest]
  cases s
  simp_all [filled, State.answer, State.setUpstream, State.endFrame, State.setRxLen, State.setRxState]

/-- The decoded shape announces its 61 bytes. -/
theorem announces_read14 : Announces Config.core 0x03 0x38 61 := rfl

/-- A received row is laid out as a response whose header announces its length, if it is well formed (R52, R53, R65). -/
theorem response_of_encode {i : Instr} {frame : List Byte} {now : Time} (hw : i.wf = true)
    (h : encode i = some (.arrival frame now)) :
    ∃ a f b data crc, frame = respOtherBytes a f b data crc ∧ Announces Config.core f b (data.length + 5) := by
  cases i with
  | respExc address function code crc now =>
    cases h
    have hexc : isExc function = true := hw
    exact ⟨_, _, _, [], crc, rfl, by rw [Announces, if_pos hexc]; rfl⟩
  | respRead14 address payload crc now =>
    cases h
    exact ⟨_, _, _, read14Bytes payload, crc, rfl, by rw [length_read14Bytes]; exact announces_read14⟩
  | respOther address function byteCount data crc now =>
    cases h
    obtain ⟨⟨hexc, -⟩, hlen⟩ : (isExc function = false ∧ _) ∧ data.length = byteCount.toNat := by simpa [Instr.wf] using hw
    exact ⟨_, _, _, data, crc, rfl, by rw [Announces, if_neg (by simp [hexc]), hlen]⟩
  | _ => simp [encode] at h

/-- A whole good measurement drained from `WAIT_SOF`: classified as the record of its payload. -/
theorem classify_measurement {now : Time} {address : Byte} {p : Read14} {s : State} {m : Memory} (hf : m.read 1 = 0x03)
    (hslice : m.slice 0 61 = respRead14Bytes address p (crc16 Config.core ([address, 0x03, 0x38] ++ read14Bytes p))) :
    classify Config.core now (filled s now 61 m) =
      ({ filled s now 61 m with
          wc := s.wc + 1, ring := s.ring.write (s.wc.toNat % 60) (recordOf p s.wc now) }, .frameDecoded s.wc) := by
  rw [classify_of_decodable ((crcMatches_filled (by decide) hslice).trans (beq_self_eq_true _))
      (by rw [filled_buf, hf]; rfl) (by rw [filled_buf, hf]; rfl), counterBits_core, decodeRecord_eq_recordOf, filled_buf,
    payloadAt_of_slice hslice]
  rfl

end Sys2Proof.Machine

namespace Sys2Proof.Proofs

open Sys2Proof Sys2Proof.Machine

/-- Settles O32: a received row and bytes that do not decode are both `receive`, and so is the poll. -/
theorem receivedFramesAreTakenByAPoll : Obligations.ReceivedFramesAreTakenByAPoll := by
  refine ⟨fun i frame now s h => ⟨_, exec_of_encode_arrival h s, exec_rxPoll_eq_receive frame now s⟩,
    fun s frame now rest hp => ⟨receive Config.core frame now (s.setPending rest), ?_,
      exec_rxPoll_eq_receive frame now (s.setPending rest)⟩⟩
  cases hd : decode (.arrival frame now) with
  | ok i => rw [step_of_decode hp hd]; exact exec_of_encode_arrival (decode_eq_ok_iff_encode.1 hd).1 _
  | error e => rw [step_of_reject hp hd]; rfl

/-- Settles O33: the frame is classified as a measurement. -/
theorem goodMeasurementResponseIsDecoded : Obligations.GoodMeasurementResponseIsDecoded := by
  intro address p now s inv hs hup crc
  obtain ⟨m, hreads, hslice, hreceive⟩ :=
    receive_response now address 0x03 0x38 (read14Bytes p) crc inv hs hup announces_read14
      (by rw [length_read14Bytes]) (by decide)
  have hclass := classify_measurement (s := s) (now := now) (header_of_reads hreads).2.1 hslice
  exact ⟨_, by rw [exec_respRead14, respRead14Bytes_eq, hreceive _ _ _ _ hclass], rfl, hreads⟩

/-- Settles O34: the frame is classified as an exception. -/
theorem goodExceptionResponseIsReported : Obligations.GoodExceptionResponseIsReported := by
  intro address function code now s inv hs hup hexc crc
  rw [← isExc_iff] at hexc
  obtain ⟨m, hreads, hslice, hreceive⟩ := receive_response now address function code [] crc inv hs hup
    (n := 5) (by rw [Announces, if_pos hexc]; rfl) rfl (by decide)
  obtain ⟨h0, h1, h2⟩ := header_of_reads hreads
  have hclass := classify_of_exception (now := now) ((crcMatches_filled (s := s) (start := now) (by decide) hslice).trans
    (beq_self_eq_true _)) (by rw [filled_buf, h1]; exact hexc)
  rw [filled_buf, h0, h2] at hclass
  exact ⟨_, by rw [exec_respExc, respExcBytes_eq, hreceive _ _ _ _ hclass], rfl, hreads⟩

/-- Settles O35: the frame is classified as another shape. -/
theorem goodOtherResponseIsIgnored : Obligations.GoodOtherResponseIsIgnored := by
  intro address function byteCount data now s inv hs hup hlen hmax hexc hshape crc
  rw [← isExc_eq_false_iff] at hexc
  obtain ⟨m, hreads, hslice, hreceive⟩ := receive_response now address function byteCount data crc inv hs hup
    (n := byteCount.toNat + 5) (by rw [Announces, if_neg (by simp [hexc])]) (by rw [hlen]) (by omega)
  obtain ⟨-, h1, -⟩ := header_of_reads hreads
  have hdec : isDecodable Config.core function (filled s now (byteCount.toNat + 5) m).rxLen = false := by
    rw [← Bool.not_eq_true, isDecodable_iff, toNat_filled_rxLen (by omega)]
    exact fun ⟨hf, h61⟩ => hshape ⟨hf, BitVec.eq_of_toNat_eq (show byteCount.toNat = 56 by omega)⟩
  have hclass := classify_of_other (now := now) ((crcMatches_filled (s := s) (start := now) (by omega) hslice).trans
    (beq_self_eq_true _)) (by rw [filled_buf, h1]; exact hexc) (by rw [filled_buf, h1]; exact hdec)
  exact ⟨_, (exec_respOther ..).trans (congrArg _ (hreceive _ _ _ _ hclass)), rfl, hreads⟩

/-- Settles O36: whatever the kind, the frame is laid out as a response and classified as a mismatch. -/
theorem corruptedFrameIsDropped : Obligations.CorruptedFrameIsDropped := by
  intro i frame now s inv hs hup hw henc hlen hcrc
  obtain ⟨a, f, b, data, crc, rfl, hann⟩ := response_of_encode hw henc
  rw [length_respOtherBytes] at hlen ⊢
  obtain ⟨m, -, hslice, hreceive⟩ := receive_response now a f b data crc inv hs hup hann rfl hlen
  have hmatch : (crc16 Config.core ([a, f, b] ++ data) == crc) = false := by
    rw [← crcMatches_response]; exact Bool.eq_false_iff.2 fun h => hcrc (beq_iff_eq.1 h)
  have hclass := classify_of_mismatch (now := now) ((crcMatches_filled (s := s) (start := now) hlen hslice).trans hmatch)
  exact ⟨_, (exec_of_encode_arrival henc s).trans (congrArg _ (hreceive _ _ _ _ hclass)), rfl⟩

/-- Settles O37: the timeout check ends the unfinished frame, and the drain that follows takes the whole next one. -/
theorem timeoutRecoveryDecodesTheNextFrame : Obligations.TimeoutRecoveryDecodesTheNextFrame := by
  intro address p now s inv hs hlate crc
  have htimeout : rxTimeout Config.core now s = (s.endFrame, .timeout) := by
    rw [rxTimeout, if_pos ⟨hs, (timedOut_iff _ _).2 hlate⟩]
  have hidle : Inv Config.core s.endFrame := Inv.endFrame fitsReceiver_core inv.bufOk inv.ringOk inv.slots
  obtain ⟨m, hreads, hslice, hdrain⟩ := drain_response fitsReceiver_core now address 0x03 0x38 (read14Bytes p) crc hidle rfl
    announces_read14 (by rw [length_read14Bytes]) (by decide)
  rw [clockBits_core, classify_measurement (header_of_reads hreads).2.1 hslice, ← respRead14Bytes_eq] at hdrain
  have hrest : (respRead14Bytes address p crc).drop 61 = [] := List.drop_eq_nil_of_le (length_respRead14Bytes ..).le
  exact ⟨_, by rw [exec_rxPoll, rxPoll, htimeout, hdrain, hrest], rfl⟩

end Sys2Proof.Proofs
end

section
/-! SUPPORT. An exception response under the source code's EXC_LEN = 7 (41_frame_receiver.md R95, 90_conflicts.md C3). -/

namespace Sys2Proof.Machine

/-- EXC_LEN is no parameter of the CRC. -/
theorem crc16_sourceExcLen (data : List Byte) : crc16 Config.sourceExcLen data = crc16 Config.core data := rfl

/-- Five bytes of an exception response leave the receiver in `WAIT_CRC`, two short of the length expected, with nothing reported. -/
theorem drain_exception_sourceExcLen {a f code : Byte} (crc : Half) (now : Time) {s : State} (inv : Inv Config.sourceExcLen s)
    (hs : s.rxState = .waitSof) (hexc : isExc f = true) :
    ∃ t, drain Config.sourceExcLen now (respExcBytes a f code crc) s = { state := t, consumed := 5, events := [] } ∧
      t.rxState = .waitCrc ∧ t.rxLen = 5 ∧ t.rxExpected = 7 ∧ t.rxStartTs = now ∧ t.log = s.log := by
  obtain ⟨u, hhead, hinv, hexp, hu, -⟩ := drain_header fitsReceiver_sourceExcLen now a f code s inv hs
  rw [if_pos hexc, show Config.sourceExcLen.excLen.toNat = 7 from rfl] at hexp
  have hul : u.rxLen.toNat = 3 := by rw [hu]; rfl
  obtain ⟨t, hdata, htinv, hstate, hlen, ht, -⟩ := drain_data fitsReceiver_sourceExcLen now (bytes16 crc) u hinv
    (.inl (by rw [hu])) (by rw [hul, hexp, length_bytes16]; decide) (by rw [hul, length_bytes16]; decide)
  rw [hul, length_bytes16] at hlen
  have htexp : t.rxExpected.toNat = 7 := by rw [ht]; exact hexp
  refine ⟨t, ?_, ?_, BitVec.eq_of_toNat_eq hlen, BitVec.eq_of_toNat_eq htexp, by rw [ht, hu]; exact clockBits_sourceExcLen now,
    by rw [ht, hu]⟩
  · rw [respExcBytes, drain_append hhead, hdata]; rfl
  · rcases hstate with h | h
    · have := (htinv.data h).2.1; omega
    · exact h

/-- The clock reading at which a frame starts is not late for it. -/
theorem rxTimeout_at_start {s : State} {now : Time} (h : s.rxStartTs = now) :
    rxTimeout Config.sourceExcLen now s = (s, .none) := by
  rw [rxTimeout, if_neg]
  rintro ⟨-, ht⟩
  rw [h, timedOut_sourceExcLen_iff, BitVec.sub_self] at ht
  exact absurd ht (by decide)

/-- Two more bytes complete it: the CRC over the five is 0, so the check passes for two zeros only. -/
theorem drain_exception_completed {a f code : Byte} (x y : Byte) (now : Time) {s : State} (inv : Inv Config.sourceExcLen s)
    (hs : s.rxState = .waitSof) (hexc : isExc f = true) :
    (drain Config.sourceExcLen now
        (respExcBytes a f code (crc16 Config.sourceExcLen [a, f, code]) ++ [x, y]) s).events =
      if x = 0 ∧ y = 0 then [.exception a code] else [.crcError] := by
  obtain ⟨m, hreads, hslice, hdrain⟩ := drain_response fitsReceiver_sourceExcLen now a f code
    (bytes16 (crc16 Config.sourceExcLen [a, f, code])) (be16 x y) inv hs (n := 7) (by rw [Announces, if_pos hexc]; rfl) rfl
    (by decide)
  obtain ⟨h0, h1, h2⟩ := header_of_reads hreads
  have residue : crc16 Config.sourceExcLen ([a, f, code] ++ bytes16 (crc16 Config.sourceExcLen [a, f, code])) = 0 := by
    rw [crc16_sourceExcLen, crc16_sourceExcLen]; exact crc16_residue [a, f, code]
  have hcrc := crcMatches_filled (c := Config.sourceExcLen) (s := s) (start := clockBits Config.sourceExcLen now)
    (by decide) hslice
  rw [residue] at hcrc
  rw [show respExcBytes a f code (crc16 Config.sourceExcLen [a, f, code]) ++ [x, y] =
    respOtherBytes a f code (bytes16 (crc16 Config.sourceExcLen [a, f, code])) (be16 x y) by
      simp [respExcBytes, respOtherBytes, bytes16], hdrain]
  by_cases hzero : x = 0 ∧ y = 0
  · rw [if_pos hzero, classify_of_exception (hcrc.trans (beq_iff_eq.2 (be16_eq_zero.2 hzero).symm))
      (by rw [filled_buf, h1]; exact hexc), filled_buf, h0, h2]
  · rw [if_neg hzero, classify_of_mismatch (hcrc.trans (beq_eq_false_iff_ne.2 fun h => hzero (be16_eq_zero.1 h.symm)))]

end Sys2Proof.Machine

namespace Sys2Proof.Proofs

open Sys2Proof Sys2Proof.Machine

/-- Settles O31: the five bytes are stored and the poll ends; the two after them complete a frame of seven, or the timeout ends it. -/
theorem sourceExcLenMissesExceptionResponses : Obligations.SourceExcLenMissesExceptionResponses := by
  intro address function code x y now later s inv hs hexc crc d
  rw [← isExc_iff] at hexc
  obtain ⟨t, hdrain, hstate, hlen, hexp, hstart, hlog⟩ :=
    drain_exception_sourceExcLen (a := address) (code := code) crc now inv hs hexc
  have hd : d = { state := t.setUpstream [], consumed := 5, events := [] } := by
    rw [show d = rxPoll Config.sourceExcLen now (respExcBytes address function code crc) s from rfl, rxPoll_of_waitSof hs, hdrain]
    rfl
  rw [hd]
  refine ⟨rfl, rfl, hstate, hlen, hexp, hlog, ?completed, fun hlate => ?late⟩
  case completed =>
    have hwhole := drain_exception_completed (a := address) (code := code) x y now inv hs hexc
    rw [drain_append hdrain] at hwhole
    rw [rxPoll, rxTimeout_at_start (s := t.setUpstream []) hstart,
      show t.setUpstream [] = { t with upstream := [], results := t.results } from rfl, drain_env]
    exact hwhole
  case late =>
    rw [rxTimeout, if_pos ⟨by rw [State.setUpstream_rxState, hstate]; decide,
      (timedOut_sourceExcLen_iff _ _).2 (by rw [State.setUpstream_rxStartTs, hstart]; exact hlate)⟩]
    rfl

end Sys2Proof.Proofs
end

section
/-! SUPPORT. The Register Decoder, the Measurement Ring Buffer and the Client Session Driver (42_register_decoder.md, 43_ring_buffer.md,
44_session_driver.md), reset (10_state.md R29), and the configured machine (00_scope.md R7). -/

namespace Sys2Proof.Machine

/-! ### The decoder -/

/-- The unpacked word as a number: each byte weighs 256 times the next (42_register_decoder.md R100). -/
theorem toNat_unpackBe32 (m : Memory) (off : Nat) : (unpackBe32 m off).toNat =
    (m.read off).toNat * 2 ^ 24 + (m.read (off + 1)).toNat * 2 ^ 16 + (m.read (off + 2)).toNat * 2 ^ 8 +
      (m.read (off + 3)).toNat := be32_toNat ..

/-- Four bytes that stand in the buffer are the unpacked word. -/
theorem unpackBe32_of_slice {m : Memory} {off : Nat} {a b c d : Byte} (h : m.slice off 4 = [a, b, c, d]) :
    unpackBe32 m off = be32 a b c d := by
  simp only [Memory.slice, Nat.add_assoc, Nat.reduceAdd, List.cons.injEq] at h
  obtain ⟨rfl, rfl, rfl, rfl, -⟩ := h
  rfl

/-- Function 0x03 and third byte 0x38 select the unpacker once for each offset, and the ring write last. -/
theorem selectFromDecoder_read14 (c : Config) (rec : PowerRecord) : selectFromDecoder c 0x03 0x38 rec =
    (unpackOffsets c).map (fun off => .unpackBe32 (BitVec.ofNat 8 off)) ++ [.ringWrite rec] := rfl

/-- Among offsets of a frame, distinct ones are distinct operands. -/
theorem count_unpackBe32 {offs : List Nat} (hnodup : offs.Nodup) (hoffs : ∀ o ∈ offs, o < 256) {off : Nat} (h : off < 256) :
    (offs.map fun o => Instr.unpackBe32 (BitVec.ofNat 8 o)).count (.unpackBe32 (BitVec.ofNat 8 off)) =
      if off ∈ offs then 1 else 0 := by
  rw [← hnodup.count, List.count, List.count, List.countP_map]
  refine List.countP_congr fun o ho => ?_
  have ho := hoffs o ho
  simp only [Function.comp_apply, beq_iff_eq, Instr.unpackBe32.injEq]
  refine ⟨fun heq => ?_, fun heq => by rw [heq]⟩
  simpa [Nat.mod_eq_of_lt ho, Nat.mod_eq_of_lt h] using congrArg BitVec.toNat heq

theorem toNat_div10 (raw : Word32) : (div10 raw).toNat = raw.toNat / 10 := BitVec.toNat_udiv

theorem toNat_mul10 (raw : Word32) : (mul10 raw).toNat = raw.toNat * 10 % 2 ^ 32 := BitVec.toNat_mul ..

/-- A tenth of a 32-bit value is far from the sign bit: as a signed value it is the quotient (42_register_decoder.md R103). -/
theorem toInt_div10 (raw : Word32) : (div10 raw).toInt = (raw.toNat / 10 : Int) := by
  have := raw.isLt
  rw [BitVec.toInt_eq_toNat_of_lt (by rw [toNat_div10]; omega), toNat_div10]; rfl

/-- So its negation does not overflow. -/
theorem toInt_neg_div10 (raw : Word32) : (-(div10 raw)).toInt = -(raw.toNat / 10 : Int) := by
  have := raw.isLt
  rw [BitVec.toInt_neg, toInt_div10, Int.bmod_eq_of_le (by omega) (by omega)]

/-! ### The ring -/

/-- After a write the counter is one more, modulo its width (43_ring_buffer.md R116). -/
theorem toNat_ringWrite_wc {c : Config} (hw : c.wcWidth ≤ 32) (rec : PowerRecord) (s : State) :
    (ringWrite c rec s).wc.toNat = (s.wc.toNat + 1) % 2 ^ c.wcWidth := by
  rw [ringWrite_eq, counterBits, toNat_lowBits, BitVec.toNat_add, Nat.mod_mod_of_dvd _ (Nat.pow_dvd_pow 2 hw)]; rfl

/-- Every slot after a write (R116). -/
theorem read_ringWrite {s : State} (h : s.ring.wf = true) (rec : PowerRecord) (slot : Nat) :
    (ringWrite Config.core rec s).ring.read slot = if slot = s.wc.toNat % 60 then rec else s.ring.read slot :=
  Ring.read_write h ..

theorem ringWrite_wf {s : State} (h : s.ring.wf = true) (c : Config) (rec : PowerRecord) : (ringWrite c rec s).ring.wf = true :=
  Ring.wf_write h ..

/-- Running one instruction more. -/
theorem execAll_append_singleton {is : List Instr} {i : Instr} {s t u : State} (h : execAll is s = some t)
    (hi : exec i t = .next u) : execAll (is ++ [i]) s = some u := by
  induction is generalizing s with
  | nil => cases h; rw [List.nil_append, execAll_cons_next hi, execAll]
  | cons j is ih =>
    cases hj : exec j s with
    | next s' => rw [execAll_cons_next hj] at h; rw [List.cons_append, execAll_cons_next hj, ih h]
    | fault r => cases r
    | refused r => simp [execAll, hj] at h

/-- What any number of writes from `wc = 0` leave (43_ring_buffer.md R118 (b)): each further write replaces the record sixty before it
and no other, and reaches no slot from its own number up. -/
theorem execAll_ringWrites {s : State} (hwc : s.wc = 0) (hwf : s.ring.wf = true) (recs : List PowerRecord)
    (hlen : recs.length < 2 ^ 32) :
    ∃ t, execAll (recs.map .ringWrite) s = some t ∧ t.wc.toNat = recs.length ∧ t.ring.wf = true ∧
      (∀ k rec, recs[k]? = some rec → recs.length ≤ k + 60 → t.ring.read (k % 60) = rec) ∧
      ∀ slot, recs.length ≤ slot ∨ 60 ≤ slot → t.ring.read slot = s.ring.read slot := by
  induction recs using List.reverseRecOn with
  | nil => exact ⟨s, rfl, by rw [hwc]; rfl, hwf, by simp, fun _ _ => rfl⟩
  | append_singleton recs last ih =>
    rw [List.length_append, List.length_singleton] at hlen ⊢
    obtain ⟨t, hall, htwc, htwf, hkept, hother⟩ := ih (by omega)
    refine ⟨ringWrite Config.core last t, ?_, ?_, ringWrite_wf htwf .., fun k rec hk hrange => ?_, fun slot hslot => ?_⟩
    · rw [List.map_append]; exact execAll_append_singleton hall (exec_ringWrite ..)
    · rw [toNat_ringWrite_wc (by decide), htwc]; exact Nat.mod_eq_of_lt hlen
    · rw [read_ringWrite htwf, htwc]
      rcases Nat.lt_trichotomy k recs.length with hlt | rfl | hgt
      · rw [if_neg (by omega)]
        exact hkept k rec (by rwa [List.getElem?_append_left hlt] at hk) (by omega)
      · rw [if_pos rfl]; simpa using hk
      · rw [List.getElem?_eq_none (by simp; omega)] at hk; cases hk
    · rw [read_ringWrite htwf, htwc, if_neg (by omega)]
      exact hother slot (by omega)

/-! ### The driver -/

/-- A poll of the driver that is not due is a poll of the receiver: nothing is sent (44_session_driver.md R127). -/
theorem clientPoll_not_due {now : Time} {s : State} (h : (now - s.lastSendTs).toNat ≤ 1000000) (avail : List Byte) :
    ∃ t, exec (.clientPoll now avail) s = .next t ∧ t.tx = s.tx ∧ t.lastSendTs = s.lastSendTs := by
  have hdue : sendIfDue Config.core now s = (s, []) := by
    rw [sendIfDue, if_neg (by rw [requestDue_iff]; omega)]
  obtain ⟨hts, htx, -, -⟩ := rxPoll_frame Config.core now avail s
  exact ⟨_, exec_clientPoll .., by rw [hdue]; exact htx, by rw [hdue]; exact hts⟩

end Sys2Proof.Machine

namespace Sys2Proof.Proofs

open Sys2Proof Sys2Proof.Machine

/-- Settles O38: the word the unpacker reads is the number its bytes weigh. -/
theorem unpackBe32Completes : Obligations.UnpackBe32Completes :=
  fun off s _ => ⟨unpackBe32 s.buf off.toNat, exec_unpackBe32 s off, toNat_unpackBe32 ..⟩

/-- Settles O39: the two arms of `decFrame`. -/
theorem decFrameCompletes : Obligations.DecFrameCompletes := by
  refine fun len now s => ⟨fun hf hl => ?_, fun h => ?_⟩
  · have hdec : isDecodable Config.core (s.buf.read 1) len = true := (isDecodable_iff _ _).2 ⟨hf, by rw [hl]; rfl⟩
    rw [exec_decFrame, decFrame, if_pos hdec, decodeRecord_eq_recordOf, ringWrite_eq, counterBits_core]; rfl
  · rw [exec_decFrame, decFrame, if_neg]
    · rfl
    · rw [isDecodable_iff]
      rintro ⟨hf, hl⟩
      exact h.elim (absurd hf) fun hne => hne (BitVec.eq_of_toNat_eq hl)

/-- Settles O40: the quotient is below 2^31, so it and its negation are exact as signed values. -/
theorem scalingIsExactArithmetic : Obligations.ScalingIsExactArithmetic := by
  refine fun raw flag => ⟨toNat_div10 raw, ?_, toNat_mul10 raw, fun h => by rw [toNat_mul10]; omega⟩
  rw [signedPower_eq]
  split
  · exact toInt_div10 raw
  · exact toInt_neg_div10 raw

/-- Settles O41: `ringWrite_eq` through the reads after it. -/
theorem ringWriteCompletes : Obligations.RingWriteCompletes :=
  fun rec s h => ⟨_, exec_ringWrite s rec, rfl, toNat_ringWrite_wc (by decide) rec s, read_ringWrite h rec⟩

/-- Settles O42: the latest slot as a number. -/
theorem ringLatestCompletes : Obligations.RingLatestCompletes := by
  intro s
  rw [exec_ringLatest, ringLatest, latestSlot_core]; rfl

/-- Settles O43: the slot written is the latest slot of the counter after it, also across the wrap. -/
theorem latestAfterWriteIsTheRecordWritten : Obligations.LatestAfterWriteIsTheRecordWritten := by
  intro rec s t hwf h
  rw [exec_ringWrite] at h; cases h
  rw [exec_ringLatest, ringLatest_ringWrite (by decide) s.wc.isLt hwf]; rfl

/-- Settles O44, by induction on the number of writes. -/
theorem ringHoldsTheLastSixtyRecords : Obligations.RingHoldsTheLastSixtyRecords := by
  intro recs s hwc hwf hlen
  obtain ⟨t, hall, htwc, -, hkept, hother⟩ := execAll_ringWrites hwc hwf recs hlen
  exact ⟨t, hall, htwc, hkept, hother⟩

/-- Settles O45: the probe frame byte by byte. -/
theorem clientInitCompletes : Obligations.ClientInitCompletes := by
  intro now s
  rw [exec_clientInit, clientInit, probeFrame, requestFrame, crcAppend_reqReadBytes]; rfl

/-- Settles O46: `sendIfDue` by its condition, then the poll. -/
theorem clientPollCompletes : Obligations.ClientPollCompletes := by
  intro now avail s body frame due s'
  have hframe : periodicFrame Config.core = frame := crcAppend_reqReadBytes ..
  have hsend : sendIfDue Config.core now s = (s', if due then frame else []) := by
    rw [sendIfDue, hframe, clockBits_core]
    by_cases hdue : due
    · rw [if_pos ((requestDue_iff _ _).2 hdue), if_pos hdue, show s' = _ from if_pos hdue]; rfl
    · rw [if_neg (mt (requestDue_iff _ _).1 hdue), if_neg hdue, show s' = _ from if_neg hdue]
  have hres : s'.results = s.results := by
    have := sendIfDue_results Config.core now s; rwa [hsend] at this
  have hpoll := (rxPoll_frame Config.core now avail s').2.2.1.trans hres
  refine ⟨_, _, _, exec_rxPoll .., by rw [State.answer_results, hpoll], ?_⟩
  rw [exec_clientPoll, hsend, State.answer, State.answer, hpoll]

/-- Settles O47, by induction on the polls: none is due, so each leaves the send time at which the next is judged. -/
theorem atMostOneRequestPerPeriod : Obligations.AtMostOneRequestPerPeriod := by
  intro polls
  induction polls with
  | nil => exact fun s _ => ⟨s, rfl, rfl, rfl⟩
  | cons p polls ih =>
    intro s h
    obtain ⟨t, hexec, htx, hts⟩ := clientPoll_not_due (h p (by simp)) p.2
    obtain ⟨u, hall, hutx, huts⟩ := ih t fun q hq => by rw [hts]; exact h q (by simp [hq])
    exact ⟨u, by rw [List.map_cons, execAll_cons_next hexec, hall], hutx.trans htx, huts.trans hts⟩

/-- Settles O48: the request frame byte by byte. -/
theorem reqReadCompletes : Obligations.ReqReadCompletes := by
  intro address reg count crc s
  rw [exec_reqRead, crcAppend_reqReadBytes]; rfl

/-- Settles O49: an empty ring reads as zero records everywhere, the latest slot included. -/
theorem resetMatchesTheSpec : Obligations.ResetMatchesTheSpec :=
  ⟨rfl, rfl, rfl, fun _ => rfl, rfl, rfl, exec_ringLatest State.reset⟩

/-- Settles O50: the reset state is that of a receiver that has ended a frame, with empty stores. -/
theorem resetMeetsTheInvariant : Obligations.ResetMeetsTheInvariant :=
  Inv.endFrame (s := State.reset) fitsReceiver_core ⟨rfl, rfl⟩ ⟨rfl, rfl⟩ fun _ _ => .inl rfl

/-- Settles O56: instruction by instruction, and a step runs one. -/
theorem configuredMachineAtTheSpecValues : Obligations.ConfiguredMachineAtTheSpecValues := ⟨execOn_core, stepOn_core⟩

/-- Settles O58: `toNat_ringWrite_wc` and `ringLatest_ringWrite`, neither of which fixes a width. -/
theorem latestAfterWriteOnEveryConfiguration : Obligations.LatestAfterWriteOnEveryConfiguration := by
  intro c rec s t hw hwc hwf h
  obtain rfl : ringWrite c rec s = t := Host.Outcome.next.inj h
  refine ⟨toNat_ringWrite_wc hw rec s, ?_⟩
  rw [show execOn c .ringLatest (ringWrite c rec s) =
    .next ((ringWrite c rec s).answer (.record (ringLatest c (ringWrite c rec s)))) from rfl, ringLatest_ringWrite hw hwc hwf]
  rfl

/-- Settles O60: the four bytes read from a slice, and one unpacker for each of ten distinct offsets. -/
theorem unpackerIsFourByteReads : Obligations.UnpackerIsFourByteReads := by
  intro m off hoff b
  refine ⟨rfl, fun h => ?_, fun h => ?_, fun h => ?_, fun h => ?_, fun rec => ?count⟩
  iterate 4 rw [unpackBe32_of_slice h]; decide
  have hlt : off < 256 := Nat.lt_of_le_of_lt hoff (by decide)
  rw [selectFromDecoder_read14, List.count_append, count_unpackBe32 (by decide) (by decide) hlt, List.count_singleton]
  rfl

end Sys2Proof.Proofs
end
